-- ==== Sys2Proof/Word.lean ====
section
/-! DEFINITION. The word types of the DRP block (00_scope.md R8, R9, R12; 10_state.md R31). Widths only:
every operation on them that a rule of the spec states is in Sys2Proof/Machine/. -/

namespace Sys2Proof

/-- One byte of IN, of OUT or of ENCBUF. -/
abbrev Byte := BitVec 8

/-- One dictionary word: a cell of `ENT` is 64 bits wide, and with 4-byte words its bits [63:32] are 0 (R31). -/
abbrev Word := BitVec 64

end Sys2Proof
end

