-- ==== Sys2Proof/Machine/Bits.lean ====
section
/-! DEFINITION. Bit order, byte order, packing and saturation: the helpers of 20_memory.md R62 to R65, of 00_scope.md R9
and of 10_state.md R29. -/

namespace Sys2Proof.Machine

/-- R9: the number of bytes that hold n bits. -/
def ceil8 (n : Nat) : Nat := (n + 7) / 8

/-- R64: the n-bit value v as its bits v[n-1], v[n-2], ..., v[0], in that order. -/
def bitsMsb : Nat → Nat → List Bool
  | 0, _ => []
  | n + 1, v => v.testBit n :: bitsMsb n v

/-- R64, R65 from the middle of a byte: `acc` holds the k bits already taken for the byte, most significant first. The last
byte's missing bits are 0. -/
def packFrom : Nat → Nat → List Bool → List Byte
  | acc, k, [] => if k = 0 then [] else [BitVec.ofNat 8 (acc * 2 ^ (8 - k))]
  | acc, k, b :: bs =>
    if k = 7 then BitVec.ofNat 8 (2 * acc + b.toNat) :: packFrom 0 0 bs
    else packFrom (2 * acc + b.toNat) (k + 1) bs

/-- R65, R197 `pad(S)`: the bit sequence packed most significant bit first and padded with 0 to whole bytes. -/
def pad (s : List Bool) : List Byte := packFrom 0 0 s

/-- R62 `le`: the n bytes of a value, byte i being (v >> 8i) mod 256. -/
def leBytes : Nat → Nat → List Byte
  | 0, _ => []
  | n + 1, v => BitVec.ofNat 8 v :: leBytes n (v / 256)

/-- R62, the inverse of `le`: the sum of b_i · 256^i. -/
def leValue : List Byte → Nat
  | [] => 0
  | b :: bs => b.toNat + 256 * leValue bs

/-- R29, D19: a counter that would pass its maximum saturates. -/
def satAdd {w : Nat} (x : BitVec w) (n : Nat) : BitVec w :=
  if x.toNat + n < 2 ^ w then BitVec.ofNat w (x.toNat + n) else BitVec.allOnes w

end Sys2Proof.Machine
end

