-- ==== Sys2Proof/Config.lean ====
section
/-! DEFINITION. What a built block fixes (00_scope.md R6, R7; 42_rank_codec.md R140), the platform parameters no rule
reads, and the one free value of the model. The reference build and its legality are in Machine/CodeTable.lean. -/

namespace Sys2Proof

/-- One entry of the rank code table: 15 bits, `pattern` right-aligned in 11 bits and `length` in 4 bits (R140). -/
structure Code where
  pattern : BitVec 11
  length  : BitVec 4
deriving DecidableEq, Repr

/-- The build parameters of R6. They are arguments of the model, not state that a command writes: `State` carries them
unchanged (assumption log 1). -/
structure Build where
  /-- R6 `MAX_HASH_BITS`, 1..16. -/
  maxHashBits : BitVec 5
  /-- R6 `DEPTH`, 1..256. -/
  depth : BitVec 9
  /-- R6 `MULT32`, odd. -/
  mult32 : BitVec 32
  /-- R6 `MULT64`, odd. -/
  mult64 : BitVec 64
  /-- R6 `ESC_NUM`. -/
  escNum : BitVec 16
  /-- R6 `ESC_DEN`. -/
  escDen : BitVec 16
  /-- R35, R140 `CODE_TABLE`: the entry of rank r at index r. -/
  codeTable : List Code
deriving DecidableEq, Repr

/-- R7: signatures in a full block. -/
abbrev Config.blockSigs : Nat := 4096

/-- R7: the length of the efficiency window. -/
abbrev Config.window : Nat := 256

/-- R7: code-table entries. -/
abbrev Config.nRanks : Nat := 256

/-- R7: the shortest code. -/
abbrev Config.minCodeLen : Nat := 3

/-- R7: the longest code. -/
abbrev Config.maxCodeLen : Nat := 11

/-- R7: the entity streams PREDICTIONS, RANK, DICTIONARY and ENCODED. -/
abbrev Config.nStreams : Nat := 4

/-- R61: where the platform puts the command port. No rule reads it (assumption log 10). -/
opaque Config.drpBase : Nat

/-- R276: how many instances of the block the platform has. No rule reads it (assumption log 10). -/
opaque Config.nInstances : Nat

/-- FREE VALUE (assumption log 3). What the decoder reads as IN when the host has changed IN while a DEC context was
active: R296, "the model may treat it as any value". It is applied to `State.tick`, so that every command has a
value of its own. -/
opaque Config.unstableInput : Nat → List Byte

end Sys2Proof
end

