-- ==== Sys2Proof/Machine/CodeTable.lean ====
section
/-! DEFINITION. The rank code table as a build parameter (42_rank_codec.md R140, R141), the legality of a build
(00_scope.md R6), the reference table REF_TABLE (R143, R149) and the reference build (R6). -/

namespace Sys2Proof.Machine

/-- The value `code word of c` is an initial part of the code word of `d` (R141 T3): the first `c.length` bits of `d`'s
pattern, most significant first, are `c`'s pattern. -/
def startsWith (c d : Code) : Bool :=
  decide (c.length.toNat ≤ d.length.toNat) &&
    decide (d.pattern.toNat / 2 ^ (d.length.toNat - c.length.toNat) = c.pattern.toNat)

/-- R141 T1: exactly 256 entries. -/
abbrev tableT1 (t : List Code) : Prop := t.length = Config.nRanks

/-- R140 and R141 T2: lengths in [3,11] and patterns below 2^length. -/
abbrev tableT2 (t : List Code) : Prop :=
  ∀ c ∈ t, Config.minCodeLen ≤ c.length.toNat ∧ c.length.toNat ≤ Config.maxCodeLen ∧
    c.pattern.toNat < 2 ^ c.length.toNat

/-- R141 T3: no code word is the initial part of another rank's. -/
abbrev tableT3 (t : List Code) : Prop :=
  t.Pairwise (fun c d => startsWith c d = false ∧ startsWith d c = false)

/-- R141 T4: rank 0 has length 3 and no other rank has. -/
abbrev tableT4 (t : List Code) : Prop :=
  (t.getD 0 ⟨0, 0⟩).length = 3 ∧ ∀ c ∈ t.tail, c.length ≠ 3

/-- R141: what a model may assume of CODE_TABLE, and nothing else of it. -/
abbrev tableLegal (t : List Code) : Prop := tableT1 t ∧ tableT2 t ∧ tableT3 t ∧ tableT4 t

/-- R6, the column "legal range", with R141 for the code table. A DRP block is built with a legal build. -/
structure BuildLegal (b : Build) : Prop where
  hashBits : 1 ≤ b.maxHashBits.toNat ∧ b.maxHashBits.toNat ≤ 16
  depth : 1 ≤ b.depth.toNat ∧ b.depth.toNat ≤ 256
  mult32 : b.mult32.toNat % 2 = 1
  mult64 : b.mult64.toNat % 2 = 1
  escape : 1 ≤ b.escNum.toNat ∧ b.escNum.toNat ≤ b.escDen.toNat
  table : tableLegal b.codeTable

/-- R143: the entry of rank r in REF_TABLE. -/
def refCode (r : Nat) : Code :=
  if r = 0 then ⟨0, 3⟩
  else if r ≤ 2 then ⟨BitVec.ofNat 11 (2 + (r - 1)), 4⟩
  else if r ≤ 6 then ⟨BitVec.ofNat 11 (8 + (r - 3)), 5⟩
  else if r ≤ 14 then ⟨BitVec.ofNat 11 (24 + (r - 7)), 6⟩
  else if r ≤ 30 then ⟨BitVec.ofNat 11 (64 + (r - 15)), 7⟩
  else if r ≤ 62 then ⟨BitVec.ofNat 11 (160 + (r - 31)), 8⟩
  else if r ≤ 126 then ⟨BitVec.ofNat 11 (384 + (r - 63)), 9⟩
  else if r ≤ 190 then ⟨BitVec.ofNat 11 (896 + (r - 127)), 10⟩
  else ⟨BitVec.ofNat 11 (1920 + (r - 191)), 11⟩

/-- R143: REF_TABLE, the spec's own reference instance. -/
def refTable : List Code := (List.range 256).map refCode

/-- R6, the column "reference": the build that every test vector of 95_test_vectors.md uses (assumption log 1). -/
def referenceBuild : Build where
  maxHashBits := 16
  depth := 4
  mult32 := 0x9E3779B1
  mult64 := 0x9E3779B97F4A7C15
  escNum := 31
  escDen := 32
  codeTable := refTable

end Sys2Proof.Machine
end

