-- ==== Sys2Proof/Syntax.lean ====
section
/-! DEFINITION. The commands of the DRP block (30_encoding.md R80 to R86): one constructor of `Instr` for each row of
spec/opcode_table.json. An operand field holds every value its bits can hold; which values are legal is a check of
the command (R83, R86 (c)), so that an illegal value is answered and not lost in the decoder. -/

namespace Sys2Proof

/-- R23 `MODE`: 0 is ENC (compression), 1 is DEC (decompression). Datapath modes, not privilege levels (R275). -/
inductive Mode where
  | enc
  | dec
deriving DecidableEq, Repr

/-- R23 `WSEL`: 0 selects 4-byte words, 1 selects 8-byte words. -/
inductive WordSel where
  | w4
  | w8
deriving DecidableEq, Repr

/-- R80: a command is one 32-bit command word and one 64-bit data word. -/
structure Command where
  /-- `CMD`: OPCODE in [31:24], ARG in [23:0]. -/
  cmd  : BitVec 32
  /-- `DATA`, always present. -/
  data : BitVec 64
deriving DecidableEq, Repr

/-- The rows of the opcode map (R84). -/
inductive Mnemonic where
  | nop | ctxInit | outGrant | readReg
  | hash
  | dictRead
  | rankEnc | rankDec
  | encWord | encFlush | encFinish | encTail
  | decBlock | decTail
deriving DecidableEq, Repr

/-- The commands, with the operands R82 and R83 give them. A command that ignores DATA does not carry it. -/
inductive Instr where
  /-- NOP (R243). -/
  | nop
  /-- CTX_INIT (R240): MODE, WSEL, HBITS and DATA, the expected output size in DEC mode. -/
  | ctxInit (mode : Mode) (wsel : WordSel) (hbits : BitVec 5) (data : BitVec 64)
  /-- OUT_GRANT (R242): DATA is a byte count. -/
  | outGrant (data : BitVec 64)
  /-- READ_REG (R244): REGNO. -/
  | readReg (regno : BitVec 8)
  /-- HASH (R112): DATA holds the word. -/
  | hash (data : BitVec 64)
  /-- DICT_READ (R128): BUCKET and RANK. -/
  | dictRead (bucket : BitVec 16) (rank : BitVec 8)
  /-- RANK_ENC (R146): RANK. -/
  | rankEnc (rank : BitVec 8)
  /-- RANK_DEC (R147): DATA[10:0] is the window. -/
  | rankDec (data : BitVec 64)
  /-- ENC_WORD (R161): DATA holds the word. -/
  | encWord (data : BitVec 64)
  /-- ENC_FLUSH (R174). -/
  | encFlush
  /-- ENC_FINISH (R175). -/
  | encFinish
  /-- ENC_TAIL (R176): N, and the tail bytes in DATA. -/
  | encTail (n : BitVec 3) (data : BitVec 64)
  /-- DEC_BLOCK (R210). -/
  | decBlock
  /-- DEC_TAIL (R222). -/
  | decTail
deriving DecidableEq, Repr

/-- The row of the opcode map a command belongs to (R84, R85). -/
def Instr.mnemonic : Instr → Mnemonic
  | .nop => .nop
  | .ctxInit _ _ _ _ => .ctxInit
  | .outGrant _ => .outGrant
  | .readReg _ => .readReg
  | .hash _ => .hash
  | .dictRead _ _ => .dictRead
  | .rankEnc _ => .rankEnc
  | .rankDec _ => .rankDec
  | .encWord _ => .encWord
  | .encFlush => .encFlush
  | .encFinish => .encFinish
  | .encTail _ _ => .encTail
  | .decBlock => .decBlock
  | .decTail => .decTail

end Sys2Proof
end

