-- ==== Sys2Proof/Machine/State.lean ====
section
/-! DEFINITION. The state of the DRP block and its host (10_state.md R20 to R37; 20_memory.md R60), as plain data, the
reasons a step may stop, and the state after hardware reset (70_reset_and_hazards.md R290). -/

namespace Sys2Proof.Machine

/-- The reasons a step ends in a fault: none. The block has no trap, and an error is the response of a command that
completes (60_exceptions.md R261, R270), so this closed inductive has no constructor. -/
inductive Fault where
deriving DecidableEq, Repr

/-- The reasons a step is refused. -/
inductive Refusal where
  /-- An instruction without a meaning, rejected by name in exec's arm (safe). No arm raises it: every row has its
  meaning. -/
  | notModelled (mnemonic : String)
deriving DecidableEq, Repr

/-- R24 `BSTATE`: 0 is PREDICTING, 1 is ESCAPED. -/
inductive BlockState where
  | predicting
  | escaped
deriving DecidableEq, Repr

/-- R28 `FAULT_CODE`: 0 none, 1 CORRUPT_STREAM, 2 INVALID_CODE. R39: the values 3..7 never appear. -/
inductive FaultCode where
  | none
  | corruptStream
  | invalidCode
deriving DecidableEq, Repr

/-- R260: the STATUS codes 0..6. "A model must never produce codes 7 to 15." -/
inductive Status where
  | ok
  | corruptStream
  | invalidCode
  | outputOverflow
  | illegalCommand
  | wrongState
  | faulted
deriving DecidableEq, Repr

/-- R87: the outcome of one word-processing step. The reserved code 0b11 is no signature. -/
inductive Signature where
  | miss
  | hit
  | esc
deriving DecidableEq, Repr

/-- R36: the response of the last command. -/
structure Response where
  status : Status
  valid  : Bool
  result : BitVec 64
deriving DecidableEq, Repr

/-- R20: what the host does to the block, one action a step (assumption log 2). -/
inductive HostAction where
  /-- The host issues a command on the command port (R80). -/
  | issue (c : Command)
  /-- The host presents IN (R37, R294 step 3). -/
  | present (bytes : List Byte)
  /-- Hardware reset is asserted (R290); a power-up is one (R280). -/
  | hardReset
deriving DecidableEq, Repr

/-- The dictionary RAM (R30, R31), space (3) of R60: the recency lists by bucket, in one canonical form. A cell is a
bucket with its list `L(b)` (R120); a bucket that is not listed has OCC 0. -/
structure Memory where
  cells : List (Nat × List Word)
deriving DecidableEq, Repr

/-- The canonical form: buckets strictly rising, and no listed bucket equal to what an unlisted one reads as. -/
abbrev Memory.wf (m : Memory) : Prop :=
  m.cells.Pairwise (fun x y => x.1 < y.1) ∧ ∀ x ∈ m.cells, x.2 ≠ []

/-- The dictionary RAM with every OCC 0. -/
def Memory.empty : Memory := ⟨[]⟩

/-- Everything the spec gives the machine, and the host's side of its port. -/
structure State where
  /-- R6, R35, R40: the build parameters, which no command writes. -/
  build : Build
  /-- R20, R70: what the host has yet to do, oldest first. -/
  port : List HostAction
  /-- The model's own count of host actions taken, which indexes the free values (assumption log 3). -/
  tick : Nat
  /-- R37: `IN`, with IN_LEN its length. -/
  input : List Byte
  /-- The model's own mark of R296: IN was changed while a DEC context was active. -/
  inChanged : Bool
  /-- R37: `OUT`, every byte the block has written, in order. -/
  out : List Byte
  /-- R22. -/
  init : Bool
  /-- R23. -/
  mode : Mode
  /-- R23. -/
  wsel : WordSel
  /-- R23. -/
  hbits : BitVec 5
  /-- R24. -/
  bstate : BlockState
  /-- R25. -/
  sigCount : BitVec 13
  /-- R26. -/
  flushPending : Bool
  /-- R26. -/
  finished : Bool
  /-- R26. -/
  tailDone : Bool
  /-- R27. -/
  lastb : BitVec 16
  /-- R28 `FAULT`. -/
  fault : Bool
  /-- R28 `FAULT_CODE`. -/
  faultCode : FaultCode
  /-- R29. -/
  outPos : BitVec 64
  /-- R29. -/
  outAvail : BitVec 64
  /-- R29. -/
  inPos : BitVec 64
  /-- R29. -/
  decRemain : BitVec 64
  /-- R29. -/
  tailRem : BitVec 3
  /-- R29. -/
  blkCnt : BitVec 64
  /-- R29. -/
  wordCnt : BitVec 64
  /-- R29. -/
  escEvents : BitVec 64
  /-- R29. -/
  blkHits : BitVec 13
  /-- R29. -/
  blkMisses : BitVec 13
  /-- R29. -/
  blkEscs : BitVec 13
  /-- R30, R31: OCC and ENT. -/
  dict : Memory
  /-- R33 `SIGBUF`. -/
  sigBuf : List Bool
  /-- R33 `PREDBUF`. -/
  predBuf : List Bool
  /-- R33 `RANKBUF`. -/
  rankBuf : List Bool
  /-- R33 `DICTBUF`. -/
  dictBuf : List Bool
  /-- R33 `ENCBUF`. -/
  encBuf : List Byte
  /-- R36. -/
  resp : Response
deriving DecidableEq, Repr

/-- R290: the value of every piece of state after hardware reset, for a block built with `b`. The dictionary RAM is
unspecified there and is given nothing here (assumption log 4); the host has presented nothing, read nothing and issued
nothing. -/
def State.resetOf (b : Build) : State where
  build := b
  port := []
  tick := 0
  input := []
  inChanged := false
  out := []
  init := false
  mode := .enc
  wsel := .w4
  hbits := 0
  bstate := .predicting
  sigCount := 0
  flushPending := false
  finished := false
  tailDone := false
  lastb := 0
  fault := false
  faultCode := .none
  outPos := 0
  outAvail := 0
  inPos := 0
  decRemain := 0
  tailRem := 0
  blkCnt := 0
  wordCnt := 0
  escEvents := 0
  blkHits := 0
  blkMisses := 0
  blkEscs := 0
  dict := Memory.empty
  sigBuf := []
  predBuf := []
  rankBuf := []
  dictBuf := []
  encBuf := []
  resp := ⟨.ok, false, 0⟩

/-- The machine right after hardware reset (R290), with the reference parameters of R6 (assumption log 1). -/
def State.reset : State := State.resetOf referenceBuild

end Sys2Proof.Machine
end

