-- ==== Sys2Proof/Machine/Ops.lean ====
section
/-! DEFINITION. The shared operations: the response and the raising of an error (10_state.md R36; 60_exceptions.md R261,
R265, R266), the dictionary RAM (R30, R31), the output sink (20_memory.md R66), the input cursor (R67), and the host's
other actions: presenting IN and hardware reset (R296, R290). -/

namespace Sys2Proof.Machine

/-- What a meaning answers with. -/
abbrev Result := Host.Outcome State Fault Refusal

/-! ### The response, and errors -/

/-- R10, R36 `respond(status, valid, result)`. -/
def State.respond (s : State) (status : Status) (valid : Bool) (result : BitVec 64) : State :=
  { s with resp := ⟨status, valid, result⟩ }

/-- R10 `raise`, R36, R261: the command completes with the status, VALID = 0 and RESULT = 0, and nothing else changes.
This is all the block has in the place of a trap entry (R270): no state is saved and no control transferred. -/
def State.raise (s : State) (status : Status) : State := s.respond status false 0

/-- R265: the first error that applies, the conditions standing in the order of the command's pseudocode. -/
def firstError : List (Bool × Status) → Option Status
  | [] => none
  | (applies, status) :: rest => if applies then some status else firstError rest

/-- R266 `decode_fault(c)`: the sticky decode fault, recorded and answered. -/
def State.decodeFault (s : State) (status : Status) (code : FaultCode) : State :=
  { s with fault := true, faultCode := code, resp := ⟨status, false, 0⟩ }

/-! ### The dictionary RAM -/

/-- The list in the cell of a bucket, the empty list where no cell is listed. -/
def cellsGet : List (Nat × List Word) → Nat → List Word
  | [], _ => []
  | (k, l) :: rest, b => if k = b then l else cellsGet rest b

/-- The cells with the list of one bucket replaced, in canonical form. -/
def cellsSet : List (Nat × List Word) → Nat → List Word → List (Nat × List Word)
  | [], b, l => if l = [] then [] else [(b, l)]
  | (k, x) :: rest, b, l =>
    if b < k then (if l = [] then (k, x) :: rest else (b, l) :: (k, x) :: rest)
    else if b = k then (if l = [] then rest else (b, l) :: rest)
    else (k, x) :: cellsSet rest b l

/-- R120 `L(b)`: the recency list of a bucket, rank 0 first. -/
def Memory.list (m : Memory) (b : Nat) : List Word := cellsGet m.cells b

/-- The RAM with the list of one bucket replaced. -/
def Memory.setList (m : Memory) (b : Nat) (l : List Word) : Memory := ⟨cellsSet m.cells b l⟩

/-- R30 `OCC[b]`: the number of valid entries of a bucket. -/
def Memory.occ (m : Memory) (b : Nat) : Nat := (m.list b).length

/-- R31 `ENT[b][r]`, which holds a value only for r < OCC[b]. -/
def Memory.ent (m : Memory) (b r : Nat) : Option Word := (m.list b)[r]?

/-! ### The output sink -/

/-- R66: `OutWrite` is defined only where n ≤ OUT_AVAIL; this is the check a calling rule makes first. -/
def State.fits (s : State) (n : Nat) : Bool := decide (n ≤ s.outAvail.toNat)

/-- R66 `OutWrite(bytes)`. -/
def State.outWrite (s : State) (bytes : List Byte) : State :=
  { s with
    out := s.out ++ bytes
    outPos := satAdd s.outPos bytes.length
    outAvail := s.outAvail - BitVec.ofNat 64 bytes.length }

/-! ### The input -/

/-- The bytes of IN as the decoder reads them: those the host presented, or, after the host changed IN while the DEC context
was active, bytes of which the spec says nothing (R296; assumption log 3). -/
def State.inputView (s : State) : List Byte :=
  if s.inChanged then Config.unstableInput s.tick else s.input

/-- R67: what remains of IN from the tentative position on, and the next bit of its first byte. -/
structure Cursor where
  rest : List Byte
  bit  : Nat
deriving DecidableEq, Repr

/-- R67: the cursor at R.IN_POS, on a byte boundary. -/
def State.cursor (s : State) : Cursor := ⟨s.inputView.drop s.inPos.toNat, 0⟩

/-- R64, R67: one bit, the most significant of the byte first; none past the end of IN. -/
def readBit : Cursor → Option (Bool × Cursor)
  | ⟨[], _⟩ => none
  | ⟨b :: bs, k⟩ => some (b.getLsbD (7 - k), if k = 7 then ⟨bs, 0⟩ else ⟨b :: bs, k + 1⟩)

/-- `BitRead(n)` (R10, R67), `acc` being the value of the bits already read: most significant first. -/
def readBitsFrom : Nat → Nat → Cursor → Option (Nat × Cursor)
  | acc, 0, c => some (acc, c)
  | acc, n + 1, c =>
    match readBit c with
    | none => none
    | some (b, c1) => readBitsFrom (2 * acc + b.toNat) n c1

/-- R10, R67 `BitRead(n)`. -/
def readBits (n : Nat) (c : Cursor) : Option (Nat × Cursor) := readBitsFrom 0 n c

/-- R212 `align_to_byte()`: the padding bits of the byte are skipped without being examined (R65). -/
def align (c : Cursor) : Cursor := if c.bit = 0 then c else ⟨c.rest.tail, 0⟩

/-- The next n bytes and what follows them; none if fewer than n remain. -/
def takeBytes : Nat → List Byte → Option (List Byte × List Byte)
  | 0, bs => some ([], bs)
  | _ + 1, [] => none
  | n + 1, b :: bs =>
    match takeBytes n bs with
    | none => none
    | some (front, back) => some (b :: front, back)

/-- R67 `InRead(n)`, on a byte boundary. -/
def readBytes (n : Nat) (c : Cursor) : Option (List Byte × Cursor) :=
  match takeBytes n c.rest with
  | none => none
  | some (front, back) => some (front, ⟨back, 0⟩)

/-- n reads of one kind, in order; none as soon as one of them fails. -/
def readMany {α : Type} (read : Cursor → Option (α × Cursor)) : Nat → Cursor → Option (List α × Cursor)
  | 0, c => some ([], c)
  | n + 1, c =>
    match read c with
    | none => none
    | some (x, c1) =>
      match readMany read n c1 with
      | none => none
      | some (xs, c2) => some (x :: xs, c2)

/-! ### The host's other actions -/

/-- R22, R23, R296: a DEC context is active. -/
def State.decActive (s : State) : Bool := s.init && decide (s.mode = .dec)

/-- R37, R294, R296: the host presents IN. A change of IN while a DEC context is active is marked. -/
def State.presentInput (s : State) (bytes : List Byte) : State :=
  { s with input := bytes, inChanged := s.inChanged || (s.decActive && decide (bytes ≠ s.input)) }

/-- R290, R292: hardware reset. It touches neither the build nor the host's IN and OUT; what the host has yet to do and
the model's count stay. -/
def State.hardReset (s : State) : State :=
  { State.resetOf s.build with port := s.port, tick := s.tick, input := s.input, out := s.out }

end Sys2Proof.Machine
end

