-- ==== Sys2Proof/Machine/Operands.lean ====
section
/-! DEFINITION. Operand assembly (30_encoding.md R83) and the data a context's configuration gives: WB, HB and the tail's
bytes. -/

namespace Sys2Proof.Machine

/-- R23 `WB`: WORD_BYTES, 4 or 8. -/
def wordBytes : WordSel → Nat
  | .w4 => 4
  | .w8 => 8

/-- R110 `W`: the width of a word in bits. -/
def wordBits (w : WordSel) : Nat := 8 * wordBytes w

/-- R83: the word operand DATA[8·WB-1:0]. With WB = 4, DATA[63:32] is ignored. -/
def wordOperand (w : WordSel) (data : BitVec 64) : Word :=
  match w with
  | .w4 => (data.extractLsb' 0 32).setWidth 64
  | .w8 => data

/-- R83: RANK_DEC's window DATA[10:0], DATA[10] being the first bit. -/
def windowOperand (data : BitVec 64) : BitVec 11 := data.extractLsb' 0 11

/-- R83, R176: ENC_TAIL's N bytes, byte i at DATA[8i+7:8i]; the bits above 8N are ignored. -/
def tailOperand (n : BitVec 3) (data : BitVec 64) : List Byte := leBytes n.toNat data.toNat

/-- R83 BUCKET: legal only below 2^HB. -/
def bucketOk (s : State) (b : BitVec 16) : Bool := decide (b.toNat < 2 ^ s.hbits.toNat)

/-- R83 RANK of DICT_READ: legal only below DEPTH. -/
def rankOk (s : State) (r : BitVec 8) : Bool := decide (r.toNat < s.build.depth.toNat)

/-- R62: the bytes of a word of the context. -/
def wordLe (w : WordSel) (x : Word) : List Byte := leBytes (wordBytes w) x.toNat

end Sys2Proof.Machine
end

