-- ==== Sys2Proof/Machine/Hash.lean ====
section
/-! DEFINITION. The hash engine (40_hash.md): the hash function R110 and the command HASH (R112). -/

namespace Sys2Proof.Machine

/-- R110 `MULT`. -/
def multiplier (b : Build) (w : WordSel) : Nat :=
  match w with
  | .w4 => b.mult32.toNat
  | .w8 => b.mult64.toNat

/-- R110 `hash(w) = ((w · MULT) mod 2^W) >> (W - HB)`: a bucket below 2^HB. It reads and writes no state (R111). -/
def hashOf (b : Build) (w : WordSel) (hb : Nat) (x : Nat) : Nat :=
  (x * multiplier b w % 2 ^ wordBits w) / 2 ^ (wordBits w - hb)

/-- R110 with the context's WB and HB. -/
def State.hash (s : State) (x : Word) : Nat := hashOf s.build s.wsel s.hbits.toNat x.toNat

/-- HASH (R112). -/
def execHash (data : BitVec 64) (s : State) : Result :=
  match firstError [(!s.init, .wrongState)] with
  | some e => .next (s.raise e)
  | none => .next (s.respond .ok true (BitVec.ofNat 64 (s.hash (wordOperand s.wsel data))))

end Sys2Proof.Machine
end

