-- ==== Sys2Proof/Machine/Dictionary.lean ====
section
/-! DEFINITION. The dictionary, a move-to-front list per bucket (41_dictionary.md): lookup, promotion, insertion, prediction,
the decoder's replay, and the command DICT_READ (R128). -/

namespace Sys2Proof.Machine

/-- R121 `find(b, w)` on the list of the bucket: the rank of the word, if it is there. -/
def findRank (l : List Word) (w : Word) : Option Nat := l.findIdx? (fun x => decide (x = w))

/-- R122 `promote(b, r)` on the list of the bucket: the entry at rank r moves to the front, the ranks 0..r-1 move back by
one, and nothing is evicted. -/
def promoteList (l : List Word) (r : Nat) : List Word :=
  match l[r]? with
  | some w => w :: l.eraseIdx r
  | none => l

/-- R123 `insert(b, w)` on the list of the bucket: w comes to rank 0 and at most DEPTH - 1 older entries stay. -/
def insertList (depth : Nat) (l : List Word) (w : Word) : List Word := w :: l.take (depth - 1)

/-- R122 on the RAM. -/
def Memory.promote (m : Memory) (b r : Nat) : Memory := m.setList b (promoteList (m.list b) r)

/-- R123 on the RAM. -/
def Memory.insert (m : Memory) (depth b : Nat) (w : Word) : Memory := m.setList b (insertList depth (m.list b) w)

/-- R124: what `predict` returns. -/
inductive Prediction where
  | hit (b r : Nat)
  | miss (b : Nat)
deriving DecidableEq, Repr

/-- R124 `predict(w)`: it writes only the dictionary and LASTB. -/
def State.predict (s : State) (w : Word) : State × Prediction :=
  let b := s.hash w
  match findRank (s.dict.list b) w with
  | some r => ({ s with dict := s.dict.promote b r, lastb := BitVec.ofNat 16 b }, .hit b r)
  | none => ({ s with dict := s.dict.insert s.build.depth.toNat b w, lastb := BitVec.ofNat 16 b }, .miss b)

/-- DICT_READ (R128). With VALID = 0 the RESULT is the occupancy of the bucket. -/
def execDictRead (bucket : BitVec 16) (rank : BitVec 8) (s : State) : Result :=
  match firstError [(!s.init, .wrongState), (!bucketOk s bucket || !rankOk s rank, .illegalCommand)] with
  | some e => .next (s.raise e)
  | none =>
    match s.dict.ent bucket.toNat rank.toNat with
    | some w => .next (s.respond .ok true w)
    | none => .next (s.respond .ok false (BitVec.ofNat 64 (s.dict.occ bucket.toNat)))

end Sys2Proof.Machine
end

