-- ==== Sys2Proof/Decode.lean ====
section
/-! DEFINITION. The decoder and the encoder of command words (30_encoding.md R80 to R86). -/

namespace Sys2Proof

/-- The names under which the decoder rejects a command word. -/
inductive DecodeError where
  /-- R86 (a): OPCODE is none of the 14 values of R84. -/
  | unknownOpcode
  /-- R86 (b): OPCODE is in the table and a reserved ARG bit is set. -/
  | reservedArgBit
deriving DecidableEq, Repr

/-- R84, the column `match`. -/
def Mnemonic.pattern : Mnemonic → BitVec 32
  | .nop => 0x00000000
  | .ctxInit => 0x01000000
  | .outGrant => 0x02000000
  | .readReg => 0x03000000
  | .hash => 0x10000000
  | .dictRead => 0x20000000
  | .rankEnc => 0x30000000
  | .rankDec => 0x31000000
  | .encWord => 0x40000000
  | .encFlush => 0x41000000
  | .encFinish => 0x42000000
  | .encTail => 0x43000000
  | .decBlock => 0x50000000
  | .decTail => 0x51000000

/-- R84, the column `mask`. -/
def Mnemonic.mask : Mnemonic → BitVec 32
  | .nop => 0xFFFFFFFF
  | .ctxInit => 0xFFFFFCE0
  | .outGrant => 0xFFFFFFFF
  | .readReg => 0xFFFFFF00
  | .hash => 0xFFFFFFFF
  | .dictRead => 0xFF000000
  | .rankEnc => 0xFFFFFF00
  | .rankDec => 0xFFFFFFFF
  | .encWord => 0xFFFFFFFF
  | .encFlush => 0xFFFFFFFF
  | .encFinish => 0xFFFFFFFF
  | .encTail => 0xFFFFFFF8
  | .decBlock => 0xFFFFFFFF
  | .decTail => 0xFFFFFFFF

/-- Every row of the opcode map, in its order (R84). -/
def Mnemonic.all : List Mnemonic :=
  [.nop, .ctxInit, .outGrant, .readReg, .hash, .dictRead, .rankEnc, .rankDec,
   .encWord, .encFlush, .encFinish, .encTail, .decBlock, .decTail]

/-- R84: "A command word CMD selects the row whose (CMD & mask) = match." -/
def Mnemonic.selects (m : Mnemonic) (cmd : BitVec 32) : Bool := decide (cmd &&& m.mask = m.pattern)

/-- The row that a command word selects, if one does. -/
def selectRow (cmd : BitVec 32) : Option Mnemonic := Mnemonic.all.find? (fun m => m.selects cmd)

/-- R80 OPCODE. -/
def opcodeOf (cmd : BitVec 32) : BitVec 8 := cmd.extractLsb' 24 8

/-- R82 MODE, ARG[9]. -/
def argMode (cmd : BitVec 32) : Mode := if cmd.getLsbD 9 then .dec else .enc

/-- R82 WSEL, ARG[8]. -/
def argWsel (cmd : BitVec 32) : WordSel := if cmd.getLsbD 8 then .w8 else .w4

/-- R82 HBITS, ARG[4:0]. -/
def argHbits (cmd : BitVec 32) : BitVec 5 := cmd.extractLsb' 0 5

/-- R82 REGNO, and the RANK of formats D and K: ARG[7:0]. -/
def argByte (cmd : BitVec 32) : BitVec 8 := cmd.extractLsb' 0 8

/-- R82 BUCKET, ARG[23:8]. -/
def argBucket (cmd : BitVec 32) : BitVec 16 := cmd.extractLsb' 8 16

/-- R82 N, ARG[2:0]. -/
def argN (cmd : BitVec 32) : BitVec 3 := cmd.extractLsb' 0 3

/-- R82, R83: the operands of a command whose row is known. -/
def operandsOf (m : Mnemonic) (c : Command) : Instr :=
  match m with
  | .nop => .nop
  | .ctxInit => .ctxInit (argMode c.cmd) (argWsel c.cmd) (argHbits c.cmd) c.data
  | .outGrant => .outGrant c.data
  | .readReg => .readReg (argByte c.cmd)
  | .hash => .hash c.data
  | .dictRead => .dictRead (argBucket c.cmd) (argByte c.cmd)
  | .rankEnc => .rankEnc (argByte c.cmd)
  | .rankDec => .rankDec c.data
  | .encWord => .encWord c.data
  | .encFlush => .encFlush
  | .encFinish => .encFinish
  | .encTail => .encTail (argN c.cmd) c.data
  | .decBlock => .decBlock
  | .decTail => .decTail

/-- R86 (a) against (b): the name of the rejection of a word that matches no row. -/
def rejection (cmd : BitVec 32) : DecodeError :=
  if Mnemonic.all.any (fun m => decide (opcodeOf m.pattern = opcodeOf cmd)) then .reservedArgBit else .unknownOpcode

/-- The decoder. Total: a word that matches no row of R84 is rejected by name (R86 (a), (b)). -/
def decode (c : Command) : Except DecodeError Instr :=
  match selectRow c.cmd with
  | some m => .ok (operandsOf m c)
  | none => .error (rejection c.cmd)

/-- The bit of MODE (R23). -/
def Mode.bit : Mode → BitVec 1
  | .enc => 0
  | .dec => 1

/-- The bit of WSEL (R23). -/
def WordSel.bit : WordSel → BitVec 1
  | .w4 => 0
  | .w8 => 1

/-- The command word of a command: R82's formats, the most significant field first, reserved bits 0. -/
def encodeCmd : Instr → BitVec 32
  | .nop => 0x00#8 ++ 0#24
  | .ctxInit mode wsel hbits _ => 0x01#8 ++ 0#14 ++ mode.bit ++ wsel.bit ++ 0#3 ++ hbits
  | .outGrant _ => 0x02#8 ++ 0#24
  | .readReg regno => 0x03#8 ++ 0#16 ++ regno
  | .hash _ => 0x10#8 ++ 0#24
  | .dictRead bucket rank => 0x20#8 ++ bucket ++ rank
  | .rankEnc rank => 0x30#8 ++ 0#16 ++ rank
  | .rankDec _ => 0x31#8 ++ 0#24
  | .encWord _ => 0x40#8 ++ 0#24
  | .encFlush => 0x41#8 ++ 0#24
  | .encFinish => 0x42#8 ++ 0#24
  | .encTail n _ => 0x43#8 ++ 0#21 ++ n
  | .decBlock => 0x50#8 ++ 0#24
  | .decTail => 0x51#8 ++ 0#24

/-- The data word of a command. A command that ignores DATA is encoded with DATA 0 (R80: all 64 bits ignored). -/
def encodeData : Instr → BitVec 64
  | .nop => 0
  | .ctxInit _ _ _ data => data
  | .outGrant data => data
  | .readReg _ => 0
  | .hash data => data
  | .dictRead _ _ => 0
  | .rankEnc _ => 0
  | .rankDec data => data
  | .encWord data => data
  | .encFlush => 0
  | .encFinish => 0
  | .encTail _ data => data
  | .decBlock => 0
  | .decTail => 0

/-- The encoder. -/
def encode (i : Instr) : Command := ⟨encodeCmd i, encodeData i⟩

/-- A command written as one number, as spec/opcode_table.json numbers bits: CMD in bits 31..0 and DATA, which counts on
from it, in bits 95..32. The bits from `nbits` up are 0. -/
def Command.ofTableWord (nbits w : Nat) : Command :=
  ⟨BitVec.ofNat 32 (w % 2 ^ nbits), BitVec.ofNat 64 ((w % 2 ^ nbits) / 2 ^ 32)⟩

/-- The instruction the decoder reads from a table word. -/
def decodeTableWord (nbits w : Nat) : Option Instr :=
  match decode (Command.ofTableWord nbits w) with
  | .ok i => some i
  | .error _ => none

end Sys2Proof
end

