-- ==== Sys2Proof/Machine/Flags.lean ====
section
/-! DEFINITION. The condition state of the block (10_state.md R41): the codes of its fields, the packed register CTXSTAT (R39)
and the packed constant PARAMS (R40). -/

namespace Sys2Proof.Machine

/-- R260: the STATUS code. -/
def Status.code : Status → BitVec 4
  | .ok => 0
  | .corruptStream => 1
  | .invalidCode => 2
  | .outputOverflow => 3
  | .illegalCommand => 4
  | .wrongState => 5
  | .faulted => 6

/-- R24: the bit of BSTATE. -/
def BlockState.bit : BlockState → BitVec 1
  | .predicting => 0
  | .escaped => 1

/-- R28: the value of FAULT_CODE. -/
def FaultCode.code : FaultCode → BitVec 3
  | .none => 0
  | .corruptStream => 1
  | .invalidCode => 2

/-- R87: the 2-bit code of a signature. -/
def Signature.code : Signature → BitVec 2
  | .miss => 0b00
  | .hit => 0b01
  | .esc => 0b10

/-- R87, R212: the signature of a 2-bit code; 0b11 is reserved. -/
def signatureOf (code : Nat) : Option Signature :=
  match code with
  | 0 => some .miss
  | 1 => some .hit
  | 2 => some .esc
  | _ => none

/-- R39: CTXSTAT, its fields from bit 63 down. -/
def ctxStat (s : State) : BitVec 64 :=
  0#35 ++ s.sigCount ++ s.faultCode.code ++ BitVec.ofBool s.fault ++ BitVec.ofBool s.tailDone ++
    BitVec.ofBool s.finished ++ BitVec.ofBool s.flushPending ++ s.bstate.bit ++ s.hbits ++ s.wsel.bit ++ s.mode.bit ++
    BitVec.ofBool s.init

/-- R40: PARAMS, its fields from bit 63 down. -/
def params (b : Build) : BitVec 64 :=
  0#16 ++ b.escDen ++ b.escNum ++ b.maxHashBits ++ 0#2 ++ b.depth

end Sys2Proof.Machine
end

