-- ==== Sys2Proof/Machine/RankCodec.lean ====
section
/-! DEFINITION. The rank codec (42_rank_codec.md): encoding (R144), bitwise decoding (R145), and the commands RANK_ENC (R146)
and RANK_DEC (R147). -/

namespace Sys2Proof.Machine

/-- `CODE_TABLE[r]` (R35, R140). By R141 (T1) the table has an entry for each of the 256 ranks. -/
def Build.code (b : Build) (r : Nat) : Code := b.codeTable.getD r ⟨0, 0⟩

/-- R90, R144 `encode(r)`: exactly length(r) bits, of value pattern(r), most significant first. -/
def rankBits (b : Build) (r : Nat) : List Bool := bitsMsb (Build.code b r).length.toNat (Build.code b r).pattern.toNat

/-- R145: the rank with `CODE_TABLE[r] = (acc, k)`, unique by T3. -/
def rankWithCode (t : List Code) (acc k : Nat) : Option Nat :=
  t.findIdx? (fun c => decide (c.pattern.toNat = acc) && decide (c.length.toNat = k))

/-- R145, the loop: `fuel` bits may still be read, k have been, and they are `acc`. -/
def decodeRankFrom (t : List Code) : Nat → Nat → Nat → Cursor → Option (Nat × Cursor)
  | 0, _, _, _ => none
  | fuel + 1, acc, k, c =>
    match readBit c with
    | none => none
    | some (b, c1) =>
      match rankWithCode t (2 * acc + b.toNat) (k + 1) with
      | some r => some (r, c1)
      | none => decodeRankFrom t fuel (2 * acc + b.toNat) (k + 1) c1

/-- R145 `decode(src)`: one bit at a time, until an entry matches; none after 11 bits without a match or past the end. -/
def decodeRank (t : List Code) (c : Cursor) : Option (Nat × Cursor) := decodeRankFrom t Config.maxCodeLen 0 0 c

/-- R147: the rank whose code begins the 11-bit window, `v >> (11 - length(r)) = pattern(r)`. -/
def rankOfWindow (t : List Code) (v : BitVec 11) : Option Nat :=
  t.findIdx? (fun c => decide (v.toNat / 2 ^ (Config.maxCodeLen - c.length.toNat) = c.pattern.toNat))

/-- R146: RESULT[19:16] = length, RESULT[10:0] = pattern. -/
def rankEncResult (c : Code) : BitVec 64 := 0#44 ++ c.length ++ 0#5 ++ c.pattern

/-- R147: RESULT[19:16] = length, RESULT[7:0] = rank. -/
def rankDecResult (c : Code) (r : Nat) : BitVec 64 := 0#44 ++ c.length ++ 0#8 ++ BitVec.ofNat 8 r

/-- RANK_ENC (R146). It needs no context. -/
def execRankEnc (rank : BitVec 8) (s : State) : Result :=
  .next (s.respond .ok true (rankEncResult (Build.code s.build rank.toNat)))

/-- RANK_DEC (R147). It needs no context, and its CORRUPT_STREAM is not sticky (R266). -/
def execRankDec (data : BitVec 64) (s : State) : Result :=
  match rankOfWindow s.build.codeTable (windowOperand data) with
  | some r => .next (s.respond .ok true (rankDecResult (Build.code s.build r) r))
  | none => .next (s.raise .corruptStream)

end Sys2Proof.Machine
end

