-- ==== Sys2Proof/Machine/Multiplexer.lean ====
section
/-! DEFINITION. The entity stream multiplexer (44_multiplexer.md): routing to the streams (R190 to R194), the block's bit size
(10_state.md R34), and block serialization (R196, R197). -/

namespace Sys2Proof.Machine

/-- R88, R191: the hit marker, `0` for the bucket of the previous prediction and `1,b` for any other. -/
def hitMarker (hb b prev : Nat) : List Bool :=
  if b = prev then [false] else true :: bitsMsb hb b

/-- R191 `append_hit(b, r, prev)`; `prev` is LASTB as it was before the word's predict. -/
def State.appendHit (s : State) (b r prev : Nat) : State :=
  { s with
    predBuf := s.predBuf ++ hitMarker s.hbits.toNat b prev
    rankBuf := s.rankBuf ++ rankBits s.build r }

/-- R193 `append_miss(b, w)`: the bucket reference (R89) and the literal (R91). -/
def State.appendMiss (s : State) (b : Nat) (w : Word) : State :=
  { s with
    dictBuf := s.dictBuf ++ bitsMsb s.hbits.toNat b
    encBuf := s.encBuf ++ wordLe s.wsel w }

/-- R194 `append_escaped(w)`. -/
def State.appendEscaped (s : State) (w : Word) : State := { s with encBuf := s.encBuf ++ wordLe s.wsel w }

/-- R34 `PRODBITS`: the bits of the current block, its 16-bit header among them, without padding. -/
def State.prodBits (s : State) : Nat :=
  16 + s.sigBuf.length + s.predBuf.length + s.rankBuf.length + s.dictBuf.length + 8 * s.encBuf.length

/-- R196: the block header, SIGCOUNT as 16 bits little-endian (R63). -/
def blockHeader (n : Nat) : List Byte := leBytes 2 n

/-- R197 `serialize_block()`. It reads the buffers and writes nothing. -/
def State.serializeBlock (s : State) : List Byte :=
  blockHeader s.sigCount.toNat ++ pad s.sigBuf ++ pad s.predBuf ++ pad s.rankBuf ++ pad s.dictBuf ++ s.encBuf

end Sys2Proof.Machine
end

