-- ==== Sys2Proof/Machine/BlockManager.lean ====
section
/-! DEFINITION. The signature and block manager (43_block_manager.md): ENC_WORD (R161), the efficiency window (R164 to R166),
flush and the block reset (R170, R172), ENC_FLUSH (R174), ENC_FINISH (R175) and ENC_TAIL (R176). -/

namespace Sys2Proof.Machine

/-- R163 `append_signature(sig)`. -/
def State.appendSignature (s : State) (sig : Signature) : State :=
  { s with
    sigBuf := s.sigBuf ++ bitsMsb 2 sig.code.toNat
    sigCount := satAdd s.sigCount 1
    blkHits := if sig = .hit then satAdd s.blkHits 1 else s.blkHits
    blkMisses := if sig = .miss then satAdd s.blkMisses 1 else s.blkMisses
    blkEscs := if sig = .esc then satAdd s.blkEscs 1 else s.blkEscs
    wordCnt := satAdd s.wordCnt 1 }

/-- R177: what ENC_WORD reports of a word: its signature, its rank (0 but for a HIT) and its bucket (0 for an ESC). -/
structure WordReport where
  sig    : Signature
  rank   : Nat
  bucket : Nat
deriving DecidableEq, Repr

/-- R161, R162, R167: the word goes to the streams, through `predict` once while PREDICTING and past it while ESCAPED. -/
def State.routeWord (s : State) (w : Word) : State × WordReport :=
  match s.bstate with
  | .escaped => (s.appendEscaped w, ⟨.esc, 0, 0⟩)
  | .predicting =>
    match s.predict w with
    | (s1, .hit b r) => (s1.appendHit b r s.lastb.toNat, ⟨.hit, r, b⟩)
    | (s1, .miss b) => (s1.appendMiss b w, ⟨.miss, 0, b⟩)

/-- R161, R164: the window check is due after this signature. -/
def State.windowDue (s : State) : Bool :=
  decide (s.bstate = .predicting) && decide (s.sigCount.toNat % Config.window = 0) &&
    decide (s.sigCount.toNat < Config.blockSigs)

/-- R165, R166: the block's output so far is at least ESC_NUM/ESC_DEN of its input; equality escapes. -/
def State.gainTooSmall (s : State) : Bool :=
  decide (s.build.escDen.toNat * s.prodBits ≥ s.build.escNum.toNat * (8 * wordBytes s.wsel * s.sigCount.toNat))

/-- R166 `window_check()`, where it is due; the answer says whether it set ESCAPED. -/
def State.windowCheck (s : State) : State × Bool :=
  if s.windowDue && s.gainTooSmall then
    ({ s with bstate := .escaped, escEvents := satAdd s.escEvents 1 }, true)
  else (s, false)

/-- R170: the block reset that follows a flush. It touches neither the dictionary nor LASTB, ESC_EVENTS, WORDCNT (R171). -/
def State.blockReset (s : State) : State :=
  { s with
    sigBuf := []
    predBuf := []
    rankBuf := []
    dictBuf := []
    encBuf := []
    sigCount := 0
    bstate := .predicting
    blkHits := 0
    blkMisses := 0
    blkEscs := 0
    blkCnt := satAdd s.blkCnt 1
    flushPending := false }

/-- R170, R172 `flush_or_pend()`; true is FLUSHED. -/
def State.flushOrPend (s : State) : State × Bool :=
  if s.fits s.serializeBlock.length then ((s.outWrite s.serializeBlock).blockReset, true)
  else ({ s with flushPending := true }, false)

/-- R177 `result_word`, its fields from bit 63 down, for an accepted word. -/
def resultWord (o : WordReport) (escNow flushed : Bool) : BitVec 64 :=
  0#32 ++ BitVec.ofNat 16 o.bucket ++ BitVec.ofNat 8 o.rank ++ 0#3 ++ BitVec.ofBool flushed ++ BitVec.ofBool escNow ++
    o.sig.code ++ 1#1

/-- R161, R168: the end of ENC_WORD: a block that has reached 4096 signatures is flushed or pended, and the command
responds. -/
def State.closeWord (s : State) (o : WordReport) (escNow : Bool) : State :=
  if s.sigCount.toNat = Config.blockSigs then
    if s.flushOrPend.2 then s.flushOrPend.1.respond .ok true (resultWord o escNow true)
    else s.flushOrPend.1.respond .outputOverflow true (resultWord o escNow false)
  else s.respond .ok true (resultWord o escNow false)

/-- R161, the word being accepted: routing, signature, window check, flush and response, in this order. -/
def State.acceptWord (s : State) (w : Word) : State :=
  let routed := s.routeWord w
  let checked := (routed.1.appendSignature routed.2.sig).windowCheck
  checked.1.closeWord routed.2 checked.2

/-- ENC_WORD (R161). -/
def execEncWord (data : BitVec 64) (s : State) : Result :=
  match firstError [(!s.init, .wrongState), (s.fault, .faulted),
      (decide (s.mode ≠ .enc) || s.finished, .wrongState), (s.flushPending, .outputOverflow)] with
  | some e => .next (s.raise e)
  | none => .next (s.acceptWord (wordOperand s.wsel data))

/-- ENC_FLUSH (R174). On an overflow RESULT is the size of the pending block. -/
def execEncFlush (s : State) : Result :=
  match firstError [(!s.init, .wrongState), (s.fault, .faulted), (decide (s.mode ≠ .enc), .wrongState)] with
  | some e => .next (s.raise e)
  | none =>
    if s.flushPending then
      if s.flushOrPend.2 then .next (s.flushOrPend.1.respond .ok true (BitVec.ofNat 64 s.serializeBlock.length))
      else .next (s.flushOrPend.1.respond .outputOverflow false (BitVec.ofNat 64 s.serializeBlock.length))
    else .next (s.respond .ok false 0)

/-- R175: the host declares the end of the input. -/
def State.declareEnd (s : State) : State := { s with finished := true }

/-- ENC_FINISH (R175). RESULT[0] is accepted, RESULT[1] is that a partial block existed. -/
def execEncFinish (s : State) : Result :=
  match firstError [(!s.init, .wrongState), (s.fault, .faulted),
      (decide (s.mode ≠ .enc) || s.finished, .wrongState), (s.flushPending, .outputOverflow)] with
  | some e => .next (s.raise e)
  | none =>
    if s.sigCount = 0 then .next (s.declareEnd.respond .ok true 1)
    else if s.declareEnd.flushOrPend.2 then .next (s.declareEnd.flushOrPend.1.respond .ok true 3)
    else .next (s.declareEnd.flushOrPend.1.respond .outputOverflow true 3)

/-- R176: the tail bytes go to OUT behind the last block. -/
def State.writeTail (s : State) (bytes : List Byte) : State := { s.outWrite bytes with tailDone := true }

/-- ENC_TAIL (R176). -/
def execEncTail (n : BitVec 3) (data : BitVec 64) (s : State) : Result :=
  match firstError [(decide (n = 0), .illegalCommand), (!s.init, .wrongState),
      (decide (wordBytes s.wsel ≤ n.toNat), .illegalCommand), (s.fault, .faulted),
      (decide (s.mode ≠ .enc) || !s.finished || s.tailDone, .wrongState), (s.flushPending, .outputOverflow),
      (!s.fits n.toNat, .outputOverflow)] with
  | some e => .next (s.raise e)
  | none =>
    .next ((s.writeTail (tailOperand n data)).respond .ok true (BitVec.ofNat 64 n.toNat))

end Sys2Proof.Machine
end

