-- ==== Sys2Proof/Machine/Control.lean ====
section
/-! DEFINITION. The control commands (46_control.md): NOP (R243), CTX_INIT (R240, R241), OUT_GRANT (R242) and READ_REG (R244,
with the register map of 10_state.md R38). -/

namespace Sys2Proof.Machine

/-- NOP (R243). -/
def execNop (s : State) : Result := .next (s.respond .ok false 0)

/-- R241: the whole words of an expected size, S div WB, in DEC mode; 0 in ENC mode (R240). -/
def initialRemain (mode : Mode) (wsel : WordSel) (data : BitVec 64) : BitVec 64 :=
  match mode with
  | .enc => 0
  | .dec => BitVec.ofNat 64 (data.toNat / wordBytes wsel)

/-- R241: the trailing bytes of an expected size, S mod WB, in DEC mode; 0 in ENC mode (R240). -/
def initialTail (mode : Mode) (wsel : WordSel) (data : BitVec 64) : BitVec 3 :=
  match mode with
  | .enc => 0
  | .dec => BitVec.ofNat 3 (data.toNat % wordBytes wsel)

/-- R240: a new context. Build, IN, OUT and the response are not touched. -/
def State.newContext (s : State) (mode : Mode) (wsel : WordSel) (hbits : BitVec 5) (data : BitVec 64) : State :=
  { s with
    inChanged := false
    init := true
    mode := mode
    wsel := wsel
    hbits := hbits
    dict := Memory.empty
    lastb := 0
    bstate := .predicting
    sigCount := 0
    flushPending := false
    finished := false
    tailDone := false
    fault := false
    faultCode := .none
    outPos := 0
    outAvail := 0
    inPos := 0
    blkCnt := 0
    wordCnt := 0
    escEvents := 0
    blkHits := 0
    blkMisses := 0
    blkEscs := 0
    sigBuf := []
    predBuf := []
    rankBuf := []
    dictBuf := []
    encBuf := []
    decRemain := initialRemain mode wsel data
    tailRem := initialTail mode wsel data }

/-- CTX_INIT (R240). -/
def execCtxInit (mode : Mode) (wsel : WordSel) (hbits : BitVec 5) (data : BitVec 64) (s : State) : Result :=
  match firstError [(decide (hbits = 0) || decide (s.build.maxHashBits.toNat < hbits.toNat), .illegalCommand)] with
  | some e => .next (s.raise e)
  | none => .next ((s.newContext mode wsel hbits data).respond .ok false 0)

/-- R242: `OUT_AVAIL <- min(OUT_AVAIL + n, 2^64 - 1)`. -/
def State.grant (s : State) (n : BitVec 64) : State := { s with outAvail := satAdd s.outAvail n.toNat }

/-- OUT_GRANT (R242): the capacity grows by DATA, saturating, and is the RESULT. -/
def execOutGrant (data : BitVec 64) (s : State) : Result :=
  match firstError [(!s.init, .wrongState)] with
  | some e => .next (s.raise e)
  | none => .next ((s.grant data).respond .ok true (s.grant data).outAvail)

/-- R38, number 0x0B: PRODBITS in ENC mode, 0 in DEC mode and before CTX_INIT. -/
def prodBitsReg (s : State) : BitVec 64 :=
  if s.init && decide (s.mode = .enc) then BitVec.ofNat 64 s.prodBits else 0

/-- R38: the register map; a number not in it has no value. -/
def regValue (s : State) (regno : BitVec 8) : Option (BitVec 64) :=
  match regno.toNat with
  | 0x00 => some (ctxStat s)
  | 0x01 => some s.outPos
  | 0x02 => some s.outAvail
  | 0x03 => some s.inPos
  | 0x04 => some s.decRemain
  | 0x05 => some (s.tailRem.setWidth 64)
  | 0x06 => some (s.lastb.setWidth 64)
  | 0x07 => some s.blkCnt
  | 0x08 => some (s.blkHits.setWidth 64)
  | 0x09 => some (s.blkMisses.setWidth 64)
  | 0x0A => some (s.blkEscs.setWidth 64)
  | 0x0B => some (prodBitsReg s)
  | 0x0C => some s.escEvents
  | 0x0D => some s.wordCnt
  | 0x0E => some (params s.build)
  | _ => none

/-- READ_REG (R244): it has no side effect and is accepted in every state. -/
def execReadReg (regno : BitVec 8) (s : State) : Result :=
  match regValue s regno with
  | some v => .next (s.respond .ok true v)
  | none => .next (s.raise .illegalCommand)

end Sys2Proof.Machine
end

