-- ==== Sys2Proof/Machine/Decoder.lean ====
section
/-! DEFINITION. The decode path (45_decoder.md): parsing a block (R211 to R213), reconstructing its words (R214 to R216),
committing it (R218), and the commands DEC_BLOCK (R210) and DEC_TAIL (R222). -/

namespace Sys2Proof.Machine

/-- What `parse_block` returns (R211 to R213). -/
structure ParsedBlock where
  /-- The signatures, one for each word of the block. -/
  sigs : List Signature
  /-- The hit markers: none is SAME, `some b` names the bucket (R88, R212). -/
  markers : List (Option Nat)
  /-- The ranks of the hits. -/
  ranks : List Nat
  /-- The bucket references of the misses. -/
  drefs : List Nat
  /-- The literals of the misses and the escaped words. -/
  lits : List Word
  /-- What follows the block in IN. -/
  rest : List Byte
deriving DecidableEq, Repr

/-- R211: the word count a block's header must hold, min(4096, DEC_REMAIN). -/
def State.expectedCount (s : State) : Nat := min Config.blockSigs s.decRemain.toNat

/-- R211: the header, and the cursor at the byte after it. -/
def parseHeader (expected : Nat) (c : Cursor) : Option Cursor :=
  match readBytes 2 c with
  | none => none
  | some (hdr, c1) => if leValue hdr = expected then some c1 else none

/-- R212: one signature; the reserved code 0b11 is CORRUPT_STREAM. -/
def readSignature (c : Cursor) : Option (Signature × Cursor) :=
  match readBits 2 c with
  | none => none
  | some (v, c1) =>
    match signatureOf v with
    | none => none
    | some sig => some (sig, c1)

/-- R88, R212: one hit marker. -/
def readMarker (hb : Nat) (c : Cursor) : Option (Option Nat × Cursor) :=
  match readBit c with
  | none => none
  | some (false, c1) => some (none, c1)
  | some (true, c1) =>
    match readBits hb c1 with
    | none => none
    | some (b, c2) => some (some b, c2)

/-- R213: one literal, the little-endian value of WB bytes. -/
def readLiteral (wb : Nat) (c : Cursor) : Option (Word × Cursor) :=
  match readBytes wb c with
  | none => none
  | some (bytes, c1) => some (BitVec.ofNat 64 (leValue bytes), c1)

/-- R211 to R213 `parse_block()`: every stream starts at a byte boundary, and any failure is CORRUPT_STREAM. -/
def parseBlock (t : List Code) (wb hb expected : Nat) (c : Cursor) : Option ParsedBlock :=
  match parseHeader expected c with
  | none => none
  | some c0 =>
  match readMany readSignature expected c0 with
  | none => none
  | some (sigs, c1) =>
  match readMany (readMarker hb) (sigs.count .hit) (align c1) with
  | none => none
  | some (markers, c2) =>
  match readMany (decodeRank t) (sigs.count .hit) (align c2) with
  | none => none
  | some (ranks, c3) =>
  match readMany (readBits hb) (sigs.count .miss) (align c3) with
  | none => none
  | some (drefs, c4) =>
  match readMany (readLiteral wb) (sigs.count .miss + sigs.count .esc) (align c4) with
  | none => none
  | some (lits, c5) => some ⟨sigs, markers, ranks, drefs, lits, c5.rest⟩

/-- The tentative copies of OCC, ENT and LASTB (R210, R214), and the bytes of the words reconstructed. -/
structure Replay where
  dict  : Memory
  lastb : BitVec 16
  bytes : List Byte
deriving DecidableEq, Repr

/-- R214 to R216 `emit le(w)`: the word's bytes stand before those of the words after it. -/
def Replay.emit (bytes : List Byte) (p : Replay) : Replay := { p with bytes := bytes ++ p.bytes }

/-- R125 `replay_hit(b, r)`: none where r ≥ OCC[b]. -/
def Memory.replayHit (m : Memory) (b r : Nat) : Option (Word × Memory) :=
  match m.ent b r with
  | some w => some (w, m.promote b r)
  | none => none

/-- R214 to R216: the words in signature order. None is INVALID_CODE: a rank outside its bucket's occupancy (R214), or a
bucket reference that is not the literal's hash (R215). The lists that `parseBlock` gives never run out before the
signatures do. -/
def reconstruct (b : Build) (w : WordSel) (hb : Nat) :
    List Signature → List (Option Nat) → List Nat → List Nat → List Word → Memory → BitVec 16 → Option Replay
  | [], _, _, _, _, dict, lastb => some { dict := dict, lastb := lastb, bytes := [] }
  | .hit :: sigs, marker :: markers, r :: ranks, drefs, lits, dict, lastb =>
    let bucket := marker.getD lastb.toNat
    match dict.replayHit bucket r with
    | none => none
    | some (x, dict1) =>
      (reconstruct b w hb sigs markers ranks drefs lits dict1 (BitVec.ofNat 16 bucket)).map (Replay.emit (wordLe w x))
  | .miss :: sigs, markers, ranks, bucket :: drefs, x :: lits, dict, _ =>
    if bucket = hashOf b w hb x.toNat then
      (reconstruct b w hb sigs markers ranks drefs lits (dict.insert b.depth.toNat bucket x)
        (BitVec.ofNat 16 bucket)).map (Replay.emit (wordLe w x))
    else none
  | .esc :: sigs, markers, ranks, drefs, x :: lits, dict, lastb =>
    (reconstruct b w hb sigs markers ranks drefs lits dict lastb).map (Replay.emit (wordLe w x))
  | _, _, _, _, _, _, _ => none

/-- R210: `parse_block()` at R.IN_POS with the context's parameters. -/
def State.parse (s : State) : Option ParsedBlock :=
  parseBlock s.build.codeTable (wordBytes s.wsel) s.hbits.toNat s.expectedCount s.cursor

/-- R210: `reconstruct(P)` from the context's dictionary and LASTB. -/
def State.rebuild (s : State) (p : ParsedBlock) : Option Replay :=
  reconstruct s.build s.wsel s.hbits.toNat p.sigs p.markers p.ranks p.drefs p.lits s.dict s.lastb

/-- R218 `commit(P, X)`: IN_POS becomes the byte after the block's last one. -/
def State.commit (s : State) (p : ParsedBlock) (x : Replay) : State :=
  { s.outWrite x.bytes with
    dict := x.dict
    lastb := x.lastb
    inPos := satAdd s.inPos (s.cursor.rest.length - p.rest.length)
    decRemain := s.decRemain - BitVec.ofNat 64 p.sigs.length
    blkCnt := satAdd s.blkCnt 1
    wordCnt := satAdd s.wordCnt p.sigs.length
    blkHits := BitVec.ofNat 13 (p.sigs.count .hit)
    blkMisses := BitVec.ofNat 13 (p.sigs.count .miss)
    blkEscs := BitVec.ofNat 13 (p.sigs.count .esc) }

/-- DEC_BLOCK (R210). The whole block is parsed before it is reconstructed, and reconstructed before the capacity is
checked (R217). -/
def execDecBlock (s : State) : Result :=
  match firstError [(!s.init, .wrongState), (s.fault, .faulted),
      (decide (s.mode ≠ .dec) || decide (s.decRemain = 0), .wrongState)] with
  | some e => .next (s.raise e)
  | none =>
    match s.parse with
    | none => .next (s.decodeFault .corruptStream .corruptStream)
    | some p =>
      match s.rebuild p with
      | none => .next (s.decodeFault .invalidCode .invalidCode)
      | some x =>
        if s.fits (p.sigs.length * wordBytes s.wsel) then
          .next ((s.commit p x).respond .ok true (BitVec.ofNat 64 p.sigs.length))
        else .next (s.raise .outputOverflow)

/-- R222: the tail bytes go from IN to OUT. -/
def State.copyTail (s : State) (bytes : List Byte) : State :=
  { s.outWrite bytes with
    inPos := satAdd s.inPos s.tailRem.toNat
    tailRem := 0
    tailDone := true }

/-- DEC_TAIL (R222). -/
def execDecTail (s : State) : Result :=
  match firstError [(!s.init, .wrongState), (s.fault, .faulted),
      (decide (s.mode ≠ .dec) || decide (s.decRemain ≠ 0) || decide (s.tailRem = 0) || s.tailDone, .wrongState)] with
  | some e => .next (s.raise e)
  | none =>
    match takeBytes s.tailRem.toNat s.cursor.rest with
    | none => .next (s.decodeFault .corruptStream .corruptStream)
    | some (bytes, _) =>
      if s.fits s.tailRem.toNat then
        .next ((s.copyTail bytes).respond .ok true (s.tailRem.setWidth 64))
      else .next (s.raise .outputOverflow)

end Sys2Proof.Machine
end

