-- ==== Sys2Proof/Machine/Dispatch.lean ====
section
/-! DEFINITION. exec: one arm per command, each a direct call of its meaning. -/

namespace Sys2Proof.Machine

def exec (i : Instr) (s : State) : Host.Outcome State Fault Refusal :=
  match i with
  | .nop => Sys2Proof.Machine.execNop s
  | .ctxInit mode wsel hbits data => Sys2Proof.Machine.execCtxInit mode wsel hbits data s
  | .outGrant data => Sys2Proof.Machine.execOutGrant data s
  | .readReg regno => Sys2Proof.Machine.execReadReg regno s
  | .hash data => Sys2Proof.Machine.execHash data s
  | .dictRead bucket rank => Sys2Proof.Machine.execDictRead bucket rank s
  | .rankEnc rank => Sys2Proof.Machine.execRankEnc rank s
  | .rankDec data => Sys2Proof.Machine.execRankDec data s
  | .encWord data => Sys2Proof.Machine.execEncWord data s
  | .encFlush => Sys2Proof.Machine.execEncFlush s
  | .encFinish => Sys2Proof.Machine.execEncFinish s
  | .encTail n data => Sys2Proof.Machine.execEncTail n data s
  | .decBlock => Sys2Proof.Machine.execDecBlock s
  | .decTail => Sys2Proof.Machine.execDecTail s

end Sys2Proof.Machine
end

