-- ==== Sys2Proof/Machine/Command.lean ====
section
/-! DEFINITION. One host action on the block: a command word decoded and executed, or answered with ILLEGAL_COMMAND
(30_encoding.md R86), IN presented, hardware reset. Machine/Step.lean calls these. -/

namespace Sys2Proof.Machine

/-- R84, R86: the command selects its row and runs, or matches no row and completes with ILLEGAL_COMMAND. -/
def runCommand (c : Command) (s : State) : Result :=
  match decode c with
  | .ok i => exec i s
  | .error _ => .next (s.raise .illegalCommand)

/-- R20: one action of the host. -/
def runAction (a : HostAction) (s : State) : Result :=
  match a with
  | .issue c => runCommand c s
  | .present bytes => .next (s.presentInput bytes)
  | .hardReset => .next s.hardReset

/-- The state in which the host's next action is taken: it has left the port, and the model's count has advanced. -/
def State.taken (s : State) (rest : List HostAction) : State := { s with port := rest, tick := s.tick + 1 }

/-- The command that a table word stands for, issued next: before everything the host has yet to do. -/
def State.withCommand (s : State) (c : Command) : State := { s with port := .issue c :: s.port }

end Sys2Proof.Machine
end

