-- ==== Sys2Proof/Machine/Step.lean ====
section
/-! DEFINITION. One step of the machine: the host's next action, or waiting for it (10_state.md R20, R21; 70_reset_and_hazards.md
R291). -/

namespace Sys2Proof.Machine

/-- One step. With no action outstanding the block waits and holds its state (R280, R291). -/
def step (s : State) : Host.Outcome State Fault Refusal :=
  match s.port with
  | [] => .next s
  | a :: rest => runAction a (s.taken rest)

/-- The state with the instruction of a table word issued next on the command port, so that the next step runs it. -/
def State.withFetchWord (s : State) (nbits w : Nat) : State := s.withCommand (Command.ofTableWord nbits w)

end Sys2Proof.Machine
end

