-- ==== Sys2Proof/Machine/HostSurface.lean ====
section
/-! DEFINITION. The host's side in software terms: assembler lines and pseudo-instructions (30_encoding.md R92, R93) and the
library surface compress and decompress as host command sequences (00_scope.md R13). The block does not read any of
this: it is what the round-trip law (45_decoder.md R221) is stated with. -/

namespace Sys2Proof.Machine

/-- R13, R93: the first n whole words of a byte string, little-endian, and what follows them. -/
def splitWords (wb : Nat) : Nat → List Byte → List Nat × List Byte
  | 0, bytes => ([], bytes)
  | n + 1, bytes => (leValue (bytes.take wb) :: (splitWords wb n (bytes.drop wb)).1, (splitWords wb n (bytes.drop wb)).2)

/-- R93 `enc.bytes`: one ENC_WORD for each whole word, ENC_FINISH, and ENC_TAIL if bytes are left. -/
def encBytes (wsel : WordSel) (bytes : List Byte) : List Instr :=
  let p := splitWords (wordBytes wsel) (bytes.length / wordBytes wsel) bytes
  p.1.map (fun w => .encWord (BitVec.ofNat 64 w)) ++ [.encFinish] ++
    (if p.2 = [] then [] else [.encTail (BitVec.ofNat 3 p.2.length) (BitVec.ofNat 64 (leValue p.2))])

/-- R92: the assembler's lines, and R93's pseudo-instructions that expand to a fixed list of commands. -/
inductive AsmLine where
  | nop
  | ctxInit (mode : Mode) (wsel : WordSel) (hbits : BitVec 5) (size : Option (BitVec 64))
  | outGrant (n : BitVec 64)
  | rdreg (regno : BitVec 8)
  | hash (w : BitVec 64)
  | dictRd (bucket : BitVec 16) (rank : BitVec 8)
  | rankEnc (rank : BitVec 8)
  | rankDec (window : BitVec 11)
  | encWord (w : BitVec 64)
  | encFlush
  | encFinish
  | encTail (n : BitVec 3) (value : BitVec 64)
  | decBlock
  | decTail
  | rdstat
  | encBytes (wsel : WordSel) (bytes : List Byte)
deriving DecidableEq, Repr

/-- R92, R93: the commands of an assembler line. `size` absent is DATA 0. -/
def assemble : AsmLine → List Instr
  | .nop => [.nop]
  | .ctxInit mode wsel hbits size => [.ctxInit mode wsel hbits (size.getD 0)]
  | .outGrant n => [.outGrant n]
  | .rdreg regno => [.readReg regno]
  | .hash w => [.hash w]
  | .dictRd bucket rank => [.dictRead bucket rank]
  | .rankEnc rank => [.rankEnc rank]
  | .rankDec window => [.rankDec (window.setWidth 64)]
  | .encWord w => [.encWord w]
  | .encFlush => [.encFlush]
  | .encFinish => [.encFinish]
  | .encTail n value => [.encTail n value]
  | .decBlock => [.decBlock]
  | .decTail => [.decTail]
  | .rdstat => [.readReg 0]
  | .encBytes wsel bytes => encBytes wsel bytes

/-- The host takes one action and waits for the block: one step. -/
def State.act (s : State) (a : HostAction) : State :=
  match step { s with port := a :: s.port } with
  | .next t => t
  | .fault _ => s
  | .refused _ => s

/-- R20, R81: the host issues a command and waits for its response. -/
def State.issue (s : State) (i : Instr) : State := s.act (.issue (encode i))

/-- R13: "The status the surface returns is the first non-OK status of the sequence." -/
def firstFailure (a b : Status) : Status := if a = .ok then b else a

/-- A sequence of commands and the status the surface returns for it. -/
def State.issueAll (s : State) : List Instr → State × Status
  | [] => (s, .ok)
  | i :: is => (((s.issue i).issueAll is).1, firstFailure (s.issue i).resp.status ((s.issue i).issueAll is).2)

/-- R93 `dec.all`, its first part: DEC_BLOCK while DEC_REMAIN > 0 and the status is OK, at most n times. -/
def State.decodeBlocks (s : State) : Nat → State × Status
  | 0 => (s, .ok)
  | n + 1 =>
    if s.decRemain = 0 then (s, .ok)
    else if (s.issue .decBlock).resp.status = .ok then (s.issue .decBlock).decodeBlocks n
    else (s.issue .decBlock, (s.issue .decBlock).resp.status)

/-- R241: the number of blocks of a decode, ceil(DEC_REMAIN / 4096). -/
def State.blocksLeft (s : State) : Nat := (s.decRemain.toNat + (Config.blockSigs - 1)) / Config.blockSigs

/-- R93 `dec.all`: the blocks, then DEC_TAIL if TAILREM > 0. -/
def State.decodeAll (s : State) : State × Status :=
  let p := s.decodeBlocks s.blocksLeft
  if p.1.tailRem = 0 then p
  else (p.1.issue .decTail, firstFailure p.2 (p.1.issue .decTail).resp.status)

/-- R13 `compress`, on a block just out of reset, with the capacity the host grants. -/
def compress (b : Build) (wsel : WordSel) (hbits : BitVec 5) (capacity : BitVec 64) (bytes : List Byte) :
    List Byte × Status :=
  let p := (State.resetOf b).issueAll (.ctxInit .enc wsel hbits 0 :: .outGrant capacity :: encBytes wsel bytes)
  (p.1.out, p.2)

/-- R13 `decompress`, on a block just out of reset: IN is presented before CTX_INIT (R294). -/
def decompress (b : Build) (wsel : WordSel) (hbits : BitVec 5) (capacity : BitVec 64) (bytes : List Byte)
    (size : BitVec 64) : List Byte × Status :=
  let p := ((State.resetOf b).act (.present bytes)).issueAll [.ctxInit .dec wsel hbits size, .outGrant capacity]
  (p.1.decodeAll.1.out, firstFailure p.2 p.1.decodeAll.2)

end Sys2Proof.Machine
end

