-- ==== Sys2Proof/WellFormed.lean ====
section
/-! DEFINITION. Which operand values are legal whatever the context (30_encoding.md R83; step 1 of 60_exceptions.md R265).
A command that is not well formed has a meaning all the same: it completes with ILLEGAL_COMMAND (R86 (c)). -/

namespace Sys2Proof

/-- R83 HBITS: "legal only in 1..MAX_HASH_BITS". -/
def hbitsOk (b : Build) (hbits : BitVec 5) : Bool :=
  decide (hbits ≠ 0) && decide (hbits.toNat ≤ b.maxHashBits.toNat)

/-- R83 REGNO: "legal only in 0x00..0x0E". -/
def regnoOk (regno : BitVec 8) : Bool := decide (regno.toNat ≤ 0x0E)

/-- R265 step 1, ENC_TAIL: N = 0 is illegal for the command word alone (N ≥ WB depends on the context). -/
def tailOk (n : BitVec 3) : Bool := decide (n ≠ 0)

/-- The checks of R265 step 1 on the fields of a command that matches its row. The ranges that depend on the context
(DICT_READ's bucket and rank, ENC_TAIL's N against WB: R265 step 3) are checked by the commands. -/
def Instr.wellFormed (b : Build) : Instr → Bool
  | .nop => true
  | .ctxInit _ _ hbits _ => hbitsOk b hbits
  | .outGrant _ => true
  | .readReg regno => regnoOk regno
  | .hash _ => true
  | .dictRead _ _ => true
  | .rankEnc _ => true
  | .rankDec _ => true
  | .encWord _ => true
  | .encFlush => true
  | .encFinish => true
  | .encTail n _ => tailOk n
  | .decBlock => true
  | .decTail => true

end Sys2Proof
end

