-- ==== Sys2Proof/Safety.lean ====
section
/-! DEFINITION. What the statements are made of: the invariants of the block (10_state.md R22 to R33; 60_exceptions.md R266) and
what stands on the wire: the bits a cursor has before it, the streams of a block and the words they stand for. -/

namespace Sys2Proof.Machine

/-- What holds of the registers after every action of the host. -/
structure RegInv (s : State) : Prop where
  /-- R6: the block is built with a legal build. -/
  legal : BuildLegal s.build
  /-- R23: 1 ≤ HBITS ≤ MAX_HASH_BITS in a context. -/
  hbits : s.init = true → 1 ≤ s.hbits.toNat ∧ s.hbits.toNat ≤ s.build.maxHashBits.toNat
  /-- R290: without a context the block is in mode ENC, with HBITS 0. -/
  noContext : s.init = false → s.mode = .enc ∧ s.hbits = 0
  /-- R27: LASTB is a bucket of the table. -/
  lastb : s.lastb.toNat < 2 ^ s.hbits.toNat
  /-- R28: FAULT_CODE is written together with FAULT. -/
  faultCode : s.fault = true ↔ s.faultCode ≠ .none
  /-- R266: "FAULT is never set in ENC mode". -/
  faultMode : s.fault = true → s.mode = .dec
  /-- R29: TAILREM is 0..WORD_BYTES-1. -/
  tailRem : s.tailRem.toNat < wordBytes s.wsel
  /-- R38, R240: the decoder's counters are 0 in ENC mode. -/
  encMode : s.mode = .enc → s.decRemain = 0 ∧ s.tailRem = 0 ∧ s.inPos = 0
  /-- R24, R25, R41: the encoder's state is at rest in DEC mode. -/
  decMode : s.mode = .dec → s.bstate = .predicting ∧ s.sigCount = 0 ∧ s.flushPending = false ∧ s.finished = false
  /-- R176: the tail is written after the end of the input is declared. -/
  tailDone : s.mode = .enc → s.tailDone = true → s.finished = true
  /-- R29: OUT_POS counts bytes that are in OUT. -/
  outPos : s.outPos.toNat ≤ s.out.length

/-- What holds of the current encoder block after every action of the host. -/
structure BlockInv (s : State) : Prop where
  /-- R6: the block is built with a legal build. -/
  legal : BuildLegal s.build
  /-- R25: SIGCOUNT is 0..4096. -/
  count : s.sigCount.toNat ≤ Config.blockSigs
  /-- R25: 4096 occurs only while a full block's flush is pending. -/
  full : s.sigCount.toNat = Config.blockSigs → s.flushPending = true
  /-- R26, R175: a pending block holds signatures. -/
  pending : s.flushPending = true → 1 ≤ s.sigCount.toNat
  /-- R175: after ENC_FINISH the only block left is a pending one. -/
  finished : s.finished = true → s.flushPending = false → s.sigCount = 0
  /-- R33: SIGBUF holds 2·SIGCOUNT bits. -/
  sigBuf : s.sigBuf.length = 2 * s.sigCount.toNat
  /-- R163: BLK_HITS + BLK_MISSES + BLK_ESCS = SIGCOUNT in ENC mode. -/
  counts : s.mode = .enc → s.blkHits.toNat + s.blkMisses.toNat + s.blkEscs.toNat = s.sigCount.toNat
  /-- R33, R88: a hit appends at most 1 + HBITS bits to PREDICTIONS. -/
  predBuf : s.mode = .enc → s.predBuf.length ≤ s.blkHits.toNat * (1 + s.hbits.toNat)
  /-- R33, R90: a hit appends at most 11 bits to RANK. -/
  rankBuf : s.mode = .enc → s.rankBuf.length ≤ s.blkHits.toNat * Config.maxCodeLen
  /-- R33, R89: a miss appends HBITS bits to DICTIONARY. -/
  dictBuf : s.mode = .enc → s.dictBuf.length = s.blkMisses.toNat * s.hbits.toNat
  /-- R33, R91: a miss or an escaped word appends WB bytes to ENCODED. -/
  encBuf : s.mode = .enc → s.encBuf.length = (s.blkMisses.toNat + s.blkEscs.toNat) * wordBytes s.wsel
  /-- R33: the buffers are not used in DEC mode. -/
  decMode : s.mode = .dec → s.sigCount = 0 ∧ s.flushPending = false ∧ s.finished = false ∧ s.sigBuf = [] ∧
    s.predBuf = [] ∧ s.rankBuf = [] ∧ s.dictBuf = [] ∧ s.encBuf = []
  /-- R167: a block that is PREDICTING holds no escaped word. -/
  noEscape : s.mode = .enc → s.bstate = .predicting → s.blkEscs = 0
  /-- R164: the first window check comes at 256 signatures. -/
  escaped : s.bstate = .escaped → Config.window ≤ s.sigCount.toNat

/-- R32: what holds of the dictionary after every action of the host. Clause (b), distinctness, is here for ENC mode: in DEC
mode it is kept by every command but a DEC_BLOCK that sends a held word as a MISS (`State.sendsHeldMiss`; assumption
log 6). -/
structure DictInv (s : State) : Prop where
  /-- R6: the block is built with a legal build. -/
  legal : BuildLegal s.build
  /-- The RAM is in canonical form. -/
  wf : s.dict.wf
  /-- R32 (a). -/
  occ : s.init = true → ∀ b, s.dict.occ b ≤ s.build.depth.toNat
  /-- R32 (b). -/
  distinct : s.init = true → s.mode = .enc → ∀ b, (s.dict.list b).Nodup
  /-- R32 (c). -/
  home : s.init = true → ∀ b, ∀ w ∈ s.dict.list b, s.hash w = b
  /-- R31: with WORD_BYTES = 4 the bits [63:32] of an entry are 0. -/
  width : s.init = true → ∀ b, ∀ w ∈ s.dict.list b, w.toNat < 2 ^ wordBits s.wsel

/-- R161, R175: the context conditions under which ENC_WORD and ENC_FINISH are accepted. -/
structure EncReady (s : State) : Prop where
  init : s.init = true
  fault : s.fault = false
  mode : s.mode = .enc
  finished : s.finished = false
  pending : s.flushPending = false

/-- R210: the context conditions under which DEC_BLOCK is accepted. -/
structure DecReady (s : State) : Prop where
  init : s.init = true
  fault : s.fault = false
  mode : s.mode = .dec
  remain : s.decRemain ≠ 0

/-- R222: the context conditions under which DEC_TAIL is accepted. -/
structure TailReady (s : State) : Prop where
  init : s.init = true
  fault : s.fault = false
  mode : s.mode = .dec
  remain : s.decRemain = 0
  tail : s.tailRem ≠ 0
  done : s.tailDone = false

/-- R64: the bits a cursor has before it, in the order the decoder reads them. -/
def Cursor.bits (c : Cursor) : List Bool := (c.rest.flatMap (fun b => bitsMsb 8 b.toNat)).drop c.bit

/-- R64: bit k of a byte sequence, the most significant bit of the first byte being bit 0; past its end it is 0. -/
def bitAt (bytes : List Byte) (k : Nat) : Bool := (bytes.getD (k / 8) 0).getLsbD (7 - k % 8)

/-- R64, R65 as the reader sees them: the bytes are exactly those a bit stream occupies and hold its bits in order; the
padding bits are anything. -/
structure Carries (bytes : List Byte) (bits : List Bool) : Prop where
  length : bytes.length = ceil8 bits.length
  bit : ∀ k, k < bits.length → bitAt bytes k = bits.getD k false

/-- R64, R65 as the writer leaves them: the padding bits are 0 besides. -/
structure Packs (bytes : List Byte) (bits : List Bool) : Prop where
  carries : Carries bytes bits
  padding : ∀ k, bits.length ≤ k → bitAt bytes k = false

/-- R87, R163: a signature run as bits. -/
def signatureRun (sigs : List Signature) : List Bool :=
  sigs.flatMap (fun sig => match sig with | .miss => [false, false] | .hit => [false, true] | .esc => [true, false])

/-- R88, R212: hit markers as bits, `0` for SAME and `1,b` for a bucket named. -/
def markerRun (hb : Nat) (markers : List (Option Nat)) : List Bool :=
  markers.flatMap (fun marker => match marker with | none => [false] | some b => true :: bitsMsb hb b)

/-- The wire format of a block of n words as the decoder accepts it (R196, R197, R211 to R213): the header, the streams `sg`,
`pr`, `rk` and `dc`, the literals, and then what does not belong to the block. -/
structure OnWire (b : Build) (wb hb n : Nat) (p : ParsedBlock) (sg pr rk dc bytes : List Byte) : Prop where
  /-- R196, R197: the order of the parts. -/
  order : bytes = [BitVec.ofNat 8 n, BitVec.ofNat 8 (n / 256)] ++ sg ++ pr ++ rk ++ dc ++
    p.lits.flatMap (fun w => leBytes wb w.toNat) ++ p.rest
  /-- R212: one signature a word. -/
  count : p.sigs.length = n
  /-- R212, R213: one marker and one rank a HIT, one reference a MISS, one literal a MISS or an ESC. -/
  entries : p.markers.length = p.sigs.count .hit ∧ p.ranks.length = p.sigs.count .hit ∧
    p.drefs.length = p.sigs.count .miss ∧ p.lits.length = p.sigs.count .miss + p.sigs.count .esc
  /-- R88, R89, R91, R141: each entry fits its field. -/
  ranges : (∀ x ∈ p.markers, ∀ k ∈ x, k < 2 ^ hb) ∧ (∀ r ∈ p.ranks, r < 256) ∧ (∀ k ∈ p.drefs, k < 2 ^ hb) ∧
    (∀ w ∈ p.lits, w.toNat < 2 ^ (8 * wb))
  /-- R87. -/
  signatures : Carries sg (signatureRun p.sigs)
  /-- R88. -/
  predictions : Carries pr (markerRun hb p.markers)
  /-- R90. -/
  ranks : Carries rk (p.ranks.flatMap (rankBits b))
  /-- R89. -/
  dictionary : Carries dc (p.drefs.flatMap (bitsMsb hb))

/-- R67, R210: what is left of IN from R.IN_POS on. -/
def State.remaining (s : State) : List Byte := s.inputView.drop s.inPos.toNat

/-- The bytes left of IN begin with the block `p`, in the context's parameters. -/
def State.holdsBlock (s : State) (p : ParsedBlock) : Prop :=
  ∃ sg pr rk dc, OnWire s.build (wordBytes s.wsel) s.hbits.toNat s.expectedCount p sg pr rk dc s.remaining

/-- What the reconstruction of a block meets at one of its words (R214 to R216): the bucket is the marker's or LASTB' for a
HIT and the reference for a MISS, and `dict` is the tentative dictionary before the word. -/
structure ReplayPoint where
  sig    : Signature
  bucket : Nat
  rank   : Nat
  word   : Word
  dict   : Memory
deriving DecidableEq, Repr

/-- R214 to R216: every word of a block, with what its replay meets. No check is made here. -/
def replayPoints (depth : Nat) :
    List Signature → List (Option Nat) → List Nat → List Nat → List Word → Memory → BitVec 16 → List ReplayPoint
  | .hit :: sigs, marker :: markers, r :: ranks, drefs, lits, dict, lastb =>
    ⟨.hit, marker.getD lastb.toNat, r, 0, dict⟩ ::
      replayPoints depth sigs markers ranks drefs lits (dict.promote (marker.getD lastb.toNat) r)
        (BitVec.ofNat 16 (marker.getD lastb.toNat))
  | .miss :: sigs, markers, ranks, bucket :: drefs, x :: lits, dict, _ =>
    ⟨.miss, bucket, 0, x, dict⟩ ::
      replayPoints depth sigs markers ranks drefs lits (dict.insert depth bucket x) (BitVec.ofNat 16 bucket)
  | .esc :: sigs, markers, ranks, drefs, x :: lits, dict, lastb =>
    ⟨.esc, 0, 0, x, dict⟩ :: replayPoints depth sigs markers ranks drefs lits dict lastb
  | _, _, _, _, _, _, _ => []

/-- The replay of a parsed block from the context's dictionary and LASTB. -/
def State.replayPoints (s : State) (p : ParsedBlock) : List ReplayPoint :=
  Machine.replayPoints s.build.depth.toNat p.sigs p.markers p.ranks p.drefs p.lits s.dict s.lastb

/-- R268: the word is out of its domain: a rank at or above its bucket's occupancy (R214), or a reference that is not the
literal's hash (R215). -/
def State.rejects (s : State) (q : ReplayPoint) : Prop :=
  (q.sig = .hit ∧ q.dict.occ q.bucket ≤ q.rank) ∨ (q.sig = .miss ∧ q.bucket ≠ s.hash q.word)

/-- The DEC_BLOCK of this state sends as a MISS a word that its bucket holds, which no encoder does (R87, R124;
assumption log 6). -/
def State.sendsHeldMiss (s : State) : Prop :=
  ∃ p, s.parse = some p ∧ ∃ q ∈ s.replayPoints p, q.sig = .miss ∧ q.word ∈ q.dict.list q.bucket

/-- The words of a block go in one after another, by ENC_WORD's own operation on an accepted word, without the closing of
the block: routing, signature and window check (R161). -/
def State.feed (s : State) : List Word → State
  | [] => s
  | w :: ws => (((s.routeWord w).1.appendSignature (s.routeWord w).2.sig).windowCheck.1).feed ws

end Sys2Proof.Machine

namespace Sys2Proof

open Sys2Proof.Machine

/-- R264, the column "needs INIT". -/
def Instr.needsInit : Instr → Bool
  | .nop => false
  | .ctxInit _ _ _ _ => false
  | .outGrant _ => true
  | .readReg _ => false
  | .hash _ => true
  | .dictRead _ _ => true
  | .rankEnc _ => false
  | .rankDec _ => false
  | .encWord _ => true
  | .encFlush => true
  | .encFinish => true
  | .encTail _ _ => true
  | .decBlock => true
  | .decTail => true

/-- R264, the column "mode": the mode a command needs, none for any. -/
def Instr.needsMode : Instr → Option Mode
  | .nop => none
  | .ctxInit _ _ _ _ => none
  | .outGrant _ => none
  | .readReg _ => none
  | .hash _ => none
  | .dictRead _ _ => none
  | .rankEnc _ => none
  | .rankDec _ => none
  | .encWord _ => some .enc
  | .encFlush => some .enc
  | .encFinish => some .enc
  | .encTail _ _ => some .enc
  | .decBlock => some .dec
  | .decTail => some .dec

/-- The command is a CTX_INIT. -/
def Instr.isCtxInit : Instr → Bool
  | .ctxInit _ _ _ _ => true
  | _ => false

/-- Step 3 of R265: a field whose range depends on the context is out of it (DICT_READ's bucket and rank, ENC_TAIL's N). -/
def Instr.outOfContext (i : Instr) (s : State) : Bool :=
  match i with
  | .dictRead b r => decide (2 ^ s.hbits.toNat ≤ b.toNat) || decide (s.build.depth.toNat ≤ r.toNat)
  | .encTail n _ => decide (wordBytes s.wsel ≤ n.toNat)
  | _ => false

end Sys2Proof
end

