-- ==== Sys2Proof/Certificates/Slice0/Obligations.lean ====
section
/-! DEFINITION. The statements for the provers, in the spec's terms. OBLIGATIONS.json says of each which rule it formalises. A
statement that starts from a state reached by no run has an invariant of Safety.lean among its premises. -/

open Sys2Proof Sys2Proof.Machine

/-! ### Encoding -/

/-- Decode and encode agree on every command, with every operand at every value its field admits. -/
def Obligations.DecodeOfEncodedInstruction : Prop :=
  ∀ i : Instr, decode (encode i) = .ok i

/-- R84: the opcode map, and that a command word selects the row whose `(CMD & mask) = match`; no word matches two rows. -/
def Obligations.CommandWordSelectsItsRow : Prop :=
  Mnemonic.all.map (fun m => (m.pattern, m.mask)) =
    [(0x00000000, 0xFFFFFFFF), (0x01000000, 0xFFFFFCE0), (0x02000000, 0xFFFFFFFF), (0x03000000, 0xFFFFFF00),
     (0x10000000, 0xFFFFFFFF), (0x20000000, 0xFF000000), (0x30000000, 0xFFFFFF00), (0x31000000, 0xFFFFFFFF),
     (0x40000000, 0xFFFFFFFF), (0x41000000, 0xFFFFFFFF), (0x42000000, 0xFFFFFFFF), (0x43000000, 0xFFFFFFF8),
     (0x50000000, 0xFFFFFFFF), (0x51000000, 0xFFFFFFFF)] ∧
  (∀ (c : Command) (m : Mnemonic), c.cmd &&& m.mask = m.pattern → ∃ i, decode c = .ok i ∧ i.mnemonic = m) ∧
  (∀ (c : Command) (i : Instr), decode c = .ok i → c.cmd &&& i.mnemonic.mask = i.mnemonic.pattern) ∧
  ∀ (cmd : BitVec 32) (m m' : Mnemonic), cmd &&& m.mask = m.pattern → cmd &&& m'.mask = m'.pattern → m = m'

/-- R82, R83: the operands of a decoded command are the bits of ARG and DATA that its format names. -/
def Obligations.OperandsAreTheFieldsOfArg : Prop :=
  ∀ (c : Command) (i : Instr), decode c = .ok i →
    (∀ m w h d, i = .ctxInit m w h d → m.bit = c.cmd.extractLsb' 9 1 ∧ w.bit = c.cmd.extractLsb' 8 1 ∧
      h = c.cmd.extractLsb' 0 5 ∧ d = c.data) ∧
    (∀ n, i = .readReg n → n = c.cmd.extractLsb' 0 8) ∧
    (∀ b r, i = .dictRead b r → b = c.cmd.extractLsb' 8 16 ∧ r = c.cmd.extractLsb' 0 8) ∧
    (∀ r, i = .rankEnc r → r = c.cmd.extractLsb' 0 8) ∧
    (∀ n d, i = .encTail n d → n = c.cmd.extractLsb' 0 3 ∧ d = c.data) ∧
    (∀ d, i = .outGrant d ∨ i = .hash d ∨ i = .rankDec d ∨ i = .encWord d → d = c.data)

/-- R86, with the order of R265 for the ranges that depend on the context: an illegal command word completes with
ILLEGAL_COMMAND, VALID = 0 and RESULT = 0 and changes no other state. -/
def Obligations.IllegalCommandWordIsAnswered : Prop :=
  ∀ (s : State) (c : Command) (rest : List HostAction), s.port = .issue c :: rest →
    ((∀ m : Mnemonic, c.cmd &&& m.mask ≠ m.pattern) ∨
     (∃ i, decode c = .ok i ∧ i.wellFormed s.build = false) ∨
     (∃ i, decode c = .ok i ∧ s.init = true ∧ i.outOfContext s = true)) →
    step s = .next { s with port := rest, tick := s.tick + 1, resp := ⟨.illegalCommand, false, 0⟩ }

/-- A few command words written out from R84 and 95_test_vectors.md decode to the commands they stand for. -/
def Obligations.SpelledOutWordsDecode : Prop :=
  decode ⟨0x00000000, 0⟩ = .ok .nop ∧
  decode ⟨0x01000204, 0x1A⟩ = .ok (.ctxInit .dec .w4 4 26) ∧
  decode ⟨0x0300000E, 0⟩ = .ok (.readReg 0x0E) ∧
  decode ⟨0x10000000, 0x64636261⟩ = .ok (.hash 0x64636261) ∧
  decode ⟨0x20000601, 0⟩ = .ok (.dictRead 6 1) ∧
  decode ⟨0x300000FF, 0⟩ = .ok (.rankEnc 255) ∧
  decode ⟨0x43000002, 0x7978⟩ = .ok (.encTail 2 0x7978) ∧
  decode ⟨0x50000000, 0⟩ = .ok .decBlock ∧
  decode ⟨0x04000000, 0⟩ = .error .unknownOpcode ∧
  decode ⟨0x01000024, 0⟩ = .error .reservedArgBit

/-! ### Steps -/

/-- A command at the head of the port that decodes is run: the step is its execution in the state in which it has left the
port and the model's count of actions has advanced. -/
def Obligations.StepRunsDecodedCommand : Prop :=
  ∀ (s : State) (c : Command) (rest : List HostAction) (i : Instr), s.port = .issue c :: rest → decode c = .ok i →
    step s = exec i { s with port := rest, tick := s.tick + 1 }

/-- R81, R261: every action of the host completes; no step ends in a fault or a refusal. That an error is a next state is the
model's reading (assumption log 7, DEDUCED from R81 and R261), and that a step with an empty port leaves the state as it
is, is the model's choice (assumption log 2, DESIGN CHOICE). -/
def Obligations.EveryStepCompletes : Prop :=
  ∀ s : State, ∃ t, step s = .next t

/-- R290, R292: hardware reset puts every register, buffer and the response at its value, and touches neither the build
constants nor the host's IN and OUT. Of the dictionary RAM, unspecified there, nothing is said. -/
def Obligations.HardwareResetValues : Prop :=
  ∀ (s : State) (rest : List HostAction), s.port = .hardReset :: rest →
    ∃ m : Memory, step s = .next
      { build := s.build, port := rest, tick := s.tick + 1, input := s.input, inChanged := false, out := s.out,
        init := false, mode := .enc, wsel := .w4, hbits := 0, bstate := .predicting, sigCount := 0,
        flushPending := false, finished := false, tailDone := false, lastb := 0, fault := false, faultCode := .none,
        outPos := 0, outAvail := 0, inPos := 0, decRemain := 0, tailRem := 0, blkCnt := 0, wordCnt := 0, escEvents := 0,
        blkHits := 0, blkMisses := 0, blkEscs := 0, dict := m, sigBuf := [], predBuf := [], rankBuf := [],
        dictBuf := [], encBuf := [], resp := ⟨.ok, false, 0⟩ }

/-- A step that presents IN. The mark it leaves when IN changes under an active DEC context, and what the decoder then reads,
are the model's choice (assumption log 3): R296 leaves such a decode open. -/
def Obligations.PresentingInput : Prop :=
  ∀ (s : State) (bytes : List Byte) (rest : List HostAction), s.port = .present bytes :: rest →
    (¬(s.init = true ∧ s.mode = .dec) ∨ bytes = s.input →
      step s = .next { s with port := rest, tick := s.tick + 1, input := bytes }) ∧
    (s.init = true → s.mode = .dec → bytes ≠ s.input →
      step s = .next { s with port := rest, tick := s.tick + 1, input := bytes, inChanged := true })

/-- The state after reset meets the invariants, for every legal build, and the reference build is legal. -/
def Obligations.ResetMeetsTheInvariants : Prop :=
  (∀ b, BuildLegal b → RegInv (State.resetOf b) ∧ BlockInv (State.resetOf b) ∧ DictInv (State.resetOf b)) ∧
  RegInv State.reset ∧ BlockInv State.reset ∧ DictInv State.reset

/-! ### Control commands -/

/-- R243: NOP does nothing but respond (OK, 0, 0), in every state. -/
def Obligations.NopOnlyResponds : Prop :=
  ∀ s : State, exec .nop s = .next { s with resp := ⟨.ok, false, 0⟩ }

/-- R240, R241: CTX_INIT with a legal HBITS creates a context, with every register, flag and buffer at the value listed and
the dictionary empty; with any other HBITS it is ILLEGAL_COMMAND. -/
def Obligations.CtxInitCreatesContext : Prop :=
  ∀ (s : State) (m : Mode) (w : WordSel) (h : BitVec 5) (d : BitVec 64),
    (1 ≤ h.toNat → h.toNat ≤ s.build.maxHashBits.toNat → exec (.ctxInit m w h d) s = .next
      { s with
        inChanged := false, init := true, mode := m, wsel := w, hbits := h, dict := ⟨[]⟩, lastb := 0,
        bstate := .predicting, sigCount := 0, flushPending := false, finished := false, tailDone := false,
        fault := false, faultCode := .none, outPos := 0, outAvail := 0, inPos := 0, blkCnt := 0, wordCnt := 0,
        escEvents := 0, blkHits := 0, blkMisses := 0, blkEscs := 0, sigBuf := [], predBuf := [], rankBuf := [],
        dictBuf := [], encBuf := [],
        decRemain := if m = .dec then BitVec.ofNat 64 (d.toNat / (if w = .w4 then 4 else 8)) else 0,
        tailRem := if m = .dec then BitVec.ofNat 3 (d.toNat % (if w = .w4 then 4 else 8)) else 0,
        resp := ⟨.ok, false, 0⟩ }) ∧
    (h = 0 ∨ s.build.maxHashBits.toNat < h.toNat →
      exec (.ctxInit m w h d) s = .next { s with resp := ⟨.illegalCommand, false, 0⟩ })

/-- R242: OUT_GRANT adds the byte count to OUT_AVAIL, saturating at 2^64 - 1, and answers with it. -/
def Obligations.OutGrantAddsCapacity : Prop :=
  ∀ (s : State) (d : BitVec 64),
    (s.init = true → exec (.outGrant d) s = .next
      { s with
        outAvail := BitVec.ofNat 64 (min (s.outAvail.toNat + d.toNat) (2 ^ 64 - 1)),
        resp := ⟨.ok, true, BitVec.ofNat 64 (min (s.outAvail.toNat + d.toNat) (2 ^ 64 - 1))⟩ }) ∧
    (s.init = false → exec (.outGrant d) s = .next { s with resp := ⟨.wrongState, false, 0⟩ })

/-- R244, with the register map of R38: READ_REG answers with the register's value and changes nothing else; a number above
0x0E is ILLEGAL_COMMAND. -/
def Obligations.ReadRegReturnsTheRegister : Prop :=
  ∀ s : State,
    (∀ n v, (n, v) ∈
        [(0x00#8, ctxStat s), (0x01#8, s.outPos), (0x02#8, s.outAvail), (0x03#8, s.inPos), (0x04#8, s.decRemain),
         (0x05#8, s.tailRem.setWidth 64), (0x06#8, s.lastb.setWidth 64), (0x07#8, s.blkCnt),
         (0x08#8, s.blkHits.setWidth 64), (0x09#8, s.blkMisses.setWidth 64), (0x0A#8, s.blkEscs.setWidth 64),
         (0x0B#8, if s.init = true ∧ s.mode = .enc then
            BitVec.ofNat 64 (16 + s.sigBuf.length + s.predBuf.length + s.rankBuf.length + s.dictBuf.length +
              8 * s.encBuf.length) else 0),
         (0x0C#8, s.escEvents), (0x0D#8, s.wordCnt), (0x0E#8, params s.build)] →
      exec (.readReg n) s = .next { s with resp := ⟨.ok, true, v⟩ }) ∧
    ∀ n : BitVec 8, 0x0E < n.toNat → exec (.readReg n) s = .next { s with resp := ⟨.illegalCommand, false, 0⟩ }

/-- R39: the field layout of CTXSTAT. -/
def Obligations.CtxStatFieldLayout : Prop :=
  ∀ s : State,
    (ctxStat s).getLsbD 0 = s.init ∧
    (ctxStat s).getLsbD 1 = decide (s.mode = .dec) ∧
    (ctxStat s).getLsbD 2 = decide (s.wsel = .w8) ∧
    (ctxStat s).extractLsb' 3 5 = s.hbits ∧
    (ctxStat s).getLsbD 8 = decide (s.bstate = .escaped) ∧
    (ctxStat s).getLsbD 9 = s.flushPending ∧
    (ctxStat s).getLsbD 10 = s.finished ∧
    (ctxStat s).getLsbD 11 = s.tailDone ∧
    (ctxStat s).getLsbD 12 = s.fault ∧
    (ctxStat s).extractLsb' 13 3 =
      (match s.faultCode with | .none => 0 | .corruptStream => 1 | .invalidCode => 2) ∧
    (ctxStat s).extractLsb' 16 13 = s.sigCount ∧
    (ctxStat s).extractLsb' 29 35 = 0

/-- R40: the field layout of PARAMS, and its value with the reference parameters. -/
def Obligations.ParamsFieldLayout : Prop :=
  (∀ b : Build,
    (params b).extractLsb' 0 9 = b.depth ∧
    (params b).extractLsb' 9 2 = 0 ∧
    (params b).extractLsb' 11 5 = b.maxHashBits ∧
    (params b).extractLsb' 16 16 = b.escNum ∧
    (params b).extractLsb' 32 16 = b.escDen ∧
    (params b).extractLsb' 48 16 = 0) ∧
  params referenceBuild = 0x00000020001F8004

/-! ### Hash engine -/

/-- R112 with R110: HASH answers with the top HB bits of the W-bit product of the word and the multiplier, and changes
nothing else; before CTX_INIT it is WRONG_STATE. -/
def Obligations.HashAnswersTheBucket : Prop :=
  ∀ (s : State) (d : BitVec 64),
    (s.init = true → s.wsel = .w4 → exec (.hash d) s = .next
      { s with resp := ⟨.ok, true, BitVec.ofNat 64
        ((d.toNat % 2 ^ 32 * s.build.mult32.toNat % 2 ^ 32) >>> (32 - s.hbits.toNat))⟩ }) ∧
    (s.init = true → s.wsel = .w8 → exec (.hash d) s = .next
      { s with resp := ⟨.ok, true, BitVec.ofNat 64
        ((d.toNat * s.build.mult64.toNat % 2 ^ 64) >>> (64 - s.hbits.toNat))⟩ }) ∧
    (s.init = false → exec (.hash d) s = .next { s with resp := ⟨.wrongState, false, 0⟩ })

/-- R111, with the range of R110: a bucket lies in [0, 2^HB), hash(0) = 0, the bits above W-1 do not matter, and two blocks
with equal multipliers, word width and table size give a word the same bucket, whatever else their states hold. -/
def Obligations.HashIsPureAndStaysInTheTable : Prop :=
  (∀ (b : Build) (w : WordSel) (hb x : Nat), hb ≤ 16 →
    hashOf b w hb x < 2 ^ hb ∧ hashOf b w hb 0 = 0 ∧ hashOf b w hb (x % 2 ^ wordBits w) = hashOf b w hb x) ∧
  ∀ (s s' : State) (x : Word), s.wsel = s'.wsel → s.hbits = s'.hbits → s.build.mult32 = s'.build.mult32 →
    s.build.mult64 = s'.build.mult64 → s.hash x = s'.hash x

/-! ### Dictionary -/

/-- R122, R32 (d): promotion moves the entry at rank r to rank 0, moves ranks 0..r-1 back by one, leaves the ranks above r
and OCC alone, and changes no other bucket. The premise and the last clause, the canonical form of the cells, are the
model's choice and no rule of the spec (assumption log 5, DESIGN CHOICE). -/
def Obligations.PromotionMovesToFront : Prop :=
  ∀ (m : Memory) (b r : Nat), m.wf → r < m.occ b →
    (m.promote b r).ent b 0 = m.ent b r ∧
    (∀ i, 1 ≤ i → i ≤ r → (m.promote b r).ent b i = m.ent b (i - 1)) ∧
    (∀ i, r < i → (m.promote b r).ent b i = m.ent b i) ∧
    (m.promote b r).occ b = m.occ b ∧
    (∀ b', b' ≠ b → (m.promote b r).list b' = m.list b') ∧
    (m.promote b r).wf

/-- R123: insertion puts the word at rank 0, moves the entries back by one, evicts the one at rank DEPTH - 1 of a full bucket,
and changes no other bucket. The premise and the last clause, the canonical form of the cells, are the model's choice and
no rule of the spec (assumption log 5, DESIGN CHOICE). -/
def Obligations.InsertionEvictsTheOldest : Prop :=
  ∀ (m : Memory) (depth b : Nat) (w : Word), m.wf → 1 ≤ depth → m.occ b ≤ depth →
    (m.insert depth b w).ent b 0 = some w ∧
    (∀ i, 1 ≤ i → i < depth → (m.insert depth b w).ent b i = m.ent b (i - 1)) ∧
    (m.insert depth b w).occ b = min (m.occ b + 1) depth ∧
    (∀ b', b' ≠ b → (m.insert depth b w).list b' = m.list b') ∧
    (m.insert depth b w).wf

/-- R128: DICT_READ answers with the entry, or with the occupancy where the rank holds none; a bucket or rank out of range is
ILLEGAL_COMMAND, and before CTX_INIT it is WRONG_STATE. Nothing else changes. -/
def Obligations.DictReadAnswersTheEntry : Prop :=
  ∀ (s : State) (b : BitVec 16) (r : BitVec 8),
    (s.init = false → exec (.dictRead b r) s = .next { s with resp := ⟨.wrongState, false, 0⟩ }) ∧
    (s.init = true → (2 ^ s.hbits.toNat ≤ b.toNat ∨ s.build.depth.toNat ≤ r.toNat) →
      exec (.dictRead b r) s = .next { s with resp := ⟨.illegalCommand, false, 0⟩ }) ∧
    (s.init = true → b.toNat < 2 ^ s.hbits.toNat → r.toNat < s.build.depth.toNat →
      (r.toNat < s.dict.occ b.toNat → ∃ w, s.dict.ent b.toNat r.toNat = some w ∧
        exec (.dictRead b r) s = .next { s with resp := ⟨.ok, true, w⟩ }) ∧
      (s.dict.occ b.toNat ≤ r.toNat →
        exec (.dictRead b r) s = .next { s with resp := ⟨.ok, false, BitVec.ofNat 64 (s.dict.occ b.toNat)⟩ }))

/-- R125: what `predict` does to the dictionary and LASTB is what the decoder's replay of its outcome does. -/
def Obligations.ReplayMirrorsPrediction : Prop :=
  ∀ (s t : State) (w : Word), s.dict.wf →
    (∀ b r, s.predict w = (t, .hit b r) →
      b = s.hash w ∧ s.dict.replayHit b r = some (w, t.dict) ∧ t.lastb = BitVec.ofNat 16 b) ∧
    (∀ b, s.predict w = (t, .miss b) →
      b = s.hash w ∧ w ∉ s.dict.list b ∧ t.dict = s.dict.insert s.build.depth.toNat b w ∧ t.lastb = BitVec.ofNat 16 b)

/-- R32 (d): only a hit or a miss in a bucket changes the bucket's list, and CTX_INIT. A hit's bucket is the one its marker
names or, with the short marker, the LASTB of that word; a miss's is its bucket reference (R214, R215). -/
def Obligations.OnlyPredictionTouchesABucket : Prop :=
  ∀ (i : Instr) (s t : State) (b : Nat), i.isCtxInit = false → exec i s = .next t → t.dict.list b ≠ s.dict.list b →
    (∃ d, i = .encWord d ∧ s.bstate = .predicting ∧ b = s.hash (wordOperand s.wsel d)) ∨
    (i = .decBlock ∧ ∃ p, s.parse = some p ∧ ∃ q ∈ s.replayPoints p, (q.sig = .hit ∨ q.sig = .miss) ∧ q.bucket = b)

/-- The spec's R32 (b) is not kept by a decoder that follows R215: from a dictionary whose every list is of distinct words, a
stream that misses a word its bucket holds is accepted, and leaves the bucket with the word twice (assumption log 6). -/
def Obligations.DecoderMayDuplicateAWord : Prop :=
  ∃ s t : State, RegInv s ∧ BlockInv s ∧ DictInv s ∧ s.mode = .dec ∧ (∀ b, (s.dict.list b).Nodup) ∧
    exec .decBlock s = .next t ∧ t.resp.status = .ok ∧ ∃ b, ¬(t.dict.list b).Nodup

/-! ### Rank codec -/

/-- R146: RANK_ENC answers with the length in RESULT[19:16] and the pattern in RESULT[10:0], in every state and for every
rank. -/
def Obligations.RankEncAnswersTheCode : Prop :=
  ∀ (s : State) (r : BitVec 8), tableT1 s.build.codeTable → ∃ c, s.build.codeTable[r.toNat]? = some c ∧
    exec (.rankEnc r) s =
      .next { s with resp := ⟨.ok, true, BitVec.ofNat 64 (c.length.toNat * 2 ^ 16 + c.pattern.toNat)⟩ }

/-- R147: RANK_DEC answers with the length and the rank of the entry that begins the window, or with a CORRUPT_STREAM that
sets no fault. -/
def Obligations.RankDecAnswersTheRank : Prop :=
  ∀ (s : State) (d : BitVec 64), tableLegal s.build.codeTable →
    (∀ r c, s.build.codeTable[r]? = some c → (d.toNat % 2 ^ 11) >>> (11 - c.length.toNat) = c.pattern.toNat →
      exec (.rankDec d) s = .next { s with resp := ⟨.ok, true, BitVec.ofNat 64 (c.length.toNat * 2 ^ 16 + r)⟩ }) ∧
    ((∀ c ∈ s.build.codeTable, (d.toNat % 2 ^ 11) >>> (11 - c.length.toNat) ≠ c.pattern.toNat) →
      exec (.rankDec d) s = .next { s with resp := ⟨.corruptStream, false, 0⟩ })

/-- R144, R145: a rank that is encoded is decoded from the front of the bits, and the read position advances by exactly its
code's length. -/
def Obligations.RankCodeReadsBack : Prop :=
  ∀ (b : Build) (r : Nat) (c : Cursor) (more : List Bool), tableLegal b.codeTable → r < 256 → c.bit < 8 →
    c.bits = rankBits b r ++ more →
    ∃ c', decodeRank b.codeTable c = some (r, c') ∧ c'.bits = more ∧ c'.bit < 8

/-- R142: T2 and T3 imply the Kraft inequality, so at least one 11-bit window matches no entry, or the sum is exactly 2048. -/
def Obligations.PrefixFreeTableMeetsKraft : Prop :=
  ∀ t : List Code, tableT2 t → tableT3 t →
    (t.map (fun c => 2 ^ (11 - c.length.toNat))).sum ≤ 2048 ∧
    ((∃ v : BitVec 11, rankOfWindow t v = none) ∨ (t.map (fun c => 2 ^ (11 - c.length.toNat))).sum = 2048)

/-! ### Signature and block manager -/

/-- R161, a HIT that neither reaches a window boundary nor completes the block: the word's bucket is promoted, the marker and
the rank code are appended, and everything else is unchanged. -/
def Obligations.EncWordHit : Prop :=
  ∀ (s : State) (d : BitVec 64) (r : Nat), EncReady s → s.bstate = .predicting → s.hbits.toNat ≤ 16 → r < 256 →
    findRank (s.dict.list (s.hash (wordOperand s.wsel d))) (wordOperand s.wsel d) = some r →
    (s.sigCount.toNat + 1) % 256 ≠ 0 → s.sigCount.toNat < 4095 →
    exec (.encWord d) s = .next
      { s with
        dict := s.dict.promote (s.hash (wordOperand s.wsel d)) r
        lastb := BitVec.ofNat 16 (s.hash (wordOperand s.wsel d))
        predBuf := s.predBuf ++ (if s.hash (wordOperand s.wsel d) = s.lastb.toNat then [false]
          else true :: bitsMsb s.hbits.toNat (s.hash (wordOperand s.wsel d)))
        rankBuf := s.rankBuf ++ rankBits s.build r
        sigBuf := s.sigBuf ++ [false, true]
        sigCount := s.sigCount + 1
        blkHits := satAdd s.blkHits 1
        wordCnt := satAdd s.wordCnt 1
        resp := ⟨.ok, true, BitVec.ofNat 64 (s.hash (wordOperand s.wsel d) * 2 ^ 16 + r * 2 ^ 8 + 3)⟩ }

/-- R161, a MISS that neither reaches a window boundary nor completes the block: the word is inserted, its bucket reference and
literal are appended, and everything else is unchanged. -/
def Obligations.EncWordMiss : Prop :=
  ∀ (s : State) (d : BitVec 64), EncReady s → s.bstate = .predicting → s.hbits.toNat ≤ 16 →
    wordOperand s.wsel d ∉ s.dict.list (s.hash (wordOperand s.wsel d)) →
    (s.sigCount.toNat + 1) % 256 ≠ 0 → s.sigCount.toNat < 4095 →
    exec (.encWord d) s = .next
      { s with
        dict := s.dict.insert s.build.depth.toNat (s.hash (wordOperand s.wsel d)) (wordOperand s.wsel d)
        lastb := BitVec.ofNat 16 (s.hash (wordOperand s.wsel d))
        dictBuf := s.dictBuf ++ bitsMsb s.hbits.toNat (s.hash (wordOperand s.wsel d))
        encBuf := s.encBuf ++ leBytes (wordBytes s.wsel) d.toNat
        sigBuf := s.sigBuf ++ [false, false]
        sigCount := s.sigCount + 1
        blkMisses := satAdd s.blkMisses 1
        wordCnt := satAdd s.wordCnt 1
        resp := ⟨.ok, true, BitVec.ofNat 64 (s.hash (wordOperand s.wsel d) * 2 ^ 16 + 1)⟩ }

/-- R161, R167, an ESC that does not complete the block: only the literal and the signature are appended; the dictionary and
LASTB do not change. -/
def Obligations.EncWordEscaped : Prop :=
  ∀ (s : State) (d : BitVec 64), EncReady s → s.bstate = .escaped → s.sigCount.toNat < 4095 →
    exec (.encWord d) s = .next
      { s with
        encBuf := s.encBuf ++ leBytes (wordBytes s.wsel) d.toNat
        sigBuf := s.sigBuf ++ [true, false]
        sigCount := s.sigCount + 1
        blkEscs := satAdd s.blkEscs 1
        wordCnt := satAdd s.wordCnt 1
        resp := ⟨.ok, true, 5⟩ }

/-- R164 to R166: at SIGCOUNT = 256·k below 4096 while PREDICTING, the block escapes exactly when
ESC_DEN · produced ≥ ESC_NUM · consumed. `u` is the state after the word's routing and its signature. -/
def Obligations.EncWordAtWindowBoundary : Prop :=
  ∀ (s u : State) (d : BitVec 64), EncReady s → s.bstate = .predicting → (s.sigCount.toNat + 1) % 256 = 0 →
    s.sigCount.toNat < 4095 →
    u = (s.routeWord (wordOperand s.wsel d)).1.appendSignature (s.routeWord (wordOperand s.wsel d)).2.sig →
    (s.build.escNum.toNat * (8 * wordBytes s.wsel * (s.sigCount.toNat + 1)) ≤
        s.build.escDen.toNat * (16 + u.sigBuf.length + u.predBuf.length + u.rankBuf.length + u.dictBuf.length +
          8 * u.encBuf.length) →
      exec (.encWord d) s = .next
        { u with
          bstate := .escaped
          escEvents := satAdd s.escEvents 1
          resp := ⟨.ok, true, resultWord (s.routeWord (wordOperand s.wsel d)).2 true false⟩ }) ∧
    (s.build.escDen.toNat * (16 + u.sigBuf.length + u.predBuf.length + u.rankBuf.length + u.dictBuf.length +
          8 * u.encBuf.length) < s.build.escNum.toNat * (8 * wordBytes s.wsel * (s.sigCount.toNat + 1)) →
      exec (.encWord d) s = .next
        { u with resp := ⟨.ok, true, resultWord (s.routeWord (wordOperand s.wsel d)).2 false false⟩ })

/-- R168, R170, R172: the word that brings SIGCOUNT to 4096 flushes the block, or pends it where it does not fit. `u` is the
state after the word's routing and its signature. -/
def Obligations.EncWordCompletesBlock : Prop :=
  ∀ (s u : State) (d : BitVec 64), EncReady s → s.sigCount.toNat = 4095 →
    u = (s.routeWord (wordOperand s.wsel d)).1.appendSignature (s.routeWord (wordOperand s.wsel d)).2.sig →
    (u.serializeBlock.length ≤ s.outAvail.toNat → exec (.encWord d) s = .next
      { u with
        out := s.out ++ u.serializeBlock
        outPos := satAdd s.outPos u.serializeBlock.length
        outAvail := s.outAvail - BitVec.ofNat 64 u.serializeBlock.length
        sigBuf := [], predBuf := [], rankBuf := [], dictBuf := [], encBuf := []
        sigCount := 0, bstate := .predicting, blkHits := 0, blkMisses := 0, blkEscs := 0
        blkCnt := satAdd s.blkCnt 1
        flushPending := false
        resp := ⟨.ok, true, resultWord (s.routeWord (wordOperand s.wsel d)).2 false true⟩ }) ∧
    (s.outAvail.toNat < u.serializeBlock.length → exec (.encWord d) s = .next
      { u with
        flushPending := true
        resp := ⟨.outputOverflow, true, resultWord (s.routeWord (wordOperand s.wsel d)).2 false false⟩ })

/-- R177: the fields of ENC_WORD's RESULT for an accepted word. -/
def Obligations.ResultWordFields : Prop :=
  ∀ (o : WordReport) (escNow flushed : Bool),
    (resultWord o escNow flushed).getLsbD 0 = true ∧
    (resultWord o escNow flushed).extractLsb' 1 2 = (match o.sig with | .miss => 0b00 | .hit => 0b01 | .esc => 0b10) ∧
    (resultWord o escNow flushed).getLsbD 3 = escNow ∧
    (resultWord o escNow flushed).getLsbD 4 = flushed ∧
    (resultWord o escNow flushed).extractLsb' 5 3 = 0 ∧
    (resultWord o escNow flushed).extractLsb' 8 8 = BitVec.ofNat 8 o.rank ∧
    (resultWord o escNow flushed).extractLsb' 16 16 = BitVec.ofNat 16 o.bucket ∧
    (resultWord o escNow flushed).extractLsb' 32 32 = 0

/-- R173: while a flush is pending, ENC_WORD, ENC_FINISH and ENC_TAIL are refused with OUTPUT_OVERFLOW and change nothing,
and no command but ENC_FLUSH and CTX_INIT leaves this state. -/
def Obligations.PendingFlushRefusesTheEncoder : Prop :=
  (∀ (s : State) (d : BitVec 64), s.init = true → s.fault = false → s.mode = .enc → s.flushPending = true →
    (s.finished = false → exec (.encWord d) s = .next { s with resp := ⟨.outputOverflow, false, 0⟩ } ∧
      exec .encFinish s = .next { s with resp := ⟨.outputOverflow, false, 0⟩ }) ∧
    (∀ n : BitVec 3, s.finished = true → s.tailDone = false → n ≠ 0 → n.toNat < wordBytes s.wsel →
      exec (.encTail n d) s = .next { s with resp := ⟨.outputOverflow, false, 0⟩ })) ∧
  ∀ (i : Instr) (s t : State), s.flushPending = true → exec i s = .next t → t.flushPending = false →
    i = .encFlush ∨ i.isCtxInit = true

/-- R174: ENC_FLUSH does nothing where nothing is pending, writes the pending block where it fits, and otherwise answers with
its size and changes nothing. -/
def Obligations.EncFlushRetriesThePendingBlock : Prop :=
  ∀ s : State,
    (s.init = false → exec .encFlush s = .next { s with resp := ⟨.wrongState, false, 0⟩ }) ∧
    (s.init = true → s.fault = true → exec .encFlush s = .next { s with resp := ⟨.faulted, false, 0⟩ }) ∧
    (s.init = true → s.fault = false → s.mode = .dec →
      exec .encFlush s = .next { s with resp := ⟨.wrongState, false, 0⟩ }) ∧
    (s.init = true → s.fault = false → s.mode = .enc →
      (s.flushPending = false → exec .encFlush s = .next { s with resp := ⟨.ok, false, 0⟩ }) ∧
      (s.flushPending = true → s.serializeBlock.length ≤ s.outAvail.toNat → exec .encFlush s = .next
        { s with
          out := s.out ++ s.serializeBlock
          outPos := satAdd s.outPos s.serializeBlock.length
          outAvail := s.outAvail - BitVec.ofNat 64 s.serializeBlock.length
          sigBuf := [], predBuf := [], rankBuf := [], dictBuf := [], encBuf := []
          sigCount := 0, bstate := .predicting, blkHits := 0, blkMisses := 0, blkEscs := 0
          blkCnt := satAdd s.blkCnt 1
          flushPending := false
          resp := ⟨.ok, true, BitVec.ofNat 64 s.serializeBlock.length⟩ }) ∧
      (s.flushPending = true → s.outAvail.toNat < s.serializeBlock.length → exec .encFlush s = .next
        { s with resp := ⟨.outputOverflow, false, BitVec.ofNat 64 s.serializeBlock.length⟩ }))

/-- R175: ENC_FINISH declares the end of the input, and flushes or pends a partial block. -/
def Obligations.EncFinishFlushesThePartialBlock : Prop :=
  ∀ s : State, EncReady s →
    (s.sigCount = 0 → exec .encFinish s = .next { s with finished := true, resp := ⟨.ok, true, 1⟩ }) ∧
    (s.sigCount ≠ 0 → s.serializeBlock.length ≤ s.outAvail.toNat → exec .encFinish s = .next
      { s with
        finished := true
        out := s.out ++ s.serializeBlock
        outPos := satAdd s.outPos s.serializeBlock.length
        outAvail := s.outAvail - BitVec.ofNat 64 s.serializeBlock.length
        sigBuf := [], predBuf := [], rankBuf := [], dictBuf := [], encBuf := []
        sigCount := 0, bstate := .predicting, blkHits := 0, blkMisses := 0, blkEscs := 0
        blkCnt := satAdd s.blkCnt 1
        flushPending := false
        resp := ⟨.ok, true, 3⟩ }) ∧
    (s.sigCount ≠ 0 → s.outAvail.toNat < s.serializeBlock.length → exec .encFinish s = .next
      { s with finished := true, flushPending := true, resp := ⟨.outputOverflow, true, 3⟩ })

/-- R176: ENC_TAIL writes the N tail bytes, byte i being DATA[8i+7:8i], and nothing else but its flag and the response; and
the two forms that R176 turns away as illegal for N, and the one for capacity. -/
def Obligations.EncTailWritesTheTail : Prop :=
  ∀ (s : State) (n : BitVec 3) (d : BitVec 64),
    (n = 0 → exec (.encTail n d) s = .next { s with resp := ⟨.illegalCommand, false, 0⟩ }) ∧
    (n ≠ 0 → s.init = true → wordBytes s.wsel ≤ n.toNat →
      exec (.encTail n d) s = .next { s with resp := ⟨.illegalCommand, false, 0⟩ }) ∧
    (n ≠ 0 → n.toNat < wordBytes s.wsel → s.init = true → s.fault = false → s.mode = .enc → s.finished = true →
      s.tailDone = false → s.flushPending = false →
      (n.toNat ≤ s.outAvail.toNat → exec (.encTail n d) s = .next
        { s with
          out := s.out ++ (List.range n.toNat).map (fun i => d.extractLsb' (8 * i) 8)
          outPos := satAdd s.outPos n.toNat
          outAvail := s.outAvail - BitVec.ofNat 64 n.toNat
          tailDone := true
          resp := ⟨.ok, true, BitVec.ofNat 64 n.toNat⟩ }) ∧
      (s.outAvail.toNat < n.toNat →
        exec (.encTail n d) s = .next { s with resp := ⟨.outputOverflow, false, 0⟩ }))

/-- R167: ESCAPED is never left within a block: a command that leaves it has flushed the block or is CTX_INIT. -/
def Obligations.EscapedIsLeftOnlyByAFlush : Prop :=
  ∀ (i : Instr) (s t : State), s.bstate = .escaped → exec i s = .next t → t.bstate = .predicting →
    i.isCtxInit = true ∨
      (t.sigCount = 0 ∧ t.flushPending = false ∧ t.blkCnt = satAdd s.blkCnt 1 ∧ s.out.length < t.out.length)

/-- R178: a block whose first 256 words are all misses escapes at its first window check. -/
def Obligations.AllMissesEscape : Prop :=
  ∀ (s t : State) (d : BitVec 64), RegInv s → BlockInv s → EncReady s → s.bstate = .predicting →
    s.sigCount.toNat = 255 → s.blkMisses.toNat = 255 →
    wordOperand s.wsel d ∉ s.dict.list (s.hash (wordOperand s.wsel d)) →
    exec (.encWord d) s = .next t → t.bstate = .escaped ∧ t.escEvents = satAdd s.escEvents 1

/-! ### Multiplexer -/

/-- R195: the bit cost of a word's outcome, its signature included, is what it adds to PRODBITS. -/
def Obligations.WordCostInBits : Prop :=
  ∀ (s u : State) (w : Word),
    u = (s.routeWord w).1.appendSignature (s.routeWord w).2.sig →
    (s.bstate = .escaped → u.prodBits = s.prodBits + (2 + 8 * wordBytes s.wsel)) ∧
    (s.bstate = .predicting → w ∉ s.dict.list (s.hash w) →
      u.prodBits = s.prodBits + (2 + s.hbits.toNat + 8 * wordBytes s.wsel)) ∧
    (∀ r, s.bstate = .predicting → findRank (s.dict.list (s.hash w)) w = some r →
      u.prodBits = s.prodBits + (2 + (if s.hash w = s.lastb.toNat then 1 else 1 + s.hbits.toNat) +
        (Build.code s.build r).length.toNat))

/-- The bytes of a serialized block and their number. R197: header, signature run, PREDICTIONS, RANK, DICTIONARY, ENCODED, in
this order. R196: the header is SIGCOUNT as two bytes, the low one first. R64, R65: each bit stream is packed most
significant bit first, in exactly ceil8 of its bits bytes, with padding 0; an n-bit value goes in as its bits n-1 down
to 0, and R62: a word as its bytes, the low one first. R198, R169: the size, and its bound by the input plus a fixed
overhead. -/
def Obligations.SerializedBlockSize : Prop :=
  (∀ s : State, ∃ sg pr rk dc : List Byte,
    s.serializeBlock = [s.sigCount.extractLsb' 0 8, (s.sigCount.setWidth 16).extractLsb' 8 8] ++ sg ++ pr ++ rk ++ dc ++
      s.encBuf ∧
    Packs sg s.sigBuf ∧ Packs pr s.predBuf ∧ Packs rk s.rankBuf ∧ Packs dc s.dictBuf) ∧
  (∀ n v : Nat, bitsMsb n v = (List.range n).map (fun i => v.testBit (n - 1 - i)) ∧
    leBytes n v = (List.range n).map (fun i => BitVec.ofNat 8 (v >>> (8 * i)))) ∧
  ∀ s : State, RegInv s → BlockInv s → s.mode = .enc →
    s.serializeBlock.length = 2 + ceil8 (2 * s.sigCount.toNat) + ceil8 s.predBuf.length + ceil8 s.rankBuf.length +
      ceil8 (s.blkMisses.toNat * s.hbits.toNat) + wordBytes s.wsel * (s.blkMisses.toNat + s.blkEscs.toNat) ∧
    s.serializeBlock.length ≤ s.sigCount.toNat * wordBytes s.wsel + 2 +
      ceil8 (s.sigCount.toNat * (2 + s.hbits.toNat)) + 4

/-! ### Decoder -/

/-- R210, R218: a block that parses, reconstructs and fits is committed whole. -/
def Obligations.DecBlockCommits : Prop :=
  ∀ (s : State) (p : ParsedBlock) (x : Replay), DecReady s → s.parse = some p → s.rebuild p = some x →
    p.sigs.length * wordBytes s.wsel ≤ s.outAvail.toNat →
    p.sigs.length = min 4096 s.decRemain.toNat ∧ x.bytes.length = p.sigs.length * wordBytes s.wsel ∧
    exec .decBlock s = .next
      { s with
        dict := x.dict
        lastb := x.lastb
        inPos := satAdd s.inPos ((s.inputView.drop s.inPos.toNat).length - p.rest.length)
        out := s.out ++ x.bytes
        outPos := satAdd s.outPos x.bytes.length
        outAvail := s.outAvail - BitVec.ofNat 64 x.bytes.length
        decRemain := s.decRemain - BitVec.ofNat 64 p.sigs.length
        blkCnt := satAdd s.blkCnt 1
        wordCnt := satAdd s.wordCnt p.sigs.length
        blkHits := BitVec.ofNat 13 (p.sigs.count .hit)
        blkMisses := BitVec.ofNat 13 (p.sigs.count .miss)
        blkEscs := BitVec.ofNat 13 (p.sigs.count .esc)
        resp := ⟨.ok, true, BitVec.ofNat 64 p.sigs.length⟩ }

/-- R217, R266: a block that does not parse or does not reconstruct sets the sticky fault and nothing else; one that does not
fit changes nothing. And when this is: R211 to R213, a block parses to p exactly when the bytes left of IN begin with p in
the wire format, so not where (R267) the header is cut off or holds another count, a signature is 0b11, or a block is cut
short; R268, a parsed block does not reconstruct exactly when a HIT's rank is not below its bucket's occupancy or a MISS's
reference is not the hash of its literal. -/
def Obligations.DecBlockFailsWhole : Prop :=
  (∀ s : State, DecReady s →
    (s.parse = none → exec .decBlock s = .next
      { s with fault := true, faultCode := .corruptStream, resp := ⟨.corruptStream, false, 0⟩ }) ∧
    (∀ p, s.parse = some p → s.rebuild p = none → exec .decBlock s = .next
      { s with fault := true, faultCode := .invalidCode, resp := ⟨.invalidCode, false, 0⟩ }) ∧
    (∀ p x, s.parse = some p → s.rebuild p = some x → s.outAvail.toNat < p.sigs.length * wordBytes s.wsel →
      exec .decBlock s = .next { s with resp := ⟨.outputOverflow, false, 0⟩ })) ∧
  (∀ s : State, tableLegal s.build.codeTable → ∀ p, s.parse = some p ↔ s.holdsBlock p) ∧
  (∀ s : State,
    (s.remaining.length < 2 → s.parse = none) ∧
    ((s.remaining.getD 0 0).toNat + 256 * (s.remaining.getD 1 0).toNat ≠ min 4096 s.decRemain.toNat → s.parse = none) ∧
    (∀ i, i < min 4096 s.decRemain.toNat → bitAt (s.remaining.drop 2) (2 * i) = true →
      bitAt (s.remaining.drop 2) (2 * i + 1) = true → s.parse = none)) ∧
  (∀ (s s' : State) (p : ParsedBlock) (k : Nat), tableLegal s.build.codeTable → s.parse = some p →
    s'.build = s.build → s'.wsel = s.wsel → s'.hbits = s.hbits → s'.decRemain = s.decRemain →
    s'.remaining = s.remaining.take k → k + p.rest.length < s.remaining.length → s'.parse = none) ∧
  ∀ (s : State) (p : ParsedBlock), s.parse = some p → (s.rebuild p = none ↔ ∃ q ∈ s.replayPoints p, s.rejects q)

/-- R221 for one block: the words of a block fed to an encoder, serialized, and decoded by a decoder with the same build,
configuration, dictionary and LASTB come back, and leave the decoder with the encoder's dictionary and LASTB. -/
def Obligations.BlockDecodesToItsWords : Prop :=
  ∀ (s u d : State) (ws : List Word) (more : List Byte), RegInv s → DictInv s →
    s.init = true → s.mode = .enc → s.sigCount = 0 → s.sigBuf = [] → s.predBuf = [] → s.rankBuf = [] →
    s.dictBuf = [] → s.encBuf = [] → 1 ≤ ws.length → ws.length ≤ 4096 →
    (∀ w ∈ ws, w.toNat < 2 ^ wordBits s.wsel) → u = s.feed ws →
    DecReady d → d.build = s.build → d.wsel = s.wsel → d.hbits = s.hbits → d.dict = s.dict → d.lastb = s.lastb →
    d.inChanged = false → d.input.drop d.inPos.toNat = u.serializeBlock ++ more →
    d.inPos.toNat + u.serializeBlock.length < 2 ^ 64 → min 4096 d.decRemain.toNat = ws.length →
    ws.length * wordBytes s.wsel ≤ d.outAvail.toNat →
    ∃ t, exec .decBlock d = .next t ∧ t.out = d.out ++ ws.flatMap (wordLe s.wsel) ∧ t.dict = u.dict ∧
      t.lastb = u.lastb ∧ t.inPos.toNat = d.inPos.toNat + u.serializeBlock.length ∧
      t.decRemain.toNat = d.decRemain.toNat - ws.length ∧ t.resp = ⟨.ok, true, BitVec.ofNat 64 ws.length⟩

/-- R221: `decompress(compress(B)) == B` for every byte buffer, with every command of both sequences answering OK. The bound
on the length keeps the capacity that can be granted from running out. -/
def Obligations.RoundTripLaw : Prop :=
  ∀ (b : Build) (w : WordSel) (h : BitVec 5) (bytes : List Byte), BuildLegal b → 1 ≤ h.toNat →
    h.toNat ≤ b.maxHashBits.toNat → bytes.length < 2 ^ 60 →
    (compress b w h (BitVec.allOnes 64) bytes).2 = .ok ∧
    decompress b w h (BitVec.allOnes 64) (compress b w h (BitVec.allOnes 64) bytes).1 (BitVec.ofNat 64 bytes.length) =
      (bytes, .ok)

/-- R222: DEC_TAIL copies the TAILREM bytes at IN_POS to OUT, or sets the sticky fault where IN is too short, or is turned
away for capacity. -/
def Obligations.DecTailCopiesTheTail : Prop :=
  ∀ s : State, TailReady s →
    ((s.inputView.drop s.inPos.toNat).length < s.tailRem.toNat → exec .decTail s = .next
      { s with fault := true, faultCode := .corruptStream, resp := ⟨.corruptStream, false, 0⟩ }) ∧
    (s.tailRem.toNat ≤ (s.inputView.drop s.inPos.toNat).length → s.tailRem.toNat ≤ s.outAvail.toNat →
      exec .decTail s = .next
        { s with
          out := s.out ++ (s.inputView.drop s.inPos.toNat).take s.tailRem.toNat
          outPos := satAdd s.outPos s.tailRem.toNat
          outAvail := s.outAvail - BitVec.ofNat 64 s.tailRem.toNat
          inPos := satAdd s.inPos s.tailRem.toNat
          tailRem := 0
          tailDone := true
          resp := ⟨.ok, true, s.tailRem.setWidth 64⟩ }) ∧
    (s.tailRem.toNat ≤ (s.inputView.drop s.inPos.toNat).length → s.outAvail.toNat < s.tailRem.toNat →
      exec .decTail s = .next { s with resp := ⟨.outputOverflow, false, 0⟩ })

/-! ### Errors and the acceptance of commands -/

/-- R264, R263 (a): before CTX_INIT every command that needs a context, and is legal as a command word, is WRONG_STATE and
changes nothing; the others are not. -/
def Obligations.NoContextIsWrongState : Prop :=
  ∀ (i : Instr) (s : State), s.init = false →
    (i.needsInit = true → i.wellFormed s.build = true →
      exec i s = .next { s with resp := ⟨.wrongState, false, 0⟩ }) ∧
    (i.needsInit = false → ∀ t, exec i s = .next t → t.resp.status ≠ .wrongState)

/-- R264: while FAULT = 1 the ENC_* and DEC_* commands, legal in the context, answer FAULTED and change nothing; no other
command does. -/
def Obligations.FaultedContextRefuses : Prop :=
  ∀ (i : Instr) (s : State), s.init = true → s.fault = true →
    (i.needsMode ≠ none → i.wellFormed s.build = true → i.outOfContext s = false →
      exec i s = .next { s with resp := ⟨.faulted, false, 0⟩ }) ∧
    (i.needsMode = none → ∀ t, exec i s = .next t → t.resp.status ≠ .faulted)

/-- R263 (b), (c): a command in the wrong mode or out of sequence is WRONG_STATE and changes nothing. -/
def Obligations.WrongModeOrSequence : Prop :=
  ∀ (i : Instr) (s : State), s.init = true → s.fault = false → i.wellFormed s.build = true → i.outOfContext s = false →
    ((∃ m, i.needsMode = some m ∧ m ≠ s.mode) ∨
     (∃ d, i = .encWord d ∧ s.finished = true) ∨ (i = .encFinish ∧ s.finished = true) ∨
     (∃ n d, i = .encTail n d ∧ (s.finished = false ∨ s.tailDone = true)) ∨
     (i = .decBlock ∧ s.decRemain = 0) ∨
     (i = .decTail ∧ (s.decRemain ≠ 0 ∨ s.tailRem = 0 ∨ s.tailDone = true))) →
    exec i s = .next { s with resp := ⟨.wrongState, false, 0⟩ }

/-- R261: an error changes IN_POS and OUT in no command, and each kind of error changes only what its rule lists:
ILLEGAL_COMMAND, WRONG_STATE and FAULTED nothing but the response (R86, R263, R264); CORRUPT_STREAM and INVALID_CODE the
fault registers besides, but for RANK_DEC's (R266, R147); OUTPUT_OVERFLOW what the table of R262 lists, where an accepted
word makes the changes of its routing and its signature. -/
def Obligations.ErrorsArePrecise : Prop :=
  ∀ (i : Instr) (s t : State), exec i s = .next t → t.resp.status ≠ .ok →
    t.inPos = s.inPos ∧ t.out = s.out ∧
    (t.resp.status = .illegalCommand ∨ t.resp.status = .wrongState ∨ t.resp.status = .faulted →
      t = { s with resp := ⟨t.resp.status, false, 0⟩ }) ∧
    (t.resp.status = .corruptStream →
      ((i = .decBlock ∨ i = .decTail) ∧
        t = { s with fault := true, faultCode := .corruptStream, resp := ⟨.corruptStream, false, 0⟩ }) ∨
      ((∃ d, i = .rankDec d) ∧ t = { s with resp := ⟨.corruptStream, false, 0⟩ })) ∧
    (t.resp.status = .invalidCode → i = .decBlock ∧
      t = { s with fault := true, faultCode := .invalidCode, resp := ⟨.invalidCode, false, 0⟩ }) ∧
    (t.resp.status = .outputOverflow →
      (((∃ d, i = .encWord d) ∨ i = .encFinish ∨ (∃ n d, i = .encTail n d) ∨ i = .decBlock ∨ i = .decTail) ∧
        t = { s with resp := ⟨.outputOverflow, false, 0⟩ }) ∨
      (i = .encFlush ∧ s.flushPending = true ∧
        t = { s with resp := ⟨.outputOverflow, false, BitVec.ofNat 64 s.serializeBlock.length⟩ }) ∨
      (i = .encFinish ∧ t = { s with finished := true, flushPending := true, resp := ⟨.outputOverflow, true, 3⟩ }) ∨
      (∃ d u, i = .encWord d ∧
        u = (s.routeWord (wordOperand s.wsel d)).1.appendSignature (s.routeWord (wordOperand s.wsel d)).2.sig ∧
        u.sigCount.toNat = 4096 ∧
        t = { u with
          flushPending := true
          resp := ⟨.outputOverflow, true, resultWord (s.routeWord (wordOperand s.wsel d)).2 false false⟩ }))

/-- R28, R266: FAULT is set only by DEC_BLOCK and DEC_TAIL, with the code of the status, and cleared only by CTX_INIT and
hardware reset. -/
def Obligations.FaultIsStickyUntilCtxInit : Prop :=
  (∀ (s t : State) (a : HostAction) (rest : List HostAction), s.port = a :: rest → step s = .next t →
    s.fault = true → t.fault = false →
    a = .hardReset ∨ ∃ c i, a = .issue c ∧ decode c = .ok i ∧ i.isCtxInit = true) ∧
  ∀ (i : Instr) (s t : State), exec i s = .next t → s.fault = false → t.fault = true →
    (i = .decBlock ∨ i = .decTail) ∧
    ((t.resp.status = .corruptStream ∧ t.faultCode = .corruptStream) ∨
     (t.resp.status = .invalidCode ∧ t.faultCode = .invalidCode))

/-- R22, R23: only CTX_INIT sets INIT and writes the configuration, and only hardware reset clears INIT. -/
def Obligations.OnlyCtxInitConfigures : Prop :=
  ∀ (s t : State) (a : HostAction) (rest : List HostAction), s.port = a :: rest → step s = .next t →
    (s.init = false → t.init = true → ∃ c i, a = .issue c ∧ decode c = .ok i ∧ i.isCtxInit = true) ∧
    (s.init = true → t.init = false → a = .hardReset) ∧
    ((t.mode, t.wsel, t.hbits) ≠ (s.mode, s.wsel, s.hbits) →
      a = .hardReset ∨ ∃ c i, a = .issue c ∧ decode c = .ok i ∧ i.isCtxInit = true)

/-- R41, the table: which commands write each flag. -/
def Obligations.ConditionStateWriters : Prop :=
  ∀ (i : Instr) (s t : State), exec i s = .next t → i.isCtxInit = false →
    (s.bstate = .predicting → t.bstate = .escaped → ∃ d, i = .encWord d) ∧
    (s.bstate = .escaped → t.bstate = .predicting → (∃ d, i = .encWord d) ∨ i = .encFlush ∨ i = .encFinish) ∧
    (s.flushPending = false → t.flushPending = true → (∃ d, i = .encWord d) ∨ i = .encFinish) ∧
    (s.flushPending = true → t.flushPending = false → i = .encFlush) ∧
    (s.finished ≠ t.finished → i = .encFinish ∧ t.finished = true) ∧
    (s.tailDone ≠ t.tailDone → ((∃ n d, i = .encTail n d) ∨ i = .decTail) ∧ t.tailDone = true) ∧
    (s.fault ≠ t.fault → (i = .decBlock ∨ i = .decTail) ∧ t.fault = true)

/-- R69, D33: NOP, READ_REG, HASH, DICT_READ, RANK_ENC and RANK_DEC write only the response, and are idempotent. -/
def Obligations.ObservationCommandsWriteOnlyTheResponse : Prop :=
  ∀ (i : Instr) (s : State),
    (i = .nop ∨ (∃ n, i = .readReg n) ∨ (∃ d, i = .hash d) ∨ (∃ b r, i = .dictRead b r) ∨ (∃ r, i = .rankEnc r) ∨
      (∃ d, i = .rankDec d)) →
    ∃ r, exec i s = .next { s with resp := r } ∧ exec i { s with resp := r } = .next { s with resp := r }

/-- R296, R66: the block does not read OUT back and only appends to it. -/
def Obligations.OutIsAppendedAndNeverRead : Prop :=
  ∀ (i : Instr) (s : State), ∃ (t : State) (bytes : List Byte), ∀ o : List Byte,
    exec i { s with out := o } = .next { t with out := o ++ bytes }

/-- R60 (4), R20: only DEC_BLOCK and DEC_TAIL read IN, and no command changes it, the port or the build constants. -/
def Obligations.OnlyTheDecoderReadsInput : Prop :=
  ∀ (i : Instr) (s t : State), exec i s = .next t →
    t.input = s.input ∧ t.port = s.port ∧ t.tick = s.tick ∧ t.build = s.build ∧
    (i ≠ .decBlock → i ≠ .decTail → ∀ x : List Byte, exec i { s with input := x } = .next { t with input := x })

/-! ### Invariants -/

/-- The register invariant is kept by every step, from every state that has it. -/
def Obligations.StepKeepsRegisterInvariant : Prop :=
  ∀ s t : State, RegInv s → step s = .next t → RegInv t

/-- The invariant of the current encoder block is kept by every step, from every state that has it. -/
def Obligations.StepKeepsBlockInvariant : Prop :=
  ∀ s t : State, BlockInv s → step s = .next t → BlockInv t

/-- R32: the dictionary invariant is kept by every step, from every state that has it and the register invariant. R32 (b) in
either mode: a command keeps the words of every bucket pairwise distinct, "because a word is inserted only on a miss, that
is, only when it is absent from its bucket"; a DEC_BLOCK that sends a held word as a MISS is left out (assumption log 6). -/
def Obligations.StepKeepsDictionaryInvariant : Prop :=
  (∀ s t : State, RegInv s → DictInv s → step s = .next t → DictInv t) ∧
  ∀ (i : Instr) (s t : State), DictInv s → (∀ b, (s.dict.list b).Nodup) → (i = .decBlock → ¬s.sendsHeldMiss) →
    exec i s = .next t → ∀ b, (t.dict.list b).Nodup
end

