-- ==== Sys2Proof/Laws/Bits.lean ====
section
/-! SUPPORT. Bit order, byte order, packing and saturation: what Machine/Bits.lean computes. -/

namespace Sys2Proof.Machine

@[simp] theorem bitsMsb_length (n v : Nat) : (bitsMsb n v).length = n := by
  induction n with
  | zero => rfl
  | succ n ih => simp [bitsMsb, ih]

theorem bitsMsb_getElem (n v k : Nat) (h : k < (bitsMsb n v).length) :
    (bitsMsb n v)[k] = v.testBit (n - 1 - k) := by
  induction n generalizing k with
  | zero => simp at h
  | succ n ih =>
    cases k with
    | zero => simp [bitsMsb]
    | succ k =>
      simp only [bitsMsb, List.getElem_cons_succ]
      rw [ih k (by simpa [bitsMsb] using h)]
      congr 1
      omega

@[simp] theorem leBytes_length (n v : Nat) : (leBytes n v).length = n := by
  induction n generalizing v with
  | zero => rfl
  | succ n ih => simp [leBytes, ih]

/-- R62: the value of the n little-endian bytes of v is v modulo 256^n. -/
theorem leValue_leBytes (n v : Nat) : leValue (leBytes n v) = v % 256 ^ n := by
  induction n generalizing v with
  | zero => simp [leBytes, leValue, Nat.mod_one]
  | succ n ih =>
    simp only [leBytes, leValue, ih, BitVec.toNat_ofNat]
    have h : 256 ^ (n + 1) = 256 * 256 ^ n := Nat.pow_succ'
    rw [h, Nat.mod_mul]

/-- R62: the bytes of the little-endian value of a byte sequence are the sequence. -/
theorem leBytes_leValue (l : List Byte) : leBytes l.length (leValue l) = l := by
  induction l with
  | nil => rfl
  | cons b bs ih =>
    have h1 : BitVec.ofNat 8 (b.toNat + 256 * leValue bs) = b := by
      apply BitVec.eq_of_toNat_eq
      have := b.isLt
      simp only [BitVec.toNat_ofNat]
      omega
    have h2 : (b.toNat + 256 * leValue bs) / 256 = leValue bs := by
      have := b.isLt
      omega
    simp [leBytes, leValue, h1, h2, ih]

theorem leValue_lt (l : List Byte) : leValue l < 256 ^ l.length := by
  induction l with
  | nil => simp [leValue]
  | cons b bs ih =>
    have := b.isLt
    have h : 256 ^ (bs.length + 1) = 256 * 256 ^ bs.length := Nat.pow_succ'
    simp only [leValue, List.length_cons, h]
    omega

/-- R29, D19: the sum, or the counter's maximum where the sum passes it. -/
theorem satAdd_toNat {w : Nat} (x : BitVec w) (n : Nat) : (satAdd x n).toNat = min (x.toNat + n) (2 ^ w - 1) := by
  unfold satAdd
  have hp : 0 < 2 ^ w := Nat.two_pow_pos w
  split
  · rename_i h
    simp only [BitVec.toNat_ofNat, Nat.mod_eq_of_lt h]
    omega
  · simp only [BitVec.toNat_allOnes]
    omega

theorem satAdd_toNat_of_lt {w : Nat} (x : BitVec w) (n : Nat) (h : x.toNat + n < 2 ^ w) :
    (satAdd x n).toNat = x.toNat + n := by
  rw [satAdd_toNat]
  omega

theorem ceil8_add_eight (n : Nat) : ceil8 (n + 8) = ceil8 n + 1 := by
  unfold ceil8
  omega

theorem packFrom_length (acc k : Nat) (s : List Bool) (hk : k ≤ 7) : (packFrom acc k s).length = ceil8 (k + s.length) := by
  induction s generalizing acc k with
  | nil =>
    unfold packFrom ceil8
    split <;> simp <;> omega
  | cons b bs ih =>
    unfold packFrom
    split
    · rename_i h
      subst h
      have := ih 0 0 (by omega)
      simp only [List.length_cons, this]
      rw [show 7 + (bs.length + 1) = (0 + bs.length) + 8 by omega, ceil8_add_eight]
    · rw [ih _ (k + 1) (by omega)]
      simp only [List.length_cons]
      congr 1
      omega

/-- R65: a bit stream of n bits occupies exactly ceil8(n) bytes. -/
@[simp] theorem pad_length (s : List Bool) : (pad s).length = ceil8 s.length := by
  simp [pad, packFrom_length]

end Sys2Proof.Machine
end

