-- ==== Sys2Proof/Laws/CodeTable.lean ====
section
/-! SUPPORT. The reference table and the reference build are legal (42_rank_codec.md R143; 00_scope.md R6). -/

namespace Sys2Proof.Machine

theorem refTable_t1 : tableT1 refTable := by simp [tableT1, refTable]

theorem refTable_t2 : tableT2 refTable := by decide +kernel

theorem refTable_t3 : tableT3 refTable := by decide +kernel

theorem refTable_t4 : tableT4 refTable := by decide +kernel

/-- R143: REF_TABLE satisfies T1 to T4. -/
theorem refTable_legal : tableLegal refTable := ⟨refTable_t1, refTable_t2, refTable_t3, refTable_t4⟩

/-- R6: the reference values lie in their legal ranges. -/
theorem referenceBuild_legal : BuildLegal referenceBuild where
  hashBits := by decide
  depth := by decide
  mult32 := by decide
  mult64 := by decide
  escape := by decide
  table := refTable_legal

end Sys2Proof.Machine
end

