-- ==== Sys2Proof/Laws/Memory.lean ====
section
/-! SUPPORT. The dictionary RAM: read after write, the canonical form, and the list operations of 41_dictionary.md. -/

namespace Sys2Proof.Machine

/-! ### Read after write, and the canonical form -/

theorem cellsGet_eq_nil (cs : List (Nat × List Word)) (b : Nat) (h : ∀ x ∈ cs, x.1 ≠ b) : cellsGet cs b = [] := by
  induction cs with
  | nil => rfl
  | cons x rest ih =>
    obtain ⟨k, l⟩ := x
    have hk : k ≠ b := h (k, l) (by simp)
    simp only [cellsGet, hk, if_false]
    exact ih (fun y hy => h y (by simp [hy]))

theorem cellsGet_cellsSet_other (cs : List (Nat × List Word)) (b b' : Nat) (l : List Word) (h : b' ≠ b) :
    cellsGet (cellsSet cs b l) b' = cellsGet cs b' := by
  induction cs with
  | nil =>
    unfold cellsSet
    split
    · rfl
    · simp [cellsGet, h.symm]
  | cons x rest ih =>
    obtain ⟨k, x⟩ := x
    unfold cellsSet
    split
    · split
      · rfl
      · simp [cellsGet, h.symm]
    · split
      · rename_i hb
        subst hb
        split <;> simp [cellsGet, Ne.symm h]
      · simp only [cellsGet, ih]

theorem cellsGet_cellsSet_of_ne (cs : List (Nat × List Word)) (b : Nat) (l : List Word) (h : l ≠ []) :
    cellsGet (cellsSet cs b l) b = l := by
  induction cs with
  | nil => simp [cellsSet, cellsGet, h]
  | cons x rest ih =>
    obtain ⟨k, x⟩ := x
    unfold cellsSet
    split
    · simp [cellsGet]
    · split
      · simp [cellsGet]
      · rename_i hb
        simp [cellsGet, Ne.symm hb, ih]

/-- The keys of a stored list are those of before and the bucket stored to. -/
theorem cellsSet_key (cs : List (Nat × List Word)) (b : Nat) (l : List Word) (x : Nat × List Word)
    (h : x ∈ cellsSet cs b l) : x.1 = b ∨ ∃ y ∈ cs, y.1 = x.1 := by
  induction cs with
  | nil =>
    unfold cellsSet at h
    split at h <;> simp_all
  | cons y rest ih =>
    obtain ⟨k, y⟩ := y
    unfold cellsSet at h
    split at h
    · split at h
      · exact .inr ⟨x, h, rfl⟩
      · rcases List.mem_cons.1 h with rfl | h
        · exact .inl rfl
        · exact .inr ⟨x, h, rfl⟩
    · split at h
      · split at h
        · exact .inr ⟨x, by simp [h], rfl⟩
        · rcases List.mem_cons.1 h with rfl | h
          · exact .inl rfl
          · exact .inr ⟨x, by simp [h], rfl⟩
      · rcases List.mem_cons.1 h with rfl | h
        · exact .inr ⟨(k, y), by simp, rfl⟩
        · rcases ih h with h | ⟨z, hz, hk⟩
          · exact .inl h
          · exact .inr ⟨z, by simp [hz], hk⟩

theorem cellsSet_nonempty (cs : List (Nat × List Word)) (b : Nat) (l : List Word) (hcs : ∀ x ∈ cs, x.2 ≠ []) :
    ∀ x ∈ cellsSet cs b l, x.2 ≠ [] := by
  induction cs with
  | nil =>
    unfold cellsSet
    split <;> simp_all
  | cons y rest ih =>
    obtain ⟨k, y⟩ := y
    have hrest : ∀ x ∈ rest, x.2 ≠ [] := fun x hx => hcs x (by simp [hx])
    unfold cellsSet
    split
    · split
      · exact hcs
      · rename_i hl
        intro x hx
        rcases List.mem_cons.1 hx with rfl | hx
        · exact hl
        · exact hcs x hx
    · split
      · split
        · exact hrest
        · rename_i hl
          intro x hx
          rcases List.mem_cons.1 hx with rfl | hx
          · exact hl
          · exact hrest x hx
      · intro x hx
        rcases List.mem_cons.1 hx with rfl | hx
        · exact hcs (k, y) (by simp)
        · exact ih hrest x hx

theorem cellsSet_sorted (cs : List (Nat × List Word)) (b : Nat) (l : List Word)
    (hcs : cs.Pairwise (fun x y => x.1 < y.1)) : (cellsSet cs b l).Pairwise (fun x y => x.1 < y.1) := by
  induction cs with
  | nil =>
    unfold cellsSet
    split <;> simp
  | cons y rest ih =>
    obtain ⟨k, y⟩ := y
    obtain ⟨hk, hrest⟩ := List.pairwise_cons.1 hcs
    unfold cellsSet
    split
    · rename_i hb
      split
      · exact hcs
      · refine List.pairwise_cons.2 ⟨?_, hcs⟩
        intro x hx
        rcases List.mem_cons.1 hx with rfl | hx
        · exact hb
        · exact Nat.lt_trans hb (hk x hx)
    · split
      · rename_i hb
        subst hb
        split
        · exact hrest
        · exact List.pairwise_cons.2 ⟨hk, hrest⟩
      · rename_i h1 h2
        refine List.pairwise_cons.2 ⟨?_, ih hrest⟩
        intro x hx
        rcases cellsSet_key _ _ _ _ hx with h | ⟨z, hz, hzx⟩
        · simp only [h]
          omega
        · simpa [← hzx] using hk z hz

theorem cellsGet_cellsSet_same (cs : List (Nat × List Word)) (b : Nat) (l : List Word)
    (hcs : cs.Pairwise (fun x y => x.1 < y.1)) : cellsGet (cellsSet cs b l) b = l := by
  by_cases h : l = []
  · subst h
    induction cs with
    | nil => rfl
    | cons y rest ih =>
      obtain ⟨k, y⟩ := y
      obtain ⟨hk, hrest⟩ := List.pairwise_cons.1 hcs
      unfold cellsSet
      split
      · rename_i hb
        simp only [if_true]
        apply cellsGet_eq_nil
        intro x hx
        rcases List.mem_cons.1 hx with rfl | hx
        · exact Nat.ne_of_gt hb
        · exact Nat.ne_of_gt (Nat.lt_trans hb (hk x hx))
      · split
        · rename_i hb
          subst hb
          simp only [if_true]
          exact cellsGet_eq_nil _ _ (fun x hx => Nat.ne_of_gt (hk x hx))
        · rename_i hb
          simp [cellsGet, Ne.symm hb, ih hrest]
  · exact cellsGet_cellsSet_of_ne cs b l h

/-- A write leaves every other bucket's list alone. -/
theorem Memory.list_setList_other (m : Memory) (b b' : Nat) (l : List Word) (h : b' ≠ b) :
    (m.setList b l).list b' = m.list b' :=
  cellsGet_cellsSet_other m.cells b b' l h

/-- A read after a write to the same bucket gives the list written. -/
theorem Memory.list_setList_same (m : Memory) (b : Nat) (l : List Word) (h : m.wf) : (m.setList b l).list b = l :=
  cellsGet_cellsSet_same m.cells b l h.1

/-- The same without the canonical form, for a list that is not empty. -/
theorem Memory.list_setList_of_ne (m : Memory) (b : Nat) (l : List Word) (h : l ≠ []) : (m.setList b l).list b = l :=
  cellsGet_cellsSet_of_ne m.cells b l h

/-- A write keeps the canonical form. -/
theorem Memory.wf_setList (m : Memory) (b : Nat) (l : List Word) (h : m.wf) : (m.setList b l).wf :=
  ⟨cellsSet_sorted m.cells b l h.1, cellsSet_nonempty m.cells b l h.2⟩

theorem Memory.wf_promote (m : Memory) (b r : Nat) (h : m.wf) : (m.promote b r).wf := m.wf_setList b _ h

theorem Memory.wf_insert (m : Memory) (depth b : Nat) (w : Word) (h : m.wf) : (m.insert depth b w).wf :=
  m.wf_setList b _ h

theorem Memory.wf_empty : Memory.empty.wf := by decide

@[simp] theorem Memory.list_empty (b : Nat) : Memory.empty.list b = [] := rfl

@[simp] theorem Memory.occ_empty (b : Nat) : Memory.empty.occ b = 0 := rfl

@[simp] theorem Memory.ent_empty (b r : Nat) : Memory.empty.ent b r = none := rfl

/-- The memory right after reset has the canonical form, whatever the build. -/
theorem State.resetOf_wf (b : Build) : (State.resetOf b).dict.wf := Memory.wf_empty

/-! ### The list operations -/

/-- R121: a rank that is found is the position of the word. -/
theorem findRank_some (l : List Word) (w : Word) (r : Nat) (h : findRank l w = some r) : l[r]? = some w := by
  unfold findRank at h
  rw [List.findIdx?_eq_some_iff_getElem] at h
  obtain ⟨hr, hw, -⟩ := h
  rw [List.getElem?_eq_getElem hr]
  simpa using hw

/-- R121: no rank is found only where the word is absent. -/
theorem findRank_none (l : List Word) (w : Word) : findRank l w = none ↔ w ∉ l := by
  simp only [findRank, List.findIdx?_eq_none_iff, decide_eq_false_iff_not]
  exact ⟨fun h hw => h w hw rfl, fun h x hx hxw => h (hxw ▸ hx)⟩

theorem findRank_lt (l : List Word) (w : Word) (r : Nat) (h : findRank l w = some r) : r < l.length :=
  (List.getElem?_eq_some_iff.1 (findRank_some l w r h)).1

/-- R122: the promoted list is the entry and then the others in their order. -/
theorem promoteList_of_get (l : List Word) (r : Nat) (w : Word) (h : l[r]? = some w) :
    promoteList l r = w :: l.eraseIdx r := by
  simp [promoteList, h]

@[simp] theorem promoteList_length (l : List Word) (r : Nat) : (promoteList l r).length = l.length := by
  unfold promoteList
  split
  · rename_i w h
    have hr := (List.getElem?_eq_some_iff.1 h).1
    simp only [List.length_cons, List.length_eraseIdx, hr, if_true]
    omega
  · rfl

/-- R122: promotion only reorders the list. -/
theorem promoteList_perm (l : List Word) (r : Nat) : (promoteList l r).Perm l := by
  unfold promoteList
  split
  · rename_i w h
    obtain ⟨hr, rfl⟩ := List.getElem?_eq_some_iff.1 h
    exact List.getElem_cons_eraseIdx_perm hr
  · exact List.Perm.refl l

@[simp] theorem insertList_length (depth : Nat) (l : List Word) (w : Word) :
    (insertList depth l w).length = min (depth - 1) l.length + 1 := by
  simp [insertList]

theorem insertList_ne_nil (depth : Nat) (l : List Word) (w : Word) : insertList depth l w ≠ [] := by simp [insertList]

theorem mem_insertList (depth : Nat) (l : List Word) (w x : Word) (h : x ∈ insertList depth l w) : x = w ∨ x ∈ l := by
  rcases List.mem_cons.1 h with h | h
  · exact .inl h
  · exact .inr (List.mem_of_mem_take h)

theorem insertList_nodup (depth : Nat) (l : List Word) (w : Word) (hl : l.Nodup) (hw : w ∉ l) :
    (insertList depth l w).Nodup :=
  List.nodup_cons.2 ⟨fun h => hw (List.mem_of_mem_take h), hl.sublist (List.take_sublist _ _)⟩

/-- R122 on the RAM: the bucket's list after a promotion. -/
theorem Memory.list_promote_same (m : Memory) (b r : Nat) (h : m.wf) :
    (m.promote b r).list b = promoteList (m.list b) r := m.list_setList_same b _ h

/-- R32 (d): promotion changes no other bucket. -/
theorem Memory.list_promote_other (m : Memory) (b r b' : Nat) (h : b' ≠ b) : (m.promote b r).list b' = m.list b' :=
  m.list_setList_other b b' _ h

/-- R123 on the RAM: the bucket's list after an insertion. -/
theorem Memory.list_insert_same (m : Memory) (depth b : Nat) (w : Word) :
    (m.insert depth b w).list b = insertList depth (m.list b) w :=
  m.list_setList_of_ne b _ (insertList_ne_nil depth _ w)

/-- R32 (d): insertion changes no other bucket. -/
theorem Memory.list_insert_other (m : Memory) (depth b : Nat) (w : Word) (b' : Nat) (h : b' ≠ b) :
    (m.insert depth b w).list b' = m.list b' := m.list_setList_other b b' _ h

end Sys2Proof.Machine
end

