-- ==== Sys2Proof/Laws/State.lean ====
section
/-! SUPPORT. One lemma for each field of `State` and each named update, true by `rfl`: no later proof unfolds an update. -/

namespace Sys2Proof.Machine

variable (s : State)

/-! ### respond -/

@[simp] theorem State.respond_build (st : Status) (v : Bool) (r : BitVec 64) : (s.respond st v r).build = s.build := rfl
@[simp] theorem State.respond_port (st : Status) (v : Bool) (r : BitVec 64) : (s.respond st v r).port = s.port := rfl
@[simp] theorem State.respond_tick (st : Status) (v : Bool) (r : BitVec 64) : (s.respond st v r).tick = s.tick := rfl
@[simp] theorem State.respond_input (st : Status) (v : Bool) (r : BitVec 64) : (s.respond st v r).input = s.input := rfl
@[simp] theorem State.respond_inChanged (st : Status) (v : Bool) (r : BitVec 64) : (s.respond st v r).inChanged = s.inChanged := rfl
@[simp] theorem State.respond_out (st : Status) (v : Bool) (r : BitVec 64) : (s.respond st v r).out = s.out := rfl
@[simp] theorem State.respond_init (st : Status) (v : Bool) (r : BitVec 64) : (s.respond st v r).init = s.init := rfl
@[simp] theorem State.respond_mode (st : Status) (v : Bool) (r : BitVec 64) : (s.respond st v r).mode = s.mode := rfl
@[simp] theorem State.respond_wsel (st : Status) (v : Bool) (r : BitVec 64) : (s.respond st v r).wsel = s.wsel := rfl
@[simp] theorem State.respond_hbits (st : Status) (v : Bool) (r : BitVec 64) : (s.respond st v r).hbits = s.hbits := rfl
@[simp] theorem State.respond_bstate (st : Status) (v : Bool) (r : BitVec 64) : (s.respond st v r).bstate = s.bstate := rfl
@[simp] theorem State.respond_sigCount (st : Status) (v : Bool) (r : BitVec 64) : (s.respond st v r).sigCount = s.sigCount := rfl
@[simp] theorem State.respond_flushPending (st : Status) (v : Bool) (r : BitVec 64) : (s.respond st v r).flushPending = s.flushPending := rfl
@[simp] theorem State.respond_finished (st : Status) (v : Bool) (r : BitVec 64) : (s.respond st v r).finished = s.finished := rfl
@[simp] theorem State.respond_tailDone (st : Status) (v : Bool) (r : BitVec 64) : (s.respond st v r).tailDone = s.tailDone := rfl
@[simp] theorem State.respond_lastb (st : Status) (v : Bool) (r : BitVec 64) : (s.respond st v r).lastb = s.lastb := rfl
@[simp] theorem State.respond_fault (st : Status) (v : Bool) (r : BitVec 64) : (s.respond st v r).fault = s.fault := rfl
@[simp] theorem State.respond_faultCode (st : Status) (v : Bool) (r : BitVec 64) : (s.respond st v r).faultCode = s.faultCode := rfl
@[simp] theorem State.respond_outPos (st : Status) (v : Bool) (r : BitVec 64) : (s.respond st v r).outPos = s.outPos := rfl
@[simp] theorem State.respond_outAvail (st : Status) (v : Bool) (r : BitVec 64) : (s.respond st v r).outAvail = s.outAvail := rfl
@[simp] theorem State.respond_inPos (st : Status) (v : Bool) (r : BitVec 64) : (s.respond st v r).inPos = s.inPos := rfl
@[simp] theorem State.respond_decRemain (st : Status) (v : Bool) (r : BitVec 64) : (s.respond st v r).decRemain = s.decRemain := rfl
@[simp] theorem State.respond_tailRem (st : Status) (v : Bool) (r : BitVec 64) : (s.respond st v r).tailRem = s.tailRem := rfl
@[simp] theorem State.respond_blkCnt (st : Status) (v : Bool) (r : BitVec 64) : (s.respond st v r).blkCnt = s.blkCnt := rfl
@[simp] theorem State.respond_wordCnt (st : Status) (v : Bool) (r : BitVec 64) : (s.respond st v r).wordCnt = s.wordCnt := rfl
@[simp] theorem State.respond_escEvents (st : Status) (v : Bool) (r : BitVec 64) : (s.respond st v r).escEvents = s.escEvents := rfl
@[simp] theorem State.respond_blkHits (st : Status) (v : Bool) (r : BitVec 64) : (s.respond st v r).blkHits = s.blkHits := rfl
@[simp] theorem State.respond_blkMisses (st : Status) (v : Bool) (r : BitVec 64) : (s.respond st v r).blkMisses = s.blkMisses := rfl
@[simp] theorem State.respond_blkEscs (st : Status) (v : Bool) (r : BitVec 64) : (s.respond st v r).blkEscs = s.blkEscs := rfl
@[simp] theorem State.respond_dict (st : Status) (v : Bool) (r : BitVec 64) : (s.respond st v r).dict = s.dict := rfl
@[simp] theorem State.respond_sigBuf (st : Status) (v : Bool) (r : BitVec 64) : (s.respond st v r).sigBuf = s.sigBuf := rfl
@[simp] theorem State.respond_predBuf (st : Status) (v : Bool) (r : BitVec 64) : (s.respond st v r).predBuf = s.predBuf := rfl
@[simp] theorem State.respond_rankBuf (st : Status) (v : Bool) (r : BitVec 64) : (s.respond st v r).rankBuf = s.rankBuf := rfl
@[simp] theorem State.respond_dictBuf (st : Status) (v : Bool) (r : BitVec 64) : (s.respond st v r).dictBuf = s.dictBuf := rfl
@[simp] theorem State.respond_encBuf (st : Status) (v : Bool) (r : BitVec 64) : (s.respond st v r).encBuf = s.encBuf := rfl
@[simp] theorem State.respond_resp (st : Status) (v : Bool) (r : BitVec 64) : (s.respond st v r).resp = ⟨st, v, r⟩ := rfl

/-! ### raise -/

@[simp] theorem State.raise_build (st : Status) : (s.raise st).build = s.build := rfl
@[simp] theorem State.raise_port (st : Status) : (s.raise st).port = s.port := rfl
@[simp] theorem State.raise_tick (st : Status) : (s.raise st).tick = s.tick := rfl
@[simp] theorem State.raise_input (st : Status) : (s.raise st).input = s.input := rfl
@[simp] theorem State.raise_inChanged (st : Status) : (s.raise st).inChanged = s.inChanged := rfl
@[simp] theorem State.raise_out (st : Status) : (s.raise st).out = s.out := rfl
@[simp] theorem State.raise_init (st : Status) : (s.raise st).init = s.init := rfl
@[simp] theorem State.raise_mode (st : Status) : (s.raise st).mode = s.mode := rfl
@[simp] theorem State.raise_wsel (st : Status) : (s.raise st).wsel = s.wsel := rfl
@[simp] theorem State.raise_hbits (st : Status) : (s.raise st).hbits = s.hbits := rfl
@[simp] theorem State.raise_bstate (st : Status) : (s.raise st).bstate = s.bstate := rfl
@[simp] theorem State.raise_sigCount (st : Status) : (s.raise st).sigCount = s.sigCount := rfl
@[simp] theorem State.raise_flushPending (st : Status) : (s.raise st).flushPending = s.flushPending := rfl
@[simp] theorem State.raise_finished (st : Status) : (s.raise st).finished = s.finished := rfl
@[simp] theorem State.raise_tailDone (st : Status) : (s.raise st).tailDone = s.tailDone := rfl
@[simp] theorem State.raise_lastb (st : Status) : (s.raise st).lastb = s.lastb := rfl
@[simp] theorem State.raise_fault (st : Status) : (s.raise st).fault = s.fault := rfl
@[simp] theorem State.raise_faultCode (st : Status) : (s.raise st).faultCode = s.faultCode := rfl
@[simp] theorem State.raise_outPos (st : Status) : (s.raise st).outPos = s.outPos := rfl
@[simp] theorem State.raise_outAvail (st : Status) : (s.raise st).outAvail = s.outAvail := rfl
@[simp] theorem State.raise_inPos (st : Status) : (s.raise st).inPos = s.inPos := rfl
@[simp] theorem State.raise_decRemain (st : Status) : (s.raise st).decRemain = s.decRemain := rfl
@[simp] theorem State.raise_tailRem (st : Status) : (s.raise st).tailRem = s.tailRem := rfl
@[simp] theorem State.raise_blkCnt (st : Status) : (s.raise st).blkCnt = s.blkCnt := rfl
@[simp] theorem State.raise_wordCnt (st : Status) : (s.raise st).wordCnt = s.wordCnt := rfl
@[simp] theorem State.raise_escEvents (st : Status) : (s.raise st).escEvents = s.escEvents := rfl
@[simp] theorem State.raise_blkHits (st : Status) : (s.raise st).blkHits = s.blkHits := rfl
@[simp] theorem State.raise_blkMisses (st : Status) : (s.raise st).blkMisses = s.blkMisses := rfl
@[simp] theorem State.raise_blkEscs (st : Status) : (s.raise st).blkEscs = s.blkEscs := rfl
@[simp] theorem State.raise_dict (st : Status) : (s.raise st).dict = s.dict := rfl
@[simp] theorem State.raise_sigBuf (st : Status) : (s.raise st).sigBuf = s.sigBuf := rfl
@[simp] theorem State.raise_predBuf (st : Status) : (s.raise st).predBuf = s.predBuf := rfl
@[simp] theorem State.raise_rankBuf (st : Status) : (s.raise st).rankBuf = s.rankBuf := rfl
@[simp] theorem State.raise_dictBuf (st : Status) : (s.raise st).dictBuf = s.dictBuf := rfl
@[simp] theorem State.raise_encBuf (st : Status) : (s.raise st).encBuf = s.encBuf := rfl
@[simp] theorem State.raise_resp (st : Status) : (s.raise st).resp = ⟨st, false, 0⟩ := rfl

/-! ### decodeFault -/

@[simp] theorem State.decodeFault_build (st : Status) (c : FaultCode) : (s.decodeFault st c).build = s.build := rfl
@[simp] theorem State.decodeFault_port (st : Status) (c : FaultCode) : (s.decodeFault st c).port = s.port := rfl
@[simp] theorem State.decodeFault_tick (st : Status) (c : FaultCode) : (s.decodeFault st c).tick = s.tick := rfl
@[simp] theorem State.decodeFault_input (st : Status) (c : FaultCode) : (s.decodeFault st c).input = s.input := rfl
@[simp] theorem State.decodeFault_inChanged (st : Status) (c : FaultCode) : (s.decodeFault st c).inChanged = s.inChanged := rfl
@[simp] theorem State.decodeFault_out (st : Status) (c : FaultCode) : (s.decodeFault st c).out = s.out := rfl
@[simp] theorem State.decodeFault_init (st : Status) (c : FaultCode) : (s.decodeFault st c).init = s.init := rfl
@[simp] theorem State.decodeFault_mode (st : Status) (c : FaultCode) : (s.decodeFault st c).mode = s.mode := rfl
@[simp] theorem State.decodeFault_wsel (st : Status) (c : FaultCode) : (s.decodeFault st c).wsel = s.wsel := rfl
@[simp] theorem State.decodeFault_hbits (st : Status) (c : FaultCode) : (s.decodeFault st c).hbits = s.hbits := rfl
@[simp] theorem State.decodeFault_bstate (st : Status) (c : FaultCode) : (s.decodeFault st c).bstate = s.bstate := rfl
@[simp] theorem State.decodeFault_sigCount (st : Status) (c : FaultCode) : (s.decodeFault st c).sigCount = s.sigCount := rfl
@[simp] theorem State.decodeFault_flushPending (st : Status) (c : FaultCode) : (s.decodeFault st c).flushPending = s.flushPending := rfl
@[simp] theorem State.decodeFault_finished (st : Status) (c : FaultCode) : (s.decodeFault st c).finished = s.finished := rfl
@[simp] theorem State.decodeFault_tailDone (st : Status) (c : FaultCode) : (s.decodeFault st c).tailDone = s.tailDone := rfl
@[simp] theorem State.decodeFault_lastb (st : Status) (c : FaultCode) : (s.decodeFault st c).lastb = s.lastb := rfl
@[simp] theorem State.decodeFault_fault (st : Status) (c : FaultCode) : (s.decodeFault st c).fault = true := rfl
@[simp] theorem State.decodeFault_faultCode (st : Status) (c : FaultCode) : (s.decodeFault st c).faultCode = c := rfl
@[simp] theorem State.decodeFault_outPos (st : Status) (c : FaultCode) : (s.decodeFault st c).outPos = s.outPos := rfl
@[simp] theorem State.decodeFault_outAvail (st : Status) (c : FaultCode) : (s.decodeFault st c).outAvail = s.outAvail := rfl
@[simp] theorem State.decodeFault_inPos (st : Status) (c : FaultCode) : (s.decodeFault st c).inPos = s.inPos := rfl
@[simp] theorem State.decodeFault_decRemain (st : Status) (c : FaultCode) : (s.decodeFault st c).decRemain = s.decRemain := rfl
@[simp] theorem State.decodeFault_tailRem (st : Status) (c : FaultCode) : (s.decodeFault st c).tailRem = s.tailRem := rfl
@[simp] theorem State.decodeFault_blkCnt (st : Status) (c : FaultCode) : (s.decodeFault st c).blkCnt = s.blkCnt := rfl
@[simp] theorem State.decodeFault_wordCnt (st : Status) (c : FaultCode) : (s.decodeFault st c).wordCnt = s.wordCnt := rfl
@[simp] theorem State.decodeFault_escEvents (st : Status) (c : FaultCode) : (s.decodeFault st c).escEvents = s.escEvents := rfl
@[simp] theorem State.decodeFault_blkHits (st : Status) (c : FaultCode) : (s.decodeFault st c).blkHits = s.blkHits := rfl
@[simp] theorem State.decodeFault_blkMisses (st : Status) (c : FaultCode) : (s.decodeFault st c).blkMisses = s.blkMisses := rfl
@[simp] theorem State.decodeFault_blkEscs (st : Status) (c : FaultCode) : (s.decodeFault st c).blkEscs = s.blkEscs := rfl
@[simp] theorem State.decodeFault_dict (st : Status) (c : FaultCode) : (s.decodeFault st c).dict = s.dict := rfl
@[simp] theorem State.decodeFault_sigBuf (st : Status) (c : FaultCode) : (s.decodeFault st c).sigBuf = s.sigBuf := rfl
@[simp] theorem State.decodeFault_predBuf (st : Status) (c : FaultCode) : (s.decodeFault st c).predBuf = s.predBuf := rfl
@[simp] theorem State.decodeFault_rankBuf (st : Status) (c : FaultCode) : (s.decodeFault st c).rankBuf = s.rankBuf := rfl
@[simp] theorem State.decodeFault_dictBuf (st : Status) (c : FaultCode) : (s.decodeFault st c).dictBuf = s.dictBuf := rfl
@[simp] theorem State.decodeFault_encBuf (st : Status) (c : FaultCode) : (s.decodeFault st c).encBuf = s.encBuf := rfl
@[simp] theorem State.decodeFault_resp (st : Status) (c : FaultCode) : (s.decodeFault st c).resp = ⟨st, false, 0⟩ := rfl

/-! ### outWrite -/

@[simp] theorem State.outWrite_build (bs : List Byte) : (s.outWrite bs).build = s.build := rfl
@[simp] theorem State.outWrite_port (bs : List Byte) : (s.outWrite bs).port = s.port := rfl
@[simp] theorem State.outWrite_tick (bs : List Byte) : (s.outWrite bs).tick = s.tick := rfl
@[simp] theorem State.outWrite_input (bs : List Byte) : (s.outWrite bs).input = s.input := rfl
@[simp] theorem State.outWrite_inChanged (bs : List Byte) : (s.outWrite bs).inChanged = s.inChanged := rfl
@[simp] theorem State.outWrite_out (bs : List Byte) : (s.outWrite bs).out = s.out ++ bs := rfl
@[simp] theorem State.outWrite_init (bs : List Byte) : (s.outWrite bs).init = s.init := rfl
@[simp] theorem State.outWrite_mode (bs : List Byte) : (s.outWrite bs).mode = s.mode := rfl
@[simp] theorem State.outWrite_wsel (bs : List Byte) : (s.outWrite bs).wsel = s.wsel := rfl
@[simp] theorem State.outWrite_hbits (bs : List Byte) : (s.outWrite bs).hbits = s.hbits := rfl
@[simp] theorem State.outWrite_bstate (bs : List Byte) : (s.outWrite bs).bstate = s.bstate := rfl
@[simp] theorem State.outWrite_sigCount (bs : List Byte) : (s.outWrite bs).sigCount = s.sigCount := rfl
@[simp] theorem State.outWrite_flushPending (bs : List Byte) : (s.outWrite bs).flushPending = s.flushPending := rfl
@[simp] theorem State.outWrite_finished (bs : List Byte) : (s.outWrite bs).finished = s.finished := rfl
@[simp] theorem State.outWrite_tailDone (bs : List Byte) : (s.outWrite bs).tailDone = s.tailDone := rfl
@[simp] theorem State.outWrite_lastb (bs : List Byte) : (s.outWrite bs).lastb = s.lastb := rfl
@[simp] theorem State.outWrite_fault (bs : List Byte) : (s.outWrite bs).fault = s.fault := rfl
@[simp] theorem State.outWrite_faultCode (bs : List Byte) : (s.outWrite bs).faultCode = s.faultCode := rfl
@[simp] theorem State.outWrite_outPos (bs : List Byte) : (s.outWrite bs).outPos = satAdd s.outPos bs.length := rfl
@[simp] theorem State.outWrite_outAvail (bs : List Byte) : (s.outWrite bs).outAvail = s.outAvail - BitVec.ofNat 64 bs.length := rfl
@[simp] theorem State.outWrite_inPos (bs : List Byte) : (s.outWrite bs).inPos = s.inPos := rfl
@[simp] theorem State.outWrite_decRemain (bs : List Byte) : (s.outWrite bs).decRemain = s.decRemain := rfl
@[simp] theorem State.outWrite_tailRem (bs : List Byte) : (s.outWrite bs).tailRem = s.tailRem := rfl
@[simp] theorem State.outWrite_blkCnt (bs : List Byte) : (s.outWrite bs).blkCnt = s.blkCnt := rfl
@[simp] theorem State.outWrite_wordCnt (bs : List Byte) : (s.outWrite bs).wordCnt = s.wordCnt := rfl
@[simp] theorem State.outWrite_escEvents (bs : List Byte) : (s.outWrite bs).escEvents = s.escEvents := rfl
@[simp] theorem State.outWrite_blkHits (bs : List Byte) : (s.outWrite bs).blkHits = s.blkHits := rfl
@[simp] theorem State.outWrite_blkMisses (bs : List Byte) : (s.outWrite bs).blkMisses = s.blkMisses := rfl
@[simp] theorem State.outWrite_blkEscs (bs : List Byte) : (s.outWrite bs).blkEscs = s.blkEscs := rfl
@[simp] theorem State.outWrite_dict (bs : List Byte) : (s.outWrite bs).dict = s.dict := rfl
@[simp] theorem State.outWrite_sigBuf (bs : List Byte) : (s.outWrite bs).sigBuf = s.sigBuf := rfl
@[simp] theorem State.outWrite_predBuf (bs : List Byte) : (s.outWrite bs).predBuf = s.predBuf := rfl
@[simp] theorem State.outWrite_rankBuf (bs : List Byte) : (s.outWrite bs).rankBuf = s.rankBuf := rfl
@[simp] theorem State.outWrite_dictBuf (bs : List Byte) : (s.outWrite bs).dictBuf = s.dictBuf := rfl
@[simp] theorem State.outWrite_encBuf (bs : List Byte) : (s.outWrite bs).encBuf = s.encBuf := rfl
@[simp] theorem State.outWrite_resp (bs : List Byte) : (s.outWrite bs).resp = s.resp := rfl

/-! ### appendHit -/

@[simp] theorem State.appendHit_build (b r prev : Nat) : (s.appendHit b r prev).build = s.build := rfl
@[simp] theorem State.appendHit_port (b r prev : Nat) : (s.appendHit b r prev).port = s.port := rfl
@[simp] theorem State.appendHit_tick (b r prev : Nat) : (s.appendHit b r prev).tick = s.tick := rfl
@[simp] theorem State.appendHit_input (b r prev : Nat) : (s.appendHit b r prev).input = s.input := rfl
@[simp] theorem State.appendHit_inChanged (b r prev : Nat) : (s.appendHit b r prev).inChanged = s.inChanged := rfl
@[simp] theorem State.appendHit_out (b r prev : Nat) : (s.appendHit b r prev).out = s.out := rfl
@[simp] theorem State.appendHit_init (b r prev : Nat) : (s.appendHit b r prev).init = s.init := rfl
@[simp] theorem State.appendHit_mode (b r prev : Nat) : (s.appendHit b r prev).mode = s.mode := rfl
@[simp] theorem State.appendHit_wsel (b r prev : Nat) : (s.appendHit b r prev).wsel = s.wsel := rfl
@[simp] theorem State.appendHit_hbits (b r prev : Nat) : (s.appendHit b r prev).hbits = s.hbits := rfl
@[simp] theorem State.appendHit_bstate (b r prev : Nat) : (s.appendHit b r prev).bstate = s.bstate := rfl
@[simp] theorem State.appendHit_sigCount (b r prev : Nat) : (s.appendHit b r prev).sigCount = s.sigCount := rfl
@[simp] theorem State.appendHit_flushPending (b r prev : Nat) : (s.appendHit b r prev).flushPending = s.flushPending := rfl
@[simp] theorem State.appendHit_finished (b r prev : Nat) : (s.appendHit b r prev).finished = s.finished := rfl
@[simp] theorem State.appendHit_tailDone (b r prev : Nat) : (s.appendHit b r prev).tailDone = s.tailDone := rfl
@[simp] theorem State.appendHit_lastb (b r prev : Nat) : (s.appendHit b r prev).lastb = s.lastb := rfl
@[simp] theorem State.appendHit_fault (b r prev : Nat) : (s.appendHit b r prev).fault = s.fault := rfl
@[simp] theorem State.appendHit_faultCode (b r prev : Nat) : (s.appendHit b r prev).faultCode = s.faultCode := rfl
@[simp] theorem State.appendHit_outPos (b r prev : Nat) : (s.appendHit b r prev).outPos = s.outPos := rfl
@[simp] theorem State.appendHit_outAvail (b r prev : Nat) : (s.appendHit b r prev).outAvail = s.outAvail := rfl
@[simp] theorem State.appendHit_inPos (b r prev : Nat) : (s.appendHit b r prev).inPos = s.inPos := rfl
@[simp] theorem State.appendHit_decRemain (b r prev : Nat) : (s.appendHit b r prev).decRemain = s.decRemain := rfl
@[simp] theorem State.appendHit_tailRem (b r prev : Nat) : (s.appendHit b r prev).tailRem = s.tailRem := rfl
@[simp] theorem State.appendHit_blkCnt (b r prev : Nat) : (s.appendHit b r prev).blkCnt = s.blkCnt := rfl
@[simp] theorem State.appendHit_wordCnt (b r prev : Nat) : (s.appendHit b r prev).wordCnt = s.wordCnt := rfl
@[simp] theorem State.appendHit_escEvents (b r prev : Nat) : (s.appendHit b r prev).escEvents = s.escEvents := rfl
@[simp] theorem State.appendHit_blkHits (b r prev : Nat) : (s.appendHit b r prev).blkHits = s.blkHits := rfl
@[simp] theorem State.appendHit_blkMisses (b r prev : Nat) : (s.appendHit b r prev).blkMisses = s.blkMisses := rfl
@[simp] theorem State.appendHit_blkEscs (b r prev : Nat) : (s.appendHit b r prev).blkEscs = s.blkEscs := rfl
@[simp] theorem State.appendHit_dict (b r prev : Nat) : (s.appendHit b r prev).dict = s.dict := rfl
@[simp] theorem State.appendHit_sigBuf (b r prev : Nat) : (s.appendHit b r prev).sigBuf = s.sigBuf := rfl
@[simp] theorem State.appendHit_predBuf (b r prev : Nat) : (s.appendHit b r prev).predBuf = s.predBuf ++ hitMarker s.hbits.toNat b prev := rfl
@[simp] theorem State.appendHit_rankBuf (b r prev : Nat) : (s.appendHit b r prev).rankBuf = s.rankBuf ++ rankBits s.build r := rfl
@[simp] theorem State.appendHit_dictBuf (b r prev : Nat) : (s.appendHit b r prev).dictBuf = s.dictBuf := rfl
@[simp] theorem State.appendHit_encBuf (b r prev : Nat) : (s.appendHit b r prev).encBuf = s.encBuf := rfl
@[simp] theorem State.appendHit_resp (b r prev : Nat) : (s.appendHit b r prev).resp = s.resp := rfl

/-! ### appendMiss -/

@[simp] theorem State.appendMiss_build (b : Nat) (w : Word) : (s.appendMiss b w).build = s.build := rfl
@[simp] theorem State.appendMiss_port (b : Nat) (w : Word) : (s.appendMiss b w).port = s.port := rfl
@[simp] theorem State.appendMiss_tick (b : Nat) (w : Word) : (s.appendMiss b w).tick = s.tick := rfl
@[simp] theorem State.appendMiss_input (b : Nat) (w : Word) : (s.appendMiss b w).input = s.input := rfl
@[simp] theorem State.appendMiss_inChanged (b : Nat) (w : Word) : (s.appendMiss b w).inChanged = s.inChanged := rfl
@[simp] theorem State.appendMiss_out (b : Nat) (w : Word) : (s.appendMiss b w).out = s.out := rfl
@[simp] theorem State.appendMiss_init (b : Nat) (w : Word) : (s.appendMiss b w).init = s.init := rfl
@[simp] theorem State.appendMiss_mode (b : Nat) (w : Word) : (s.appendMiss b w).mode = s.mode := rfl
@[simp] theorem State.appendMiss_wsel (b : Nat) (w : Word) : (s.appendMiss b w).wsel = s.wsel := rfl
@[simp] theorem State.appendMiss_hbits (b : Nat) (w : Word) : (s.appendMiss b w).hbits = s.hbits := rfl
@[simp] theorem State.appendMiss_bstate (b : Nat) (w : Word) : (s.appendMiss b w).bstate = s.bstate := rfl
@[simp] theorem State.appendMiss_sigCount (b : Nat) (w : Word) : (s.appendMiss b w).sigCount = s.sigCount := rfl
@[simp] theorem State.appendMiss_flushPending (b : Nat) (w : Word) : (s.appendMiss b w).flushPending = s.flushPending := rfl
@[simp] theorem State.appendMiss_finished (b : Nat) (w : Word) : (s.appendMiss b w).finished = s.finished := rfl
@[simp] theorem State.appendMiss_tailDone (b : Nat) (w : Word) : (s.appendMiss b w).tailDone = s.tailDone := rfl
@[simp] theorem State.appendMiss_lastb (b : Nat) (w : Word) : (s.appendMiss b w).lastb = s.lastb := rfl
@[simp] theorem State.appendMiss_fault (b : Nat) (w : Word) : (s.appendMiss b w).fault = s.fault := rfl
@[simp] theorem State.appendMiss_faultCode (b : Nat) (w : Word) : (s.appendMiss b w).faultCode = s.faultCode := rfl
@[simp] theorem State.appendMiss_outPos (b : Nat) (w : Word) : (s.appendMiss b w).outPos = s.outPos := rfl
@[simp] theorem State.appendMiss_outAvail (b : Nat) (w : Word) : (s.appendMiss b w).outAvail = s.outAvail := rfl
@[simp] theorem State.appendMiss_inPos (b : Nat) (w : Word) : (s.appendMiss b w).inPos = s.inPos := rfl
@[simp] theorem State.appendMiss_decRemain (b : Nat) (w : Word) : (s.appendMiss b w).decRemain = s.decRemain := rfl
@[simp] theorem State.appendMiss_tailRem (b : Nat) (w : Word) : (s.appendMiss b w).tailRem = s.tailRem := rfl
@[simp] theorem State.appendMiss_blkCnt (b : Nat) (w : Word) : (s.appendMiss b w).blkCnt = s.blkCnt := rfl
@[simp] theorem State.appendMiss_wordCnt (b : Nat) (w : Word) : (s.appendMiss b w).wordCnt = s.wordCnt := rfl
@[simp] theorem State.appendMiss_escEvents (b : Nat) (w : Word) : (s.appendMiss b w).escEvents = s.escEvents := rfl
@[simp] theorem State.appendMiss_blkHits (b : Nat) (w : Word) : (s.appendMiss b w).blkHits = s.blkHits := rfl
@[simp] theorem State.appendMiss_blkMisses (b : Nat) (w : Word) : (s.appendMiss b w).blkMisses = s.blkMisses := rfl
@[simp] theorem State.appendMiss_blkEscs (b : Nat) (w : Word) : (s.appendMiss b w).blkEscs = s.blkEscs := rfl
@[simp] theorem State.appendMiss_dict (b : Nat) (w : Word) : (s.appendMiss b w).dict = s.dict := rfl
@[simp] theorem State.appendMiss_sigBuf (b : Nat) (w : Word) : (s.appendMiss b w).sigBuf = s.sigBuf := rfl
@[simp] theorem State.appendMiss_predBuf (b : Nat) (w : Word) : (s.appendMiss b w).predBuf = s.predBuf := rfl
@[simp] theorem State.appendMiss_rankBuf (b : Nat) (w : Word) : (s.appendMiss b w).rankBuf = s.rankBuf := rfl
@[simp] theorem State.appendMiss_dictBuf (b : Nat) (w : Word) : (s.appendMiss b w).dictBuf = s.dictBuf ++ bitsMsb s.hbits.toNat b := rfl
@[simp] theorem State.appendMiss_encBuf (b : Nat) (w : Word) : (s.appendMiss b w).encBuf = s.encBuf ++ wordLe s.wsel w := rfl
@[simp] theorem State.appendMiss_resp (b : Nat) (w : Word) : (s.appendMiss b w).resp = s.resp := rfl

/-! ### appendEscaped -/

@[simp] theorem State.appendEscaped_build (w : Word) : (s.appendEscaped w).build = s.build := rfl
@[simp] theorem State.appendEscaped_port (w : Word) : (s.appendEscaped w).port = s.port := rfl
@[simp] theorem State.appendEscaped_tick (w : Word) : (s.appendEscaped w).tick = s.tick := rfl
@[simp] theorem State.appendEscaped_input (w : Word) : (s.appendEscaped w).input = s.input := rfl
@[simp] theorem State.appendEscaped_inChanged (w : Word) : (s.appendEscaped w).inChanged = s.inChanged := rfl
@[simp] theorem State.appendEscaped_out (w : Word) : (s.appendEscaped w).out = s.out := rfl
@[simp] theorem State.appendEscaped_init (w : Word) : (s.appendEscaped w).init = s.init := rfl
@[simp] theorem State.appendEscaped_mode (w : Word) : (s.appendEscaped w).mode = s.mode := rfl
@[simp] theorem State.appendEscaped_wsel (w : Word) : (s.appendEscaped w).wsel = s.wsel := rfl
@[simp] theorem State.appendEscaped_hbits (w : Word) : (s.appendEscaped w).hbits = s.hbits := rfl
@[simp] theorem State.appendEscaped_bstate (w : Word) : (s.appendEscaped w).bstate = s.bstate := rfl
@[simp] theorem State.appendEscaped_sigCount (w : Word) : (s.appendEscaped w).sigCount = s.sigCount := rfl
@[simp] theorem State.appendEscaped_flushPending (w : Word) : (s.appendEscaped w).flushPending = s.flushPending := rfl
@[simp] theorem State.appendEscaped_finished (w : Word) : (s.appendEscaped w).finished = s.finished := rfl
@[simp] theorem State.appendEscaped_tailDone (w : Word) : (s.appendEscaped w).tailDone = s.tailDone := rfl
@[simp] theorem State.appendEscaped_lastb (w : Word) : (s.appendEscaped w).lastb = s.lastb := rfl
@[simp] theorem State.appendEscaped_fault (w : Word) : (s.appendEscaped w).fault = s.fault := rfl
@[simp] theorem State.appendEscaped_faultCode (w : Word) : (s.appendEscaped w).faultCode = s.faultCode := rfl
@[simp] theorem State.appendEscaped_outPos (w : Word) : (s.appendEscaped w).outPos = s.outPos := rfl
@[simp] theorem State.appendEscaped_outAvail (w : Word) : (s.appendEscaped w).outAvail = s.outAvail := rfl
@[simp] theorem State.appendEscaped_inPos (w : Word) : (s.appendEscaped w).inPos = s.inPos := rfl
@[simp] theorem State.appendEscaped_decRemain (w : Word) : (s.appendEscaped w).decRemain = s.decRemain := rfl
@[simp] theorem State.appendEscaped_tailRem (w : Word) : (s.appendEscaped w).tailRem = s.tailRem := rfl
@[simp] theorem State.appendEscaped_blkCnt (w : Word) : (s.appendEscaped w).blkCnt = s.blkCnt := rfl
@[simp] theorem State.appendEscaped_wordCnt (w : Word) : (s.appendEscaped w).wordCnt = s.wordCnt := rfl
@[simp] theorem State.appendEscaped_escEvents (w : Word) : (s.appendEscaped w).escEvents = s.escEvents := rfl
@[simp] theorem State.appendEscaped_blkHits (w : Word) : (s.appendEscaped w).blkHits = s.blkHits := rfl
@[simp] theorem State.appendEscaped_blkMisses (w : Word) : (s.appendEscaped w).blkMisses = s.blkMisses := rfl
@[simp] theorem State.appendEscaped_blkEscs (w : Word) : (s.appendEscaped w).blkEscs = s.blkEscs := rfl
@[simp] theorem State.appendEscaped_dict (w : Word) : (s.appendEscaped w).dict = s.dict := rfl
@[simp] theorem State.appendEscaped_sigBuf (w : Word) : (s.appendEscaped w).sigBuf = s.sigBuf := rfl
@[simp] theorem State.appendEscaped_predBuf (w : Word) : (s.appendEscaped w).predBuf = s.predBuf := rfl
@[simp] theorem State.appendEscaped_rankBuf (w : Word) : (s.appendEscaped w).rankBuf = s.rankBuf := rfl
@[simp] theorem State.appendEscaped_dictBuf (w : Word) : (s.appendEscaped w).dictBuf = s.dictBuf := rfl
@[simp] theorem State.appendEscaped_encBuf (w : Word) : (s.appendEscaped w).encBuf = s.encBuf ++ wordLe s.wsel w := rfl
@[simp] theorem State.appendEscaped_resp (w : Word) : (s.appendEscaped w).resp = s.resp := rfl

/-! ### appendSignature -/

@[simp] theorem State.appendSignature_build (g : Signature) : (s.appendSignature g).build = s.build := rfl
@[simp] theorem State.appendSignature_port (g : Signature) : (s.appendSignature g).port = s.port := rfl
@[simp] theorem State.appendSignature_tick (g : Signature) : (s.appendSignature g).tick = s.tick := rfl
@[simp] theorem State.appendSignature_input (g : Signature) : (s.appendSignature g).input = s.input := rfl
@[simp] theorem State.appendSignature_inChanged (g : Signature) : (s.appendSignature g).inChanged = s.inChanged := rfl
@[simp] theorem State.appendSignature_out (g : Signature) : (s.appendSignature g).out = s.out := rfl
@[simp] theorem State.appendSignature_init (g : Signature) : (s.appendSignature g).init = s.init := rfl
@[simp] theorem State.appendSignature_mode (g : Signature) : (s.appendSignature g).mode = s.mode := rfl
@[simp] theorem State.appendSignature_wsel (g : Signature) : (s.appendSignature g).wsel = s.wsel := rfl
@[simp] theorem State.appendSignature_hbits (g : Signature) : (s.appendSignature g).hbits = s.hbits := rfl
@[simp] theorem State.appendSignature_bstate (g : Signature) : (s.appendSignature g).bstate = s.bstate := rfl
@[simp] theorem State.appendSignature_sigCount (g : Signature) : (s.appendSignature g).sigCount = satAdd s.sigCount 1 := rfl
@[simp] theorem State.appendSignature_flushPending (g : Signature) : (s.appendSignature g).flushPending = s.flushPending := rfl
@[simp] theorem State.appendSignature_finished (g : Signature) : (s.appendSignature g).finished = s.finished := rfl
@[simp] theorem State.appendSignature_tailDone (g : Signature) : (s.appendSignature g).tailDone = s.tailDone := rfl
@[simp] theorem State.appendSignature_lastb (g : Signature) : (s.appendSignature g).lastb = s.lastb := rfl
@[simp] theorem State.appendSignature_fault (g : Signature) : (s.appendSignature g).fault = s.fault := rfl
@[simp] theorem State.appendSignature_faultCode (g : Signature) : (s.appendSignature g).faultCode = s.faultCode := rfl
@[simp] theorem State.appendSignature_outPos (g : Signature) : (s.appendSignature g).outPos = s.outPos := rfl
@[simp] theorem State.appendSignature_outAvail (g : Signature) : (s.appendSignature g).outAvail = s.outAvail := rfl
@[simp] theorem State.appendSignature_inPos (g : Signature) : (s.appendSignature g).inPos = s.inPos := rfl
@[simp] theorem State.appendSignature_decRemain (g : Signature) : (s.appendSignature g).decRemain = s.decRemain := rfl
@[simp] theorem State.appendSignature_tailRem (g : Signature) : (s.appendSignature g).tailRem = s.tailRem := rfl
@[simp] theorem State.appendSignature_blkCnt (g : Signature) : (s.appendSignature g).blkCnt = s.blkCnt := rfl
@[simp] theorem State.appendSignature_wordCnt (g : Signature) : (s.appendSignature g).wordCnt = satAdd s.wordCnt 1 := rfl
@[simp] theorem State.appendSignature_escEvents (g : Signature) : (s.appendSignature g).escEvents = s.escEvents := rfl
@[simp] theorem State.appendSignature_blkHits (g : Signature) : (s.appendSignature g).blkHits = (if g = .hit then satAdd s.blkHits 1 else s.blkHits) := rfl
@[simp] theorem State.appendSignature_blkMisses (g : Signature) : (s.appendSignature g).blkMisses = (if g = .miss then satAdd s.blkMisses 1 else s.blkMisses) := rfl
@[simp] theorem State.appendSignature_blkEscs (g : Signature) : (s.appendSignature g).blkEscs = (if g = .esc then satAdd s.blkEscs 1 else s.blkEscs) := rfl
@[simp] theorem State.appendSignature_dict (g : Signature) : (s.appendSignature g).dict = s.dict := rfl
@[simp] theorem State.appendSignature_sigBuf (g : Signature) : (s.appendSignature g).sigBuf = s.sigBuf ++ bitsMsb 2 g.code.toNat := rfl
@[simp] theorem State.appendSignature_predBuf (g : Signature) : (s.appendSignature g).predBuf = s.predBuf := rfl
@[simp] theorem State.appendSignature_rankBuf (g : Signature) : (s.appendSignature g).rankBuf = s.rankBuf := rfl
@[simp] theorem State.appendSignature_dictBuf (g : Signature) : (s.appendSignature g).dictBuf = s.dictBuf := rfl
@[simp] theorem State.appendSignature_encBuf (g : Signature) : (s.appendSignature g).encBuf = s.encBuf := rfl
@[simp] theorem State.appendSignature_resp (g : Signature) : (s.appendSignature g).resp = s.resp := rfl

/-! ### blockReset -/

@[simp] theorem State.blockReset_build : (s.blockReset).build = s.build := rfl
@[simp] theorem State.blockReset_port : (s.blockReset).port = s.port := rfl
@[simp] theorem State.blockReset_tick : (s.blockReset).tick = s.tick := rfl
@[simp] theorem State.blockReset_input : (s.blockReset).input = s.input := rfl
@[simp] theorem State.blockReset_inChanged : (s.blockReset).inChanged = s.inChanged := rfl
@[simp] theorem State.blockReset_out : (s.blockReset).out = s.out := rfl
@[simp] theorem State.blockReset_init : (s.blockReset).init = s.init := rfl
@[simp] theorem State.blockReset_mode : (s.blockReset).mode = s.mode := rfl
@[simp] theorem State.blockReset_wsel : (s.blockReset).wsel = s.wsel := rfl
@[simp] theorem State.blockReset_hbits : (s.blockReset).hbits = s.hbits := rfl
@[simp] theorem State.blockReset_bstate : (s.blockReset).bstate = .predicting := rfl
@[simp] theorem State.blockReset_sigCount : (s.blockReset).sigCount = 0 := rfl
@[simp] theorem State.blockReset_flushPending : (s.blockReset).flushPending = false := rfl
@[simp] theorem State.blockReset_finished : (s.blockReset).finished = s.finished := rfl
@[simp] theorem State.blockReset_tailDone : (s.blockReset).tailDone = s.tailDone := rfl
@[simp] theorem State.blockReset_lastb : (s.blockReset).lastb = s.lastb := rfl
@[simp] theorem State.blockReset_fault : (s.blockReset).fault = s.fault := rfl
@[simp] theorem State.blockReset_faultCode : (s.blockReset).faultCode = s.faultCode := rfl
@[simp] theorem State.blockReset_outPos : (s.blockReset).outPos = s.outPos := rfl
@[simp] theorem State.blockReset_outAvail : (s.blockReset).outAvail = s.outAvail := rfl
@[simp] theorem State.blockReset_inPos : (s.blockReset).inPos = s.inPos := rfl
@[simp] theorem State.blockReset_decRemain : (s.blockReset).decRemain = s.decRemain := rfl
@[simp] theorem State.blockReset_tailRem : (s.blockReset).tailRem = s.tailRem := rfl
@[simp] theorem State.blockReset_blkCnt : (s.blockReset).blkCnt = satAdd s.blkCnt 1 := rfl
@[simp] theorem State.blockReset_wordCnt : (s.blockReset).wordCnt = s.wordCnt := rfl
@[simp] theorem State.blockReset_escEvents : (s.blockReset).escEvents = s.escEvents := rfl
@[simp] theorem State.blockReset_blkHits : (s.blockReset).blkHits = 0 := rfl
@[simp] theorem State.blockReset_blkMisses : (s.blockReset).blkMisses = 0 := rfl
@[simp] theorem State.blockReset_blkEscs : (s.blockReset).blkEscs = 0 := rfl
@[simp] theorem State.blockReset_dict : (s.blockReset).dict = s.dict := rfl
@[simp] theorem State.blockReset_sigBuf : (s.blockReset).sigBuf = [] := rfl
@[simp] theorem State.blockReset_predBuf : (s.blockReset).predBuf = [] := rfl
@[simp] theorem State.blockReset_rankBuf : (s.blockReset).rankBuf = [] := rfl
@[simp] theorem State.blockReset_dictBuf : (s.blockReset).dictBuf = [] := rfl
@[simp] theorem State.blockReset_encBuf : (s.blockReset).encBuf = [] := rfl
@[simp] theorem State.blockReset_resp : (s.blockReset).resp = s.resp := rfl

/-! ### declareEnd -/

@[simp] theorem State.declareEnd_build : (s.declareEnd).build = s.build := rfl
@[simp] theorem State.declareEnd_port : (s.declareEnd).port = s.port := rfl
@[simp] theorem State.declareEnd_tick : (s.declareEnd).tick = s.tick := rfl
@[simp] theorem State.declareEnd_input : (s.declareEnd).input = s.input := rfl
@[simp] theorem State.declareEnd_inChanged : (s.declareEnd).inChanged = s.inChanged := rfl
@[simp] theorem State.declareEnd_out : (s.declareEnd).out = s.out := rfl
@[simp] theorem State.declareEnd_init : (s.declareEnd).init = s.init := rfl
@[simp] theorem State.declareEnd_mode : (s.declareEnd).mode = s.mode := rfl
@[simp] theorem State.declareEnd_wsel : (s.declareEnd).wsel = s.wsel := rfl
@[simp] theorem State.declareEnd_hbits : (s.declareEnd).hbits = s.hbits := rfl
@[simp] theorem State.declareEnd_bstate : (s.declareEnd).bstate = s.bstate := rfl
@[simp] theorem State.declareEnd_sigCount : (s.declareEnd).sigCount = s.sigCount := rfl
@[simp] theorem State.declareEnd_flushPending : (s.declareEnd).flushPending = s.flushPending := rfl
@[simp] theorem State.declareEnd_finished : (s.declareEnd).finished = true := rfl
@[simp] theorem State.declareEnd_tailDone : (s.declareEnd).tailDone = s.tailDone := rfl
@[simp] theorem State.declareEnd_lastb : (s.declareEnd).lastb = s.lastb := rfl
@[simp] theorem State.declareEnd_fault : (s.declareEnd).fault = s.fault := rfl
@[simp] theorem State.declareEnd_faultCode : (s.declareEnd).faultCode = s.faultCode := rfl
@[simp] theorem State.declareEnd_outPos : (s.declareEnd).outPos = s.outPos := rfl
@[simp] theorem State.declareEnd_outAvail : (s.declareEnd).outAvail = s.outAvail := rfl
@[simp] theorem State.declareEnd_inPos : (s.declareEnd).inPos = s.inPos := rfl
@[simp] theorem State.declareEnd_decRemain : (s.declareEnd).decRemain = s.decRemain := rfl
@[simp] theorem State.declareEnd_tailRem : (s.declareEnd).tailRem = s.tailRem := rfl
@[simp] theorem State.declareEnd_blkCnt : (s.declareEnd).blkCnt = s.blkCnt := rfl
@[simp] theorem State.declareEnd_wordCnt : (s.declareEnd).wordCnt = s.wordCnt := rfl
@[simp] theorem State.declareEnd_escEvents : (s.declareEnd).escEvents = s.escEvents := rfl
@[simp] theorem State.declareEnd_blkHits : (s.declareEnd).blkHits = s.blkHits := rfl
@[simp] theorem State.declareEnd_blkMisses : (s.declareEnd).blkMisses = s.blkMisses := rfl
@[simp] theorem State.declareEnd_blkEscs : (s.declareEnd).blkEscs = s.blkEscs := rfl
@[simp] theorem State.declareEnd_dict : (s.declareEnd).dict = s.dict := rfl
@[simp] theorem State.declareEnd_sigBuf : (s.declareEnd).sigBuf = s.sigBuf := rfl
@[simp] theorem State.declareEnd_predBuf : (s.declareEnd).predBuf = s.predBuf := rfl
@[simp] theorem State.declareEnd_rankBuf : (s.declareEnd).rankBuf = s.rankBuf := rfl
@[simp] theorem State.declareEnd_dictBuf : (s.declareEnd).dictBuf = s.dictBuf := rfl
@[simp] theorem State.declareEnd_encBuf : (s.declareEnd).encBuf = s.encBuf := rfl
@[simp] theorem State.declareEnd_resp : (s.declareEnd).resp = s.resp := rfl

/-! ### writeTail -/

@[simp] theorem State.writeTail_build (bs : List Byte) : (s.writeTail bs).build = s.build := rfl
@[simp] theorem State.writeTail_port (bs : List Byte) : (s.writeTail bs).port = s.port := rfl
@[simp] theorem State.writeTail_tick (bs : List Byte) : (s.writeTail bs).tick = s.tick := rfl
@[simp] theorem State.writeTail_input (bs : List Byte) : (s.writeTail bs).input = s.input := rfl
@[simp] theorem State.writeTail_inChanged (bs : List Byte) : (s.writeTail bs).inChanged = s.inChanged := rfl
@[simp] theorem State.writeTail_out (bs : List Byte) : (s.writeTail bs).out = s.out ++ bs := rfl
@[simp] theorem State.writeTail_init (bs : List Byte) : (s.writeTail bs).init = s.init := rfl
@[simp] theorem State.writeTail_mode (bs : List Byte) : (s.writeTail bs).mode = s.mode := rfl
@[simp] theorem State.writeTail_wsel (bs : List Byte) : (s.writeTail bs).wsel = s.wsel := rfl
@[simp] theorem State.writeTail_hbits (bs : List Byte) : (s.writeTail bs).hbits = s.hbits := rfl
@[simp] theorem State.writeTail_bstate (bs : List Byte) : (s.writeTail bs).bstate = s.bstate := rfl
@[simp] theorem State.writeTail_sigCount (bs : List Byte) : (s.writeTail bs).sigCount = s.sigCount := rfl
@[simp] theorem State.writeTail_flushPending (bs : List Byte) : (s.writeTail bs).flushPending = s.flushPending := rfl
@[simp] theorem State.writeTail_finished (bs : List Byte) : (s.writeTail bs).finished = s.finished := rfl
@[simp] theorem State.writeTail_tailDone (bs : List Byte) : (s.writeTail bs).tailDone = true := rfl
@[simp] theorem State.writeTail_lastb (bs : List Byte) : (s.writeTail bs).lastb = s.lastb := rfl
@[simp] theorem State.writeTail_fault (bs : List Byte) : (s.writeTail bs).fault = s.fault := rfl
@[simp] theorem State.writeTail_faultCode (bs : List Byte) : (s.writeTail bs).faultCode = s.faultCode := rfl
@[simp] theorem State.writeTail_outPos (bs : List Byte) : (s.writeTail bs).outPos = satAdd s.outPos bs.length := rfl
@[simp] theorem State.writeTail_outAvail (bs : List Byte) : (s.writeTail bs).outAvail = s.outAvail - BitVec.ofNat 64 bs.length := rfl
@[simp] theorem State.writeTail_inPos (bs : List Byte) : (s.writeTail bs).inPos = s.inPos := rfl
@[simp] theorem State.writeTail_decRemain (bs : List Byte) : (s.writeTail bs).decRemain = s.decRemain := rfl
@[simp] theorem State.writeTail_tailRem (bs : List Byte) : (s.writeTail bs).tailRem = s.tailRem := rfl
@[simp] theorem State.writeTail_blkCnt (bs : List Byte) : (s.writeTail bs).blkCnt = s.blkCnt := rfl
@[simp] theorem State.writeTail_wordCnt (bs : List Byte) : (s.writeTail bs).wordCnt = s.wordCnt := rfl
@[simp] theorem State.writeTail_escEvents (bs : List Byte) : (s.writeTail bs).escEvents = s.escEvents := rfl
@[simp] theorem State.writeTail_blkHits (bs : List Byte) : (s.writeTail bs).blkHits = s.blkHits := rfl
@[simp] theorem State.writeTail_blkMisses (bs : List Byte) : (s.writeTail bs).blkMisses = s.blkMisses := rfl
@[simp] theorem State.writeTail_blkEscs (bs : List Byte) : (s.writeTail bs).blkEscs = s.blkEscs := rfl
@[simp] theorem State.writeTail_dict (bs : List Byte) : (s.writeTail bs).dict = s.dict := rfl
@[simp] theorem State.writeTail_sigBuf (bs : List Byte) : (s.writeTail bs).sigBuf = s.sigBuf := rfl
@[simp] theorem State.writeTail_predBuf (bs : List Byte) : (s.writeTail bs).predBuf = s.predBuf := rfl
@[simp] theorem State.writeTail_rankBuf (bs : List Byte) : (s.writeTail bs).rankBuf = s.rankBuf := rfl
@[simp] theorem State.writeTail_dictBuf (bs : List Byte) : (s.writeTail bs).dictBuf = s.dictBuf := rfl
@[simp] theorem State.writeTail_encBuf (bs : List Byte) : (s.writeTail bs).encBuf = s.encBuf := rfl
@[simp] theorem State.writeTail_resp (bs : List Byte) : (s.writeTail bs).resp = s.resp := rfl

/-! ### commit -/

@[simp] theorem State.commit_build (p : ParsedBlock) (x : Replay) : (s.commit p x).build = s.build := rfl
@[simp] theorem State.commit_port (p : ParsedBlock) (x : Replay) : (s.commit p x).port = s.port := rfl
@[simp] theorem State.commit_tick (p : ParsedBlock) (x : Replay) : (s.commit p x).tick = s.tick := rfl
@[simp] theorem State.commit_input (p : ParsedBlock) (x : Replay) : (s.commit p x).input = s.input := rfl
@[simp] theorem State.commit_inChanged (p : ParsedBlock) (x : Replay) : (s.commit p x).inChanged = s.inChanged := rfl
@[simp] theorem State.commit_out (p : ParsedBlock) (x : Replay) : (s.commit p x).out = s.out ++ x.bytes := rfl
@[simp] theorem State.commit_init (p : ParsedBlock) (x : Replay) : (s.commit p x).init = s.init := rfl
@[simp] theorem State.commit_mode (p : ParsedBlock) (x : Replay) : (s.commit p x).mode = s.mode := rfl
@[simp] theorem State.commit_wsel (p : ParsedBlock) (x : Replay) : (s.commit p x).wsel = s.wsel := rfl
@[simp] theorem State.commit_hbits (p : ParsedBlock) (x : Replay) : (s.commit p x).hbits = s.hbits := rfl
@[simp] theorem State.commit_bstate (p : ParsedBlock) (x : Replay) : (s.commit p x).bstate = s.bstate := rfl
@[simp] theorem State.commit_sigCount (p : ParsedBlock) (x : Replay) : (s.commit p x).sigCount = s.sigCount := rfl
@[simp] theorem State.commit_flushPending (p : ParsedBlock) (x : Replay) : (s.commit p x).flushPending = s.flushPending := rfl
@[simp] theorem State.commit_finished (p : ParsedBlock) (x : Replay) : (s.commit p x).finished = s.finished := rfl
@[simp] theorem State.commit_tailDone (p : ParsedBlock) (x : Replay) : (s.commit p x).tailDone = s.tailDone := rfl
@[simp] theorem State.commit_lastb (p : ParsedBlock) (x : Replay) : (s.commit p x).lastb = x.lastb := rfl
@[simp] theorem State.commit_fault (p : ParsedBlock) (x : Replay) : (s.commit p x).fault = s.fault := rfl
@[simp] theorem State.commit_faultCode (p : ParsedBlock) (x : Replay) : (s.commit p x).faultCode = s.faultCode := rfl
@[simp] theorem State.commit_outPos (p : ParsedBlock) (x : Replay) : (s.commit p x).outPos = satAdd s.outPos x.bytes.length := rfl
@[simp] theorem State.commit_outAvail (p : ParsedBlock) (x : Replay) : (s.commit p x).outAvail = s.outAvail - BitVec.ofNat 64 x.bytes.length := rfl
@[simp] theorem State.commit_inPos (p : ParsedBlock) (x : Replay) : (s.commit p x).inPos = satAdd s.inPos (s.cursor.rest.length - p.rest.length) := rfl
@[simp] theorem State.commit_decRemain (p : ParsedBlock) (x : Replay) : (s.commit p x).decRemain = s.decRemain - BitVec.ofNat 64 p.sigs.length := rfl
@[simp] theorem State.commit_tailRem (p : ParsedBlock) (x : Replay) : (s.commit p x).tailRem = s.tailRem := rfl
@[simp] theorem State.commit_blkCnt (p : ParsedBlock) (x : Replay) : (s.commit p x).blkCnt = satAdd s.blkCnt 1 := rfl
@[simp] theorem State.commit_wordCnt (p : ParsedBlock) (x : Replay) : (s.commit p x).wordCnt = satAdd s.wordCnt p.sigs.length := rfl
@[simp] theorem State.commit_escEvents (p : ParsedBlock) (x : Replay) : (s.commit p x).escEvents = s.escEvents := rfl
@[simp] theorem State.commit_blkHits (p : ParsedBlock) (x : Replay) : (s.commit p x).blkHits = BitVec.ofNat 13 (p.sigs.count .hit) := rfl
@[simp] theorem State.commit_blkMisses (p : ParsedBlock) (x : Replay) : (s.commit p x).blkMisses = BitVec.ofNat 13 (p.sigs.count .miss) := rfl
@[simp] theorem State.commit_blkEscs (p : ParsedBlock) (x : Replay) : (s.commit p x).blkEscs = BitVec.ofNat 13 (p.sigs.count .esc) := rfl
@[simp] theorem State.commit_dict (p : ParsedBlock) (x : Replay) : (s.commit p x).dict = x.dict := rfl
@[simp] theorem State.commit_sigBuf (p : ParsedBlock) (x : Replay) : (s.commit p x).sigBuf = s.sigBuf := rfl
@[simp] theorem State.commit_predBuf (p : ParsedBlock) (x : Replay) : (s.commit p x).predBuf = s.predBuf := rfl
@[simp] theorem State.commit_rankBuf (p : ParsedBlock) (x : Replay) : (s.commit p x).rankBuf = s.rankBuf := rfl
@[simp] theorem State.commit_dictBuf (p : ParsedBlock) (x : Replay) : (s.commit p x).dictBuf = s.dictBuf := rfl
@[simp] theorem State.commit_encBuf (p : ParsedBlock) (x : Replay) : (s.commit p x).encBuf = s.encBuf := rfl
@[simp] theorem State.commit_resp (p : ParsedBlock) (x : Replay) : (s.commit p x).resp = s.resp := rfl

/-! ### copyTail -/

@[simp] theorem State.copyTail_build (bs : List Byte) : (s.copyTail bs).build = s.build := rfl
@[simp] theorem State.copyTail_port (bs : List Byte) : (s.copyTail bs).port = s.port := rfl
@[simp] theorem State.copyTail_tick (bs : List Byte) : (s.copyTail bs).tick = s.tick := rfl
@[simp] theorem State.copyTail_input (bs : List Byte) : (s.copyTail bs).input = s.input := rfl
@[simp] theorem State.copyTail_inChanged (bs : List Byte) : (s.copyTail bs).inChanged = s.inChanged := rfl
@[simp] theorem State.copyTail_out (bs : List Byte) : (s.copyTail bs).out = s.out ++ bs := rfl
@[simp] theorem State.copyTail_init (bs : List Byte) : (s.copyTail bs).init = s.init := rfl
@[simp] theorem State.copyTail_mode (bs : List Byte) : (s.copyTail bs).mode = s.mode := rfl
@[simp] theorem State.copyTail_wsel (bs : List Byte) : (s.copyTail bs).wsel = s.wsel := rfl
@[simp] theorem State.copyTail_hbits (bs : List Byte) : (s.copyTail bs).hbits = s.hbits := rfl
@[simp] theorem State.copyTail_bstate (bs : List Byte) : (s.copyTail bs).bstate = s.bstate := rfl
@[simp] theorem State.copyTail_sigCount (bs : List Byte) : (s.copyTail bs).sigCount = s.sigCount := rfl
@[simp] theorem State.copyTail_flushPending (bs : List Byte) : (s.copyTail bs).flushPending = s.flushPending := rfl
@[simp] theorem State.copyTail_finished (bs : List Byte) : (s.copyTail bs).finished = s.finished := rfl
@[simp] theorem State.copyTail_tailDone (bs : List Byte) : (s.copyTail bs).tailDone = true := rfl
@[simp] theorem State.copyTail_lastb (bs : List Byte) : (s.copyTail bs).lastb = s.lastb := rfl
@[simp] theorem State.copyTail_fault (bs : List Byte) : (s.copyTail bs).fault = s.fault := rfl
@[simp] theorem State.copyTail_faultCode (bs : List Byte) : (s.copyTail bs).faultCode = s.faultCode := rfl
@[simp] theorem State.copyTail_outPos (bs : List Byte) : (s.copyTail bs).outPos = satAdd s.outPos bs.length := rfl
@[simp] theorem State.copyTail_outAvail (bs : List Byte) : (s.copyTail bs).outAvail = s.outAvail - BitVec.ofNat 64 bs.length := rfl
@[simp] theorem State.copyTail_inPos (bs : List Byte) : (s.copyTail bs).inPos = satAdd s.inPos s.tailRem.toNat := rfl
@[simp] theorem State.copyTail_decRemain (bs : List Byte) : (s.copyTail bs).decRemain = s.decRemain := rfl
@[simp] theorem State.copyTail_tailRem (bs : List Byte) : (s.copyTail bs).tailRem = 0 := rfl
@[simp] theorem State.copyTail_blkCnt (bs : List Byte) : (s.copyTail bs).blkCnt = s.blkCnt := rfl
@[simp] theorem State.copyTail_wordCnt (bs : List Byte) : (s.copyTail bs).wordCnt = s.wordCnt := rfl
@[simp] theorem State.copyTail_escEvents (bs : List Byte) : (s.copyTail bs).escEvents = s.escEvents := rfl
@[simp] theorem State.copyTail_blkHits (bs : List Byte) : (s.copyTail bs).blkHits = s.blkHits := rfl
@[simp] theorem State.copyTail_blkMisses (bs : List Byte) : (s.copyTail bs).blkMisses = s.blkMisses := rfl
@[simp] theorem State.copyTail_blkEscs (bs : List Byte) : (s.copyTail bs).blkEscs = s.blkEscs := rfl
@[simp] theorem State.copyTail_dict (bs : List Byte) : (s.copyTail bs).dict = s.dict := rfl
@[simp] theorem State.copyTail_sigBuf (bs : List Byte) : (s.copyTail bs).sigBuf = s.sigBuf := rfl
@[simp] theorem State.copyTail_predBuf (bs : List Byte) : (s.copyTail bs).predBuf = s.predBuf := rfl
@[simp] theorem State.copyTail_rankBuf (bs : List Byte) : (s.copyTail bs).rankBuf = s.rankBuf := rfl
@[simp] theorem State.copyTail_dictBuf (bs : List Byte) : (s.copyTail bs).dictBuf = s.dictBuf := rfl
@[simp] theorem State.copyTail_encBuf (bs : List Byte) : (s.copyTail bs).encBuf = s.encBuf := rfl
@[simp] theorem State.copyTail_resp (bs : List Byte) : (s.copyTail bs).resp = s.resp := rfl

/-! ### grant -/

@[simp] theorem State.grant_build (n : BitVec 64) : (s.grant n).build = s.build := rfl
@[simp] theorem State.grant_port (n : BitVec 64) : (s.grant n).port = s.port := rfl
@[simp] theorem State.grant_tick (n : BitVec 64) : (s.grant n).tick = s.tick := rfl
@[simp] theorem State.grant_input (n : BitVec 64) : (s.grant n).input = s.input := rfl
@[simp] theorem State.grant_inChanged (n : BitVec 64) : (s.grant n).inChanged = s.inChanged := rfl
@[simp] theorem State.grant_out (n : BitVec 64) : (s.grant n).out = s.out := rfl
@[simp] theorem State.grant_init (n : BitVec 64) : (s.grant n).init = s.init := rfl
@[simp] theorem State.grant_mode (n : BitVec 64) : (s.grant n).mode = s.mode := rfl
@[simp] theorem State.grant_wsel (n : BitVec 64) : (s.grant n).wsel = s.wsel := rfl
@[simp] theorem State.grant_hbits (n : BitVec 64) : (s.grant n).hbits = s.hbits := rfl
@[simp] theorem State.grant_bstate (n : BitVec 64) : (s.grant n).bstate = s.bstate := rfl
@[simp] theorem State.grant_sigCount (n : BitVec 64) : (s.grant n).sigCount = s.sigCount := rfl
@[simp] theorem State.grant_flushPending (n : BitVec 64) : (s.grant n).flushPending = s.flushPending := rfl
@[simp] theorem State.grant_finished (n : BitVec 64) : (s.grant n).finished = s.finished := rfl
@[simp] theorem State.grant_tailDone (n : BitVec 64) : (s.grant n).tailDone = s.tailDone := rfl
@[simp] theorem State.grant_lastb (n : BitVec 64) : (s.grant n).lastb = s.lastb := rfl
@[simp] theorem State.grant_fault (n : BitVec 64) : (s.grant n).fault = s.fault := rfl
@[simp] theorem State.grant_faultCode (n : BitVec 64) : (s.grant n).faultCode = s.faultCode := rfl
@[simp] theorem State.grant_outPos (n : BitVec 64) : (s.grant n).outPos = s.outPos := rfl
@[simp] theorem State.grant_outAvail (n : BitVec 64) : (s.grant n).outAvail = satAdd s.outAvail n.toNat := rfl
@[simp] theorem State.grant_inPos (n : BitVec 64) : (s.grant n).inPos = s.inPos := rfl
@[simp] theorem State.grant_decRemain (n : BitVec 64) : (s.grant n).decRemain = s.decRemain := rfl
@[simp] theorem State.grant_tailRem (n : BitVec 64) : (s.grant n).tailRem = s.tailRem := rfl
@[simp] theorem State.grant_blkCnt (n : BitVec 64) : (s.grant n).blkCnt = s.blkCnt := rfl
@[simp] theorem State.grant_wordCnt (n : BitVec 64) : (s.grant n).wordCnt = s.wordCnt := rfl
@[simp] theorem State.grant_escEvents (n : BitVec 64) : (s.grant n).escEvents = s.escEvents := rfl
@[simp] theorem State.grant_blkHits (n : BitVec 64) : (s.grant n).blkHits = s.blkHits := rfl
@[simp] theorem State.grant_blkMisses (n : BitVec 64) : (s.grant n).blkMisses = s.blkMisses := rfl
@[simp] theorem State.grant_blkEscs (n : BitVec 64) : (s.grant n).blkEscs = s.blkEscs := rfl
@[simp] theorem State.grant_dict (n : BitVec 64) : (s.grant n).dict = s.dict := rfl
@[simp] theorem State.grant_sigBuf (n : BitVec 64) : (s.grant n).sigBuf = s.sigBuf := rfl
@[simp] theorem State.grant_predBuf (n : BitVec 64) : (s.grant n).predBuf = s.predBuf := rfl
@[simp] theorem State.grant_rankBuf (n : BitVec 64) : (s.grant n).rankBuf = s.rankBuf := rfl
@[simp] theorem State.grant_dictBuf (n : BitVec 64) : (s.grant n).dictBuf = s.dictBuf := rfl
@[simp] theorem State.grant_encBuf (n : BitVec 64) : (s.grant n).encBuf = s.encBuf := rfl
@[simp] theorem State.grant_resp (n : BitVec 64) : (s.grant n).resp = s.resp := rfl

/-! ### newContext -/

@[simp] theorem State.newContext_build (m : Mode) (w : WordSel) (h : BitVec 5) (d : BitVec 64) : (s.newContext m w h d).build = s.build := rfl
@[simp] theorem State.newContext_port (m : Mode) (w : WordSel) (h : BitVec 5) (d : BitVec 64) : (s.newContext m w h d).port = s.port := rfl
@[simp] theorem State.newContext_tick (m : Mode) (w : WordSel) (h : BitVec 5) (d : BitVec 64) : (s.newContext m w h d).tick = s.tick := rfl
@[simp] theorem State.newContext_input (m : Mode) (w : WordSel) (h : BitVec 5) (d : BitVec 64) : (s.newContext m w h d).input = s.input := rfl
@[simp] theorem State.newContext_inChanged (m : Mode) (w : WordSel) (h : BitVec 5) (d : BitVec 64) : (s.newContext m w h d).inChanged = false := rfl
@[simp] theorem State.newContext_out (m : Mode) (w : WordSel) (h : BitVec 5) (d : BitVec 64) : (s.newContext m w h d).out = s.out := rfl
@[simp] theorem State.newContext_init (m : Mode) (w : WordSel) (h : BitVec 5) (d : BitVec 64) : (s.newContext m w h d).init = true := rfl
@[simp] theorem State.newContext_mode (m : Mode) (w : WordSel) (h : BitVec 5) (d : BitVec 64) : (s.newContext m w h d).mode = m := rfl
@[simp] theorem State.newContext_wsel (m : Mode) (w : WordSel) (h : BitVec 5) (d : BitVec 64) : (s.newContext m w h d).wsel = w := rfl
@[simp] theorem State.newContext_hbits (m : Mode) (w : WordSel) (h : BitVec 5) (d : BitVec 64) : (s.newContext m w h d).hbits = h := rfl
@[simp] theorem State.newContext_bstate (m : Mode) (w : WordSel) (h : BitVec 5) (d : BitVec 64) : (s.newContext m w h d).bstate = .predicting := rfl
@[simp] theorem State.newContext_sigCount (m : Mode) (w : WordSel) (h : BitVec 5) (d : BitVec 64) : (s.newContext m w h d).sigCount = 0 := rfl
@[simp] theorem State.newContext_flushPending (m : Mode) (w : WordSel) (h : BitVec 5) (d : BitVec 64) : (s.newContext m w h d).flushPending = false := rfl
@[simp] theorem State.newContext_finished (m : Mode) (w : WordSel) (h : BitVec 5) (d : BitVec 64) : (s.newContext m w h d).finished = false := rfl
@[simp] theorem State.newContext_tailDone (m : Mode) (w : WordSel) (h : BitVec 5) (d : BitVec 64) : (s.newContext m w h d).tailDone = false := rfl
@[simp] theorem State.newContext_lastb (m : Mode) (w : WordSel) (h : BitVec 5) (d : BitVec 64) : (s.newContext m w h d).lastb = 0 := rfl
@[simp] theorem State.newContext_fault (m : Mode) (w : WordSel) (h : BitVec 5) (d : BitVec 64) : (s.newContext m w h d).fault = false := rfl
@[simp] theorem State.newContext_faultCode (m : Mode) (w : WordSel) (h : BitVec 5) (d : BitVec 64) : (s.newContext m w h d).faultCode = .none := rfl
@[simp] theorem State.newContext_outPos (m : Mode) (w : WordSel) (h : BitVec 5) (d : BitVec 64) : (s.newContext m w h d).outPos = 0 := rfl
@[simp] theorem State.newContext_outAvail (m : Mode) (w : WordSel) (h : BitVec 5) (d : BitVec 64) : (s.newContext m w h d).outAvail = 0 := rfl
@[simp] theorem State.newContext_inPos (m : Mode) (w : WordSel) (h : BitVec 5) (d : BitVec 64) : (s.newContext m w h d).inPos = 0 := rfl
@[simp] theorem State.newContext_decRemain (m : Mode) (w : WordSel) (h : BitVec 5) (d : BitVec 64) : (s.newContext m w h d).decRemain = initialRemain m w d := rfl
@[simp] theorem State.newContext_tailRem (m : Mode) (w : WordSel) (h : BitVec 5) (d : BitVec 64) : (s.newContext m w h d).tailRem = initialTail m w d := rfl
@[simp] theorem State.newContext_blkCnt (m : Mode) (w : WordSel) (h : BitVec 5) (d : BitVec 64) : (s.newContext m w h d).blkCnt = 0 := rfl
@[simp] theorem State.newContext_wordCnt (m : Mode) (w : WordSel) (h : BitVec 5) (d : BitVec 64) : (s.newContext m w h d).wordCnt = 0 := rfl
@[simp] theorem State.newContext_escEvents (m : Mode) (w : WordSel) (h : BitVec 5) (d : BitVec 64) : (s.newContext m w h d).escEvents = 0 := rfl
@[simp] theorem State.newContext_blkHits (m : Mode) (w : WordSel) (h : BitVec 5) (d : BitVec 64) : (s.newContext m w h d).blkHits = 0 := rfl
@[simp] theorem State.newContext_blkMisses (m : Mode) (w : WordSel) (h : BitVec 5) (d : BitVec 64) : (s.newContext m w h d).blkMisses = 0 := rfl
@[simp] theorem State.newContext_blkEscs (m : Mode) (w : WordSel) (h : BitVec 5) (d : BitVec 64) : (s.newContext m w h d).blkEscs = 0 := rfl
@[simp] theorem State.newContext_dict (m : Mode) (w : WordSel) (h : BitVec 5) (d : BitVec 64) : (s.newContext m w h d).dict = Memory.empty := rfl
@[simp] theorem State.newContext_sigBuf (m : Mode) (w : WordSel) (h : BitVec 5) (d : BitVec 64) : (s.newContext m w h d).sigBuf = [] := rfl
@[simp] theorem State.newContext_predBuf (m : Mode) (w : WordSel) (h : BitVec 5) (d : BitVec 64) : (s.newContext m w h d).predBuf = [] := rfl
@[simp] theorem State.newContext_rankBuf (m : Mode) (w : WordSel) (h : BitVec 5) (d : BitVec 64) : (s.newContext m w h d).rankBuf = [] := rfl
@[simp] theorem State.newContext_dictBuf (m : Mode) (w : WordSel) (h : BitVec 5) (d : BitVec 64) : (s.newContext m w h d).dictBuf = [] := rfl
@[simp] theorem State.newContext_encBuf (m : Mode) (w : WordSel) (h : BitVec 5) (d : BitVec 64) : (s.newContext m w h d).encBuf = [] := rfl
@[simp] theorem State.newContext_resp (m : Mode) (w : WordSel) (h : BitVec 5) (d : BitVec 64) : (s.newContext m w h d).resp = s.resp := rfl

/-! ### presentInput -/

@[simp] theorem State.presentInput_build (bs : List Byte) : (s.presentInput bs).build = s.build := rfl
@[simp] theorem State.presentInput_port (bs : List Byte) : (s.presentInput bs).port = s.port := rfl
@[simp] theorem State.presentInput_tick (bs : List Byte) : (s.presentInput bs).tick = s.tick := rfl
@[simp] theorem State.presentInput_input (bs : List Byte) : (s.presentInput bs).input = bs := rfl
@[simp] theorem State.presentInput_inChanged (bs : List Byte) : (s.presentInput bs).inChanged = (s.inChanged || (s.decActive && decide (bs ≠ s.input))) := rfl
@[simp] theorem State.presentInput_out (bs : List Byte) : (s.presentInput bs).out = s.out := rfl
@[simp] theorem State.presentInput_init (bs : List Byte) : (s.presentInput bs).init = s.init := rfl
@[simp] theorem State.presentInput_mode (bs : List Byte) : (s.presentInput bs).mode = s.mode := rfl
@[simp] theorem State.presentInput_wsel (bs : List Byte) : (s.presentInput bs).wsel = s.wsel := rfl
@[simp] theorem State.presentInput_hbits (bs : List Byte) : (s.presentInput bs).hbits = s.hbits := rfl
@[simp] theorem State.presentInput_bstate (bs : List Byte) : (s.presentInput bs).bstate = s.bstate := rfl
@[simp] theorem State.presentInput_sigCount (bs : List Byte) : (s.presentInput bs).sigCount = s.sigCount := rfl
@[simp] theorem State.presentInput_flushPending (bs : List Byte) : (s.presentInput bs).flushPending = s.flushPending := rfl
@[simp] theorem State.presentInput_finished (bs : List Byte) : (s.presentInput bs).finished = s.finished := rfl
@[simp] theorem State.presentInput_tailDone (bs : List Byte) : (s.presentInput bs).tailDone = s.tailDone := rfl
@[simp] theorem State.presentInput_lastb (bs : List Byte) : (s.presentInput bs).lastb = s.lastb := rfl
@[simp] theorem State.presentInput_fault (bs : List Byte) : (s.presentInput bs).fault = s.fault := rfl
@[simp] theorem State.presentInput_faultCode (bs : List Byte) : (s.presentInput bs).faultCode = s.faultCode := rfl
@[simp] theorem State.presentInput_outPos (bs : List Byte) : (s.presentInput bs).outPos = s.outPos := rfl
@[simp] theorem State.presentInput_outAvail (bs : List Byte) : (s.presentInput bs).outAvail = s.outAvail := rfl
@[simp] theorem State.presentInput_inPos (bs : List Byte) : (s.presentInput bs).inPos = s.inPos := rfl
@[simp] theorem State.presentInput_decRemain (bs : List Byte) : (s.presentInput bs).decRemain = s.decRemain := rfl
@[simp] theorem State.presentInput_tailRem (bs : List Byte) : (s.presentInput bs).tailRem = s.tailRem := rfl
@[simp] theorem State.presentInput_blkCnt (bs : List Byte) : (s.presentInput bs).blkCnt = s.blkCnt := rfl
@[simp] theorem State.presentInput_wordCnt (bs : List Byte) : (s.presentInput bs).wordCnt = s.wordCnt := rfl
@[simp] theorem State.presentInput_escEvents (bs : List Byte) : (s.presentInput bs).escEvents = s.escEvents := rfl
@[simp] theorem State.presentInput_blkHits (bs : List Byte) : (s.presentInput bs).blkHits = s.blkHits := rfl
@[simp] theorem State.presentInput_blkMisses (bs : List Byte) : (s.presentInput bs).blkMisses = s.blkMisses := rfl
@[simp] theorem State.presentInput_blkEscs (bs : List Byte) : (s.presentInput bs).blkEscs = s.blkEscs := rfl
@[simp] theorem State.presentInput_dict (bs : List Byte) : (s.presentInput bs).dict = s.dict := rfl
@[simp] theorem State.presentInput_sigBuf (bs : List Byte) : (s.presentInput bs).sigBuf = s.sigBuf := rfl
@[simp] theorem State.presentInput_predBuf (bs : List Byte) : (s.presentInput bs).predBuf = s.predBuf := rfl
@[simp] theorem State.presentInput_rankBuf (bs : List Byte) : (s.presentInput bs).rankBuf = s.rankBuf := rfl
@[simp] theorem State.presentInput_dictBuf (bs : List Byte) : (s.presentInput bs).dictBuf = s.dictBuf := rfl
@[simp] theorem State.presentInput_encBuf (bs : List Byte) : (s.presentInput bs).encBuf = s.encBuf := rfl
@[simp] theorem State.presentInput_resp (bs : List Byte) : (s.presentInput bs).resp = s.resp := rfl

/-! ### taken -/

@[simp] theorem State.taken_build (rest : List HostAction) : (s.taken rest).build = s.build := rfl
@[simp] theorem State.taken_port (rest : List HostAction) : (s.taken rest).port = rest := rfl
@[simp] theorem State.taken_tick (rest : List HostAction) : (s.taken rest).tick = s.tick + 1 := rfl
@[simp] theorem State.taken_input (rest : List HostAction) : (s.taken rest).input = s.input := rfl
@[simp] theorem State.taken_inChanged (rest : List HostAction) : (s.taken rest).inChanged = s.inChanged := rfl
@[simp] theorem State.taken_out (rest : List HostAction) : (s.taken rest).out = s.out := rfl
@[simp] theorem State.taken_init (rest : List HostAction) : (s.taken rest).init = s.init := rfl
@[simp] theorem State.taken_mode (rest : List HostAction) : (s.taken rest).mode = s.mode := rfl
@[simp] theorem State.taken_wsel (rest : List HostAction) : (s.taken rest).wsel = s.wsel := rfl
@[simp] theorem State.taken_hbits (rest : List HostAction) : (s.taken rest).hbits = s.hbits := rfl
@[simp] theorem State.taken_bstate (rest : List HostAction) : (s.taken rest).bstate = s.bstate := rfl
@[simp] theorem State.taken_sigCount (rest : List HostAction) : (s.taken rest).sigCount = s.sigCount := rfl
@[simp] theorem State.taken_flushPending (rest : List HostAction) : (s.taken rest).flushPending = s.flushPending := rfl
@[simp] theorem State.taken_finished (rest : List HostAction) : (s.taken rest).finished = s.finished := rfl
@[simp] theorem State.taken_tailDone (rest : List HostAction) : (s.taken rest).tailDone = s.tailDone := rfl
@[simp] theorem State.taken_lastb (rest : List HostAction) : (s.taken rest).lastb = s.lastb := rfl
@[simp] theorem State.taken_fault (rest : List HostAction) : (s.taken rest).fault = s.fault := rfl
@[simp] theorem State.taken_faultCode (rest : List HostAction) : (s.taken rest).faultCode = s.faultCode := rfl
@[simp] theorem State.taken_outPos (rest : List HostAction) : (s.taken rest).outPos = s.outPos := rfl
@[simp] theorem State.taken_outAvail (rest : List HostAction) : (s.taken rest).outAvail = s.outAvail := rfl
@[simp] theorem State.taken_inPos (rest : List HostAction) : (s.taken rest).inPos = s.inPos := rfl
@[simp] theorem State.taken_decRemain (rest : List HostAction) : (s.taken rest).decRemain = s.decRemain := rfl
@[simp] theorem State.taken_tailRem (rest : List HostAction) : (s.taken rest).tailRem = s.tailRem := rfl
@[simp] theorem State.taken_blkCnt (rest : List HostAction) : (s.taken rest).blkCnt = s.blkCnt := rfl
@[simp] theorem State.taken_wordCnt (rest : List HostAction) : (s.taken rest).wordCnt = s.wordCnt := rfl
@[simp] theorem State.taken_escEvents (rest : List HostAction) : (s.taken rest).escEvents = s.escEvents := rfl
@[simp] theorem State.taken_blkHits (rest : List HostAction) : (s.taken rest).blkHits = s.blkHits := rfl
@[simp] theorem State.taken_blkMisses (rest : List HostAction) : (s.taken rest).blkMisses = s.blkMisses := rfl
@[simp] theorem State.taken_blkEscs (rest : List HostAction) : (s.taken rest).blkEscs = s.blkEscs := rfl
@[simp] theorem State.taken_dict (rest : List HostAction) : (s.taken rest).dict = s.dict := rfl
@[simp] theorem State.taken_sigBuf (rest : List HostAction) : (s.taken rest).sigBuf = s.sigBuf := rfl
@[simp] theorem State.taken_predBuf (rest : List HostAction) : (s.taken rest).predBuf = s.predBuf := rfl
@[simp] theorem State.taken_rankBuf (rest : List HostAction) : (s.taken rest).rankBuf = s.rankBuf := rfl
@[simp] theorem State.taken_dictBuf (rest : List HostAction) : (s.taken rest).dictBuf = s.dictBuf := rfl
@[simp] theorem State.taken_encBuf (rest : List HostAction) : (s.taken rest).encBuf = s.encBuf := rfl
@[simp] theorem State.taken_resp (rest : List HostAction) : (s.taken rest).resp = s.resp := rfl

/-! ### withCommand -/

@[simp] theorem State.withCommand_build (c : Command) : (s.withCommand c).build = s.build := rfl
@[simp] theorem State.withCommand_port (c : Command) : (s.withCommand c).port = .issue c :: s.port := rfl
@[simp] theorem State.withCommand_tick (c : Command) : (s.withCommand c).tick = s.tick := rfl
@[simp] theorem State.withCommand_input (c : Command) : (s.withCommand c).input = s.input := rfl
@[simp] theorem State.withCommand_inChanged (c : Command) : (s.withCommand c).inChanged = s.inChanged := rfl
@[simp] theorem State.withCommand_out (c : Command) : (s.withCommand c).out = s.out := rfl
@[simp] theorem State.withCommand_init (c : Command) : (s.withCommand c).init = s.init := rfl
@[simp] theorem State.withCommand_mode (c : Command) : (s.withCommand c).mode = s.mode := rfl
@[simp] theorem State.withCommand_wsel (c : Command) : (s.withCommand c).wsel = s.wsel := rfl
@[simp] theorem State.withCommand_hbits (c : Command) : (s.withCommand c).hbits = s.hbits := rfl
@[simp] theorem State.withCommand_bstate (c : Command) : (s.withCommand c).bstate = s.bstate := rfl
@[simp] theorem State.withCommand_sigCount (c : Command) : (s.withCommand c).sigCount = s.sigCount := rfl
@[simp] theorem State.withCommand_flushPending (c : Command) : (s.withCommand c).flushPending = s.flushPending := rfl
@[simp] theorem State.withCommand_finished (c : Command) : (s.withCommand c).finished = s.finished := rfl
@[simp] theorem State.withCommand_tailDone (c : Command) : (s.withCommand c).tailDone = s.tailDone := rfl
@[simp] theorem State.withCommand_lastb (c : Command) : (s.withCommand c).lastb = s.lastb := rfl
@[simp] theorem State.withCommand_fault (c : Command) : (s.withCommand c).fault = s.fault := rfl
@[simp] theorem State.withCommand_faultCode (c : Command) : (s.withCommand c).faultCode = s.faultCode := rfl
@[simp] theorem State.withCommand_outPos (c : Command) : (s.withCommand c).outPos = s.outPos := rfl
@[simp] theorem State.withCommand_outAvail (c : Command) : (s.withCommand c).outAvail = s.outAvail := rfl
@[simp] theorem State.withCommand_inPos (c : Command) : (s.withCommand c).inPos = s.inPos := rfl
@[simp] theorem State.withCommand_decRemain (c : Command) : (s.withCommand c).decRemain = s.decRemain := rfl
@[simp] theorem State.withCommand_tailRem (c : Command) : (s.withCommand c).tailRem = s.tailRem := rfl
@[simp] theorem State.withCommand_blkCnt (c : Command) : (s.withCommand c).blkCnt = s.blkCnt := rfl
@[simp] theorem State.withCommand_wordCnt (c : Command) : (s.withCommand c).wordCnt = s.wordCnt := rfl
@[simp] theorem State.withCommand_escEvents (c : Command) : (s.withCommand c).escEvents = s.escEvents := rfl
@[simp] theorem State.withCommand_blkHits (c : Command) : (s.withCommand c).blkHits = s.blkHits := rfl
@[simp] theorem State.withCommand_blkMisses (c : Command) : (s.withCommand c).blkMisses = s.blkMisses := rfl
@[simp] theorem State.withCommand_blkEscs (c : Command) : (s.withCommand c).blkEscs = s.blkEscs := rfl
@[simp] theorem State.withCommand_dict (c : Command) : (s.withCommand c).dict = s.dict := rfl
@[simp] theorem State.withCommand_sigBuf (c : Command) : (s.withCommand c).sigBuf = s.sigBuf := rfl
@[simp] theorem State.withCommand_predBuf (c : Command) : (s.withCommand c).predBuf = s.predBuf := rfl
@[simp] theorem State.withCommand_rankBuf (c : Command) : (s.withCommand c).rankBuf = s.rankBuf := rfl
@[simp] theorem State.withCommand_dictBuf (c : Command) : (s.withCommand c).dictBuf = s.dictBuf := rfl
@[simp] theorem State.withCommand_encBuf (c : Command) : (s.withCommand c).encBuf = s.encBuf := rfl
@[simp] theorem State.withCommand_resp (c : Command) : (s.withCommand c).resp = s.resp := rfl

/-! ### hardReset -/

@[simp] theorem State.hardReset_build : (s.hardReset).build = s.build := rfl
@[simp] theorem State.hardReset_port : (s.hardReset).port = s.port := rfl
@[simp] theorem State.hardReset_tick : (s.hardReset).tick = s.tick := rfl
@[simp] theorem State.hardReset_input : (s.hardReset).input = s.input := rfl
@[simp] theorem State.hardReset_inChanged : (s.hardReset).inChanged = false := rfl
@[simp] theorem State.hardReset_out : (s.hardReset).out = s.out := rfl
@[simp] theorem State.hardReset_init : (s.hardReset).init = false := rfl
@[simp] theorem State.hardReset_mode : (s.hardReset).mode = .enc := rfl
@[simp] theorem State.hardReset_wsel : (s.hardReset).wsel = .w4 := rfl
@[simp] theorem State.hardReset_hbits : (s.hardReset).hbits = 0 := rfl
@[simp] theorem State.hardReset_bstate : (s.hardReset).bstate = .predicting := rfl
@[simp] theorem State.hardReset_sigCount : (s.hardReset).sigCount = 0 := rfl
@[simp] theorem State.hardReset_flushPending : (s.hardReset).flushPending = false := rfl
@[simp] theorem State.hardReset_finished : (s.hardReset).finished = false := rfl
@[simp] theorem State.hardReset_tailDone : (s.hardReset).tailDone = false := rfl
@[simp] theorem State.hardReset_lastb : (s.hardReset).lastb = 0 := rfl
@[simp] theorem State.hardReset_fault : (s.hardReset).fault = false := rfl
@[simp] theorem State.hardReset_faultCode : (s.hardReset).faultCode = .none := rfl
@[simp] theorem State.hardReset_outPos : (s.hardReset).outPos = 0 := rfl
@[simp] theorem State.hardReset_outAvail : (s.hardReset).outAvail = 0 := rfl
@[simp] theorem State.hardReset_inPos : (s.hardReset).inPos = 0 := rfl
@[simp] theorem State.hardReset_decRemain : (s.hardReset).decRemain = 0 := rfl
@[simp] theorem State.hardReset_tailRem : (s.hardReset).tailRem = 0 := rfl
@[simp] theorem State.hardReset_blkCnt : (s.hardReset).blkCnt = 0 := rfl
@[simp] theorem State.hardReset_wordCnt : (s.hardReset).wordCnt = 0 := rfl
@[simp] theorem State.hardReset_escEvents : (s.hardReset).escEvents = 0 := rfl
@[simp] theorem State.hardReset_blkHits : (s.hardReset).blkHits = 0 := rfl
@[simp] theorem State.hardReset_blkMisses : (s.hardReset).blkMisses = 0 := rfl
@[simp] theorem State.hardReset_blkEscs : (s.hardReset).blkEscs = 0 := rfl
@[simp] theorem State.hardReset_dict : (s.hardReset).dict = Memory.empty := rfl
@[simp] theorem State.hardReset_sigBuf : (s.hardReset).sigBuf = [] := rfl
@[simp] theorem State.hardReset_predBuf : (s.hardReset).predBuf = [] := rfl
@[simp] theorem State.hardReset_rankBuf : (s.hardReset).rankBuf = [] := rfl
@[simp] theorem State.hardReset_dictBuf : (s.hardReset).dictBuf = [] := rfl
@[simp] theorem State.hardReset_encBuf : (s.hardReset).encBuf = [] := rfl
@[simp] theorem State.hardReset_resp : (s.hardReset).resp = ⟨.ok, false, 0⟩ := rfl

end Sys2Proof.Machine
end

