-- ==== Sys2Proof/Laws/Stream.lean ====
section
/-! SUPPORT. The access primitives of 20_memory.md R64 to R67: what a read gives, and that a stream is read back as it was
written. -/

namespace Sys2Proof.Machine

/-! ### Bytes as bits -/

/-- R64: the bits of a byte sequence, the most significant bit of the first byte first. -/
def bitsOf (l : List Byte) : List Bool := l.flatMap (fun b => bitsMsb 8 b.toNat)

@[simp] theorem bitsOf_nil : bitsOf [] = [] := rfl

theorem bitsOf_cons (b : Byte) (l : List Byte) : bitsOf (b :: l) = bitsMsb 8 b.toNat ++ bitsOf l := by
  simp [bitsOf]

@[simp] theorem bitsOf_append (l l' : List Byte) : bitsOf (l ++ l') = bitsOf l ++ bitsOf l' := by
  simp [bitsOf]

@[simp] theorem bitsOf_length (l : List Byte) : (bitsOf l).length = 8 * l.length := by
  induction l with
  | nil => rfl
  | cons b l ih =>
    simp only [bitsOf_cons, List.length_append, bitsMsb_length, ih, List.length_cons]
    omega

theorem Cursor.bits_eq (c : Cursor) : c.bits = (bitsOf c.rest).drop c.bit := rfl

/-- The value of a bit list, the most significant bit first, after the bits of `acc`. -/
def bitsValueFrom : Nat → List Bool → Nat
  | acc, [] => acc
  | acc, b :: bs => bitsValueFrom (2 * acc + b.toNat) bs

/-- The value of a bit list, the most significant bit first. -/
def bitsValue (s : List Bool) : Nat := bitsValueFrom 0 s

theorem bitsValueFrom_eq (acc : Nat) (s : List Bool) : bitsValueFrom acc s = acc * 2 ^ s.length + bitsValue s := by
  induction s generalizing acc with
  | nil => simp [bitsValueFrom, bitsValue]
  | cons b bs ih =>
    unfold bitsValue
    simp only [bitsValueFrom]
    rw [ih, ih (2 * 0 + b.toNat)]
    simp only [List.length_cons, Nat.pow_succ]
    ring

theorem bitsValueFrom_append (acc : Nat) (s t : List Bool) :
    bitsValueFrom acc (s ++ t) = bitsValueFrom (bitsValueFrom acc s) t := by
  induction s generalizing acc with
  | nil => rfl
  | cons b bs ih => simp only [List.cons_append, bitsValueFrom, ih]

theorem bitsValue_lt (s : List Bool) : bitsValue s < 2 ^ s.length := by
  induction s with
  | nil => simp [bitsValue, bitsValueFrom]
  | cons b bs ih =>
    have h : bitsValue (b :: bs) = b.toNat * 2 ^ bs.length + bitsValue bs := by
      unfold bitsValue
      simp only [bitsValueFrom]
      rw [bitsValueFrom_eq]
      simp [bitsValue]
    have hb : b.toNat ≤ 1 := by cases b <;> simp
    rw [h, List.length_cons, Nat.pow_succ]
    have : b.toNat * 2 ^ bs.length ≤ 1 * 2 ^ bs.length := Nat.mul_le_mul_right _ hb
    omega

theorem bitsMsb_succ_value (n v : Nat) : v % 2 ^ (n + 1) = (v.testBit n).toNat * 2 ^ n + v % 2 ^ n := by
  have hp : 0 < 2 ^ n := Nat.two_pow_pos n
  have h1 : v % 2 ^ (n + 1) = 2 ^ n * (v / 2 ^ n % 2) + v % 2 ^ n := by
    rw [Nat.pow_succ, Nat.mod_mul]
    omega
  rw [h1, Nat.testBit_eq_decide_div_mod_eq]
  rcases Nat.mod_two_eq_zero_or_one (v / 2 ^ n) with h | h <;> simp [h]

/-- R64: the value of the n bits of v is v modulo 2^n. -/
@[simp] theorem bitsValue_bitsMsb (n v : Nat) : bitsValue (bitsMsb n v) = v % 2 ^ n := by
  induction n with
  | zero => simp [bitsMsb, bitsValue, bitsValueFrom, Nat.mod_one]
  | succ n ih =>
    have h : bitsValue (bitsMsb (n + 1) v) = (v.testBit n).toNat * 2 ^ n + bitsValue (bitsMsb n v) := by
      simp only [bitsMsb, bitsValue, bitsValueFrom]
      rw [bitsValueFrom_eq]
      simp [bitsValue]
    rw [h, ih, bitsMsb_succ_value]

/-- R64: a bit list is the bits of its value. -/
theorem bitsMsb_bitsValue (s : List Bool) : bitsMsb s.length (bitsValue s) = s := by
  apply List.ext_getElem (by simp)
  intro k h1 h2
  induction s generalizing k with
  | nil => simp at h2
  | cons b bs ih =>
    have hv : bitsValue (b :: bs) = b.toNat * 2 ^ bs.length + bitsValue bs := by
      unfold bitsValue
      simp only [bitsValueFrom]
      rw [bitsValueFrom_eq]
      simp [bitsValue]
    have hlt := bitsValue_lt bs
    have hmod : bitsValue (b :: bs) % 2 ^ bs.length = bitsValue bs := by
      rw [hv, Nat.mul_comm, Nat.mul_add_mod, Nat.mod_eq_of_lt hlt]
    have hdiv : bitsValue (b :: bs) / 2 ^ bs.length = b.toNat := by
      rw [hv, Nat.mul_comm, Nat.mul_add_div (Nat.two_pow_pos _), Nat.div_eq_of_lt hlt, Nat.add_zero]
    cases k with
    | zero =>
      simp only [List.length_cons, bitsMsb, List.getElem_cons_zero, Nat.testBit_eq_decide_div_mod_eq, hdiv]
      cases b <;> simp
    | succ k =>
      have hk : k < bs.length := by simpa using h2
      simp only [List.length_cons, bitsMsb, List.getElem_cons_succ]
      rw [bitsMsb_getElem, ← ih k (by simpa using hk) hk, bitsMsb_getElem, ← hmod, Nat.testBit_mod_two_pow]
      have : bs.length - 1 - k < bs.length := by omega
      simp [this]

/-! ### What a packed stream holds -/

theorem bitsMsb_add (m n a v : Nat) (hv : v < 2 ^ n) : bitsMsb (m + n) (a * 2 ^ n + v) = bitsMsb m a ++ bitsMsb n v := by
  have h : bitsMsb m a ++ bitsMsb n v = bitsMsb (bitsMsb m a ++ bitsMsb n v).length (bitsValue (bitsMsb m a ++ bitsMsb n v)) :=
    (bitsMsb_bitsValue _).symm
  have hval : bitsValue (bitsMsb m a ++ bitsMsb n v) = a % 2 ^ m * 2 ^ n + v := by
    unfold bitsValue
    rw [bitsValueFrom_append, bitsValueFrom_eq]
    have := bitsValue_bitsMsb m a
    unfold bitsValue at this
    rw [this]
    have h2 := bitsValue_bitsMsb n v
    rw [h2, bitsMsb_length, Nat.mod_eq_of_lt hv]
  rw [h, hval]
  simp only [List.length_append, bitsMsb_length]
  apply List.ext_getElem (by simp)
  intro k h1 h2
  rw [bitsMsb_getElem, bitsMsb_getElem]
  have hk : k < m + n := by simpa using h1
  have hlt : m + n - 1 - k < m + n := by omega
  have e : (a * 2 ^ n + v) % 2 ^ (m + n) = (a % 2 ^ m * 2 ^ n + v) := by
    rw [Nat.add_comm m n, Nat.pow_add, Nat.mod_mul, Nat.mul_comm a, Nat.mul_add_mod, Nat.mod_eq_of_lt hv,
      Nat.mul_add_div (Nat.two_pow_pos _), Nat.div_eq_of_lt hv, Nat.add_zero]
    ring
  rw [← e, Nat.testBit_mod_two_pow]
  simp [hlt]

theorem bitsOf_packFrom (acc k : Nat) (s : List Bool) (hk : k ≤ 7) (hacc : acc < 2 ^ k) :
    bitsOf (packFrom acc k s) = bitsMsb k acc ++ s ++ List.replicate (8 * ceil8 (k + s.length) - (k + s.length)) false := by
  induction s generalizing acc k with
  | nil =>
    unfold packFrom
    split
    · rename_i h
      subst h
      simp [ceil8, bitsMsb]
    · have h1 : 8 = k + (8 - k) := by omega
      have hlt : acc * 2 ^ (8 - k) < 256 := by
        calc acc * 2 ^ (8 - k) < 2 ^ k * 2 ^ (8 - k) := Nat.mul_lt_mul_of_pos_right hacc (Nat.two_pow_pos _)
          _ = 2 ^ 8 := by rw [← Nat.pow_add, ← h1]
          _ = 256 := rfl
      have h2 : bitsMsb 8 (acc * 2 ^ (8 - k)) = bitsMsb k acc ++ bitsMsb (8 - k) 0 := by
        conv => lhs; rw [h1]
        simpa using bitsMsb_add k (8 - k) acc 0 (Nat.two_pow_pos _)
      have h3 : ∀ n, bitsMsb n 0 = List.replicate n false := by
        intro n
        induction n with
        | zero => rfl
        | succ n ih => simp [bitsMsb, ih, List.replicate_succ]
      have h4 : 8 * ceil8 (k + 0) - (k + 0) = 8 - k := by
        unfold ceil8
        omega
      simp only [bitsOf_cons, bitsOf_nil, BitVec.toNat_ofNat, List.append_nil, List.length_nil, h4]
      rw [Nat.mod_eq_of_lt hlt, h2, h3]
  | cons b bs ih =>
    have hstep : bitsMsb (k + 1) (2 * acc + b.toNat) = bitsMsb k acc ++ [b] := by
      have hb : b.toNat < 2 ^ 1 := by cases b <;> simp
      have := bitsMsb_add k 1 acc b.toNat hb
      rw [show acc * 2 ^ 1 + b.toNat = 2 * acc + b.toNat by ring] at this
      rw [this]
      cases b <;> simp [bitsMsb]
    unfold packFrom
    split
    · rename_i h
      subst h
      have hb : b.toNat ≤ 1 := by cases b <;> simp
      have hlt : 2 * acc + b.toNat < 256 := by omega
      have h8 : bitsMsb 8 (2 * acc + b.toNat) = bitsMsb 7 acc ++ [b] := hstep
      have hpad : 8 * ceil8 (7 + (bs.length + 1)) - (7 + (bs.length + 1)) = 8 * ceil8 (0 + bs.length) - (0 + bs.length) := by
        unfold ceil8
        omega
      rw [bitsOf_cons, ih 0 0 (by omega) (by simp), BitVec.toNat_ofNat, Nat.mod_eq_of_lt hlt, h8, List.length_cons, hpad]
      simp only [List.cons_append, List.nil_append, bitsMsb]
    · rename_i h
      have hb : b.toNat ≤ 1 := by cases b <;> simp
      have hl : k + 1 + bs.length = k + (bs.length + 1) := by omega
      rw [ih _ (k + 1) (by omega) (by rw [Nat.pow_succ]; omega), hstep, hl]
      simp only [List.length_cons, List.append_assoc, List.cons_append, List.nil_append]

/-- R64, R65: the bits of a packed stream are the stream and then its padding. -/
theorem bitsOf_pad (s : List Bool) : bitsOf (pad s) = s ++ List.replicate (8 * ceil8 s.length - s.length) false := by
  simpa [pad, bitsMsb] using bitsOf_packFrom 0 0 s (by omega) (by simp)

/-! ### Reading -/

/-- A cursor that stands on one of the 8 bits of its byte, at bit 0 where no byte is left. -/
def Cursor.ok (c : Cursor) : Prop := c.bit < 8 ∧ (c.rest = [] → c.bit = 0)

theorem readBit_cons (c : Cursor) (b : Bool) (s : List Bool) (hc : c.ok) (h : c.bits = b :: s) :
    ∃ c', readBit c = some (b, c') ∧ c'.bits = s ∧ c'.ok ∧ c'.rest.length ≤ c.rest.length := by
  obtain ⟨rest, k⟩ := c
  obtain ⟨hk, -⟩ := hc
  simp only at hk
  cases rest with
  | nil => simp [Cursor.bits_eq] at h
  | cons x xs =>
    rw [Cursor.bits_eq] at h
    simp only [bitsOf_cons] at h
    have hlen : k < (bitsMsb 8 x.toNat ++ bitsOf xs).length := by simp; omega
    rw [List.drop_eq_getElem_cons hlen] at h
    obtain ⟨hb, hs⟩ := List.cons.inj h
    have hget : x.getLsbD (7 - k) = b := by
      rw [← hb, List.getElem_append_left (by simpa using hk), bitsMsb_getElem]
      simp [BitVec.getLsbD]
    by_cases h7 : k = 7
    · subst h7
      refine ⟨⟨xs, 0⟩, by simpa [readBit] using hget, ?_, ⟨by simp, fun _ => rfl⟩, by simp⟩
      rw [Cursor.bits_eq, ← hs]
      simp
    · refine ⟨⟨x :: xs, k + 1⟩, by simp [readBit, hget, h7], ?_, ⟨by simp; omega, by simp⟩, by simp⟩
      rw [Cursor.bits_eq, ← hs]
      simp [bitsOf_cons]

theorem readBitsFrom_append (acc n : Nat) (c : Cursor) (s t : List Bool) (hs : s.length = n) (hc : c.ok)
    (h : c.bits = s ++ t) : ∃ c', readBitsFrom acc n c = some (bitsValueFrom acc s, c') ∧ c'.bits = t ∧ c'.ok := by
  induction n generalizing acc c s with
  | zero =>
    obtain rfl := List.length_eq_zero_iff.1 hs
    exact ⟨c, rfl, by simpa using h, hc⟩
  | succ n ih =>
    cases s with
    | nil => simp at hs
    | cons b bs =>
      obtain ⟨c1, h1, h2, h3, -⟩ := readBit_cons c b (bs ++ t) hc (by simpa using h)
      obtain ⟨c2, h4, h5, h6⟩ := ih (2 * acc + b.toNat) c1 bs (by simpa using hs) h3 h2
      exact ⟨c2, by simp [readBitsFrom, h1, h4, bitsValueFrom], h5, h6⟩

/-- R64, R67: a value appended with n bits is read back with `BitRead(n)`. -/
theorem readBits_bitsMsb (n v : Nat) (c : Cursor) (t : List Bool) (hv : v < 2 ^ n) (hc : c.ok)
    (h : c.bits = bitsMsb n v ++ t) : ∃ c', readBits n c = some (v, c') ∧ c'.bits = t ∧ c'.ok := by
  obtain ⟨c', h1, h2, h3⟩ := readBitsFrom_append 0 n c (bitsMsb n v) t (by simp) hc h
  refine ⟨c', ?_, h2, h3⟩
  have := bitsValue_bitsMsb n v
  unfold bitsValue at this
  rw [readBits, h1, this, Nat.mod_eq_of_lt hv]

/-- R67: `InRead(n)` gives the next n bytes. -/
theorem takeBytes_append (l t : List Byte) : takeBytes l.length (l ++ t) = some (l, t) := by
  induction l with
  | nil => cases t <;> rfl
  | cons b bs ih => simp [takeBytes, ih]

/-- R67: what `InRead(n)` gives, where it gives something. -/
theorem takeBytes_some (n : Nat) (l front back : List Byte) (h : takeBytes n l = some (front, back)) :
    l = front ++ back ∧ front.length = n := by
  induction n generalizing l front with
  | zero =>
    cases l <;> simp [takeBytes] at h <;> simp [h]
  | succ n ih =>
    cases l with
    | nil => simp [takeBytes] at h
    | cons b bs =>
      simp only [takeBytes] at h
      split at h
      · simp at h
      · rename_i f k hk
        simp only [Option.some.injEq, Prod.mk.injEq] at h
        obtain ⟨rfl, rfl⟩ := h
        obtain ⟨h1, h2⟩ := ih bs f hk
        simp [h1, h2]

/-- R67: fewer than n bytes left is CORRUPT_STREAM. -/
theorem takeBytes_none (n : Nat) (l : List Byte) : takeBytes n l = none ↔ l.length < n := by
  constructor
  · intro h
    by_contra hn
    have := takeBytes_append (l.take n) (l.drop n)
    rw [List.take_append_drop, List.length_take, Nat.min_eq_left (by omega), h] at this
    simp at this
  · intro h
    cases hr : takeBytes n l with
    | none => rfl
    | some p =>
      obtain ⟨h1, h2⟩ := takeBytes_some n l p.1 p.2 hr
      rw [h1, List.length_append] at h
      omega

end Sys2Proof.Machine
end

