-- ==== Sys2Proof/Laws/Ops.lean ====
section
/-! SUPPORT. What each shared operation can do, said once: errors, operands, hashing, prediction, the window check, the flush,
the decoder's reads and its replay. Later proofs cite these and do not unfold the operations. -/

namespace Sys2Proof.Machine

/-! ### Errors -/

@[simp] theorem firstError_nil : firstError [] = none := rfl

@[simp] theorem firstError_cons (applies : Bool) (e : Status) (rest : List (Bool × Status)) :
    firstError ((applies, e) :: rest) = if applies then some e else firstError rest := rfl

/-- R265: no error is reported exactly where none applies. -/
theorem firstError_none (l : List (Bool × Status)) : firstError l = none ↔ ∀ x ∈ l, x.1 = false := by
  induction l with
  | nil => simp
  | cons x rest ih =>
    obtain ⟨applies, e⟩ := x
    cases applies <;> simp [ih]

/-- R265: an error that is reported applies. -/
theorem firstError_some (l : List (Bool × Status)) (e : Status) (h : firstError l = some e) : (true, e) ∈ l := by
  induction l with
  | nil => simp at h
  | cons x rest ih =>
    obtain ⟨applies, e'⟩ := x
    cases applies
    · exact List.mem_cons_of_mem _ (ih (by simpa using h))
    · simp at h
      simp [h]

/-! ### Operands and hashing -/

/-- R83: a word operand fits in the word width. -/
theorem wordOperand_lt (w : WordSel) (d : BitVec 64) : (wordOperand w d).toNat < 2 ^ wordBits w := by
  cases w
  · have h := (d.extractLsb' 0 32).isLt
    simp only [wordOperand, wordBits, wordBytes, BitVec.toNat_setWidth]
    exact Nat.lt_of_le_of_lt (Nat.mod_le _ _) h
  · exact d.isLt

/-- R83: with WB = 4, DATA[63:32] is ignored. -/
theorem wordOperand_toNat (w : WordSel) (d : BitVec 64) : (wordOperand w d).toNat = d.toNat % 2 ^ wordBits w := by
  cases w
  · simp only [wordOperand, wordBits, wordBytes, BitVec.toNat_setWidth, BitVec.extractLsb'_toNat]
    have := d.isLt
    omega
  · exact (Nat.mod_eq_of_lt d.isLt).symm

theorem wordBytes_pos (w : WordSel) : 0 < wordBytes w := by cases w <;> decide

theorem wordBits_eq (w : WordSel) : 2 ^ wordBits w = 256 ^ wordBytes w := by cases w <;> decide

@[simp] theorem wordLe_length (w : WordSel) (x : Word) : (wordLe w x).length = wordBytes w := leBytes_length _ _

/-- R62: a word is the little-endian value of its bytes. -/
theorem leValue_wordLe (w : WordSel) (x : Word) (h : x.toNat < 2 ^ wordBits w) : leValue (wordLe w x) = x.toNat := by
  rw [wordLe, leValue_leBytes, ← wordBits_eq, Nat.mod_eq_of_lt h]

/-- R110: "The result is an integer in [0, 2^HB)". -/
theorem hashOf_lt (b : Build) (w : WordSel) (hb x : Nat) (h : hb ≤ wordBits w) : hashOf b w hb x < 2 ^ hb := by
  unfold hashOf
  rw [Nat.div_lt_iff_lt_mul (Nat.two_pow_pos _), ← Nat.pow_add, Nat.add_sub_cancel' h]
  exact Nat.mod_lt _ (Nat.two_pow_pos _)

/-- R111: "hash(w) does not depend on DATA bits above W-1". -/
theorem hashOf_mod (b : Build) (w : WordSel) (hb x : Nat) : hashOf b w hb (x % 2 ^ wordBits w) = hashOf b w hb x := by
  unfold hashOf
  rw [Nat.mod_mul_mod]

/-! ### Prediction and routing -/

/-- R124: everything `predict` can do. -/
theorem predict_cases (s : State) (w : Word) :
    (∃ r, findRank (s.dict.list (s.hash w)) w = some r ∧
      s.predict w = ({ s with dict := s.dict.promote (s.hash w) r, lastb := BitVec.ofNat 16 (s.hash w) },
        .hit (s.hash w) r)) ∨
    (findRank (s.dict.list (s.hash w)) w = none ∧
      s.predict w = ({ s with dict := s.dict.insert s.build.depth.toNat (s.hash w) w, lastb := BitVec.ofNat 16 (s.hash w) },
        .miss (s.hash w))) := by
  unfold State.predict
  cases h : findRank (s.dict.list (s.hash w)) w with
  | none => exact .inr ⟨rfl, by simp only [h]⟩
  | some r => exact .inl ⟨r, rfl, by simp only [h]⟩

/-- R161, R162, R167: everything that can become of an accepted word before its signature is appended. -/
theorem routeWord_cases (s : State) (w : Word) :
    (s.bstate = .escaped ∧ s.routeWord w = (s.appendEscaped w, ⟨.esc, 0, 0⟩)) ∨
    (s.bstate = .predicting ∧ ∃ r, findRank (s.dict.list (s.hash w)) w = some r ∧
      s.routeWord w = ({ s with
          dict := s.dict.promote (s.hash w) r
          lastb := BitVec.ofNat 16 (s.hash w)
          predBuf := s.predBuf ++ hitMarker s.hbits.toNat (s.hash w) s.lastb.toNat
          rankBuf := s.rankBuf ++ rankBits s.build r }, ⟨.hit, r, s.hash w⟩)) ∨
    (s.bstate = .predicting ∧ findRank (s.dict.list (s.hash w)) w = none ∧
      s.routeWord w = ({ s with
          dict := s.dict.insert s.build.depth.toNat (s.hash w) w
          lastb := BitVec.ofNat 16 (s.hash w)
          dictBuf := s.dictBuf ++ bitsMsb s.hbits.toNat (s.hash w)
          encBuf := s.encBuf ++ wordLe s.wsel w }, ⟨.miss, 0, s.hash w⟩)) := by
  have hb : s.bstate = .escaped ∨ s.bstate = .predicting := by cases s.bstate <;> simp
  rcases hb with hb | hb
  · exact .inl ⟨hb, by simp only [State.routeWord, hb]⟩
  · rcases predict_cases s w with ⟨r, hr, hp⟩ | ⟨hr, hp⟩
    · exact .inr (.inl ⟨hb, r, hr, by simp only [State.routeWord, hb, hp, State.appendHit]⟩)
    · exact .inr (.inr ⟨hb, hr, by simp only [State.routeWord, hb, hp, State.appendMiss]⟩)

/-- R88, R192: the two lengths of a hit marker. -/
theorem hitMarker_length (hb b prev : Nat) : (hitMarker hb b prev).length = if b = prev then 1 else 1 + hb := by
  unfold hitMarker
  split
  · rfl
  · simp [Nat.add_comm]

@[simp] theorem rankBits_length (b : Build) (r : Nat) : (rankBits b r).length = (Build.code b r).length.toNat := by
  simp [rankBits]

/-! ### The window check, the flush and the end of a word -/

/-- R164 to R166: everything the window check can do. -/
theorem windowCheck_cases (s : State) :
    (s.windowDue = true ∧ s.gainTooSmall = true ∧
      s.windowCheck = ({ s with bstate := .escaped, escEvents := satAdd s.escEvents 1 }, true)) ∨
    ((s.windowDue = false ∨ s.gainTooSmall = false) ∧ s.windowCheck = (s, false)) := by
  unfold State.windowCheck
  cases h1 : s.windowDue <;> cases h2 : s.gainTooSmall <;> simp

/-- R170, R172: everything a flush can do. -/
theorem flushOrPend_cases (s : State) :
    (s.serializeBlock.length ≤ s.outAvail.toNat ∧
      s.flushOrPend = ((s.outWrite s.serializeBlock).blockReset, true)) ∨
    (s.outAvail.toNat < s.serializeBlock.length ∧ s.flushOrPend = ({ s with flushPending := true }, false)) := by
  unfold State.flushOrPend State.fits
  by_cases h : s.serializeBlock.length ≤ s.outAvail.toNat
  · exact .inl ⟨h, by simp [h]⟩
  · exact .inr ⟨by omega, by simp [h]⟩

/-- R161, R168: everything the end of an accepted word can do. -/
theorem closeWord_cases (s : State) (o : WordReport) (escNow : Bool) :
    (s.sigCount.toNat ≠ Config.blockSigs ∧
      s.closeWord o escNow = s.respond .ok true (resultWord o escNow false)) ∨
    (s.sigCount.toNat = Config.blockSigs ∧ s.serializeBlock.length ≤ s.outAvail.toNat ∧
      s.closeWord o escNow = ((s.outWrite s.serializeBlock).blockReset).respond .ok true (resultWord o escNow true)) ∨
    (s.sigCount.toNat = Config.blockSigs ∧ s.outAvail.toNat < s.serializeBlock.length ∧
      s.closeWord o escNow =
        { s with flushPending := true }.respond .outputOverflow true (resultWord o escNow false)) := by
  unfold State.closeWord
  by_cases h : s.sigCount.toNat = Config.blockSigs
  · rcases flushOrPend_cases s with ⟨hf, he⟩ | ⟨hf, he⟩
    · exact .inr (.inl ⟨h, hf, by simp [h, he]⟩)
    · exact .inr (.inr ⟨h, hf, by simp [h, he]⟩)
  · exact .inl ⟨h, by simp [h]⟩

/-- R198: the size of a serialized block. -/
theorem serializeBlock_length (s : State) :
    s.serializeBlock.length = 2 + ceil8 s.sigBuf.length + ceil8 s.predBuf.length + ceil8 s.rankBuf.length +
      ceil8 s.dictBuf.length + s.encBuf.length := by
  simp only [State.serializeBlock, blockHeader, List.length_append, leBytes_length, pad_length]

/-! ### The host's other actions -/

theorem decActive_iff (s : State) : s.decActive = true ↔ s.init = true ∧ s.mode = .dec := by
  simp [State.decActive]

/-! ### The decoder's reads and its replay -/

/-- What reading many of one kind gives: as many as were asked for. -/
theorem readMany_length {α : Type} (read : Cursor → Option (α × Cursor)) (n : Nat) (c : Cursor) (xs : List α) (c' : Cursor)
    (h : readMany read n c = some (xs, c')) : xs.length = n := by
  induction n generalizing c xs with
  | zero =>
    simp only [readMany, Option.some.injEq, Prod.mk.injEq] at h
    simp [← h.1]
  | succ n ih =>
    simp only [readMany] at h
    split at h
    · simp at h
    · rename_i x c1 hx
      split at h
      · simp at h
      · rename_i _ ys c2 hy
        simp only [Option.some.injEq, Prod.mk.injEq] at h
        obtain ⟨rfl, rfl⟩ := h
        simp [ih c1 ys hy]

/-- What reading many of one kind gives: each has what every single read has. -/
theorem readMany_forall {α : Type} (read : Cursor → Option (α × Cursor)) (p : α → Prop)
    (hp : ∀ c x c', read c = some (x, c') → p x) (n : Nat) (c : Cursor) (xs : List α) (c' : Cursor)
    (h : readMany read n c = some (xs, c')) : ∀ x ∈ xs, p x := by
  induction n generalizing c xs with
  | zero =>
    simp only [readMany, Option.some.injEq, Prod.mk.injEq] at h
    simp [← h.1]
  | succ n ih =>
    simp only [readMany] at h
    split at h
    · simp at h
    · rename_i x c1 hx
      split at h
      · simp at h
      · rename_i _ ys c2 hy
        simp only [Option.some.injEq, Prod.mk.injEq] at h
        obtain ⟨rfl, rfl⟩ := h
        intro z hz
        rcases List.mem_cons.1 hz with rfl | hz
        · exact hp c _ c1 hx
        · exact ih c1 ys hy z hz

theorem readBitsFrom_lt (acc n : Nat) (c : Cursor) (v : Nat) (c' : Cursor) (h : readBitsFrom acc n c = some (v, c')) :
    v < (acc + 1) * 2 ^ n := by
  induction n generalizing acc c with
  | zero => simp [readBitsFrom] at h; omega
  | succ n ih =>
    simp only [readBitsFrom] at h
    split at h
    · simp at h
    · rename_i b c1 _
      have hb : b.toNat ≤ 1 := by cases b <;> simp
      calc v < (2 * acc + b.toNat + 1) * 2 ^ n := ih _ _ h
        _ ≤ ((acc + 1) * 2) * 2 ^ n := Nat.mul_le_mul_right _ (by omega)
        _ = (acc + 1) * 2 ^ (n + 1) := by rw [Nat.pow_succ]; ring

/-- A value of n bits is below 2^n. -/
theorem readBits_lt (n : Nat) (c : Cursor) (v : Nat) (c' : Cursor) (h : readBits n c = some (v, c')) : v < 2 ^ n := by
  simpa using readBitsFrom_lt 0 n c v c' h

/-- R212: a named bucket is HB bits wide. -/
theorem readMarker_lt (hb : Nat) (c : Cursor) (m : Option Nat) (c' : Cursor) (h : readMarker hb c = some (m, c')) :
    ∀ b ∈ m, b < 2 ^ hb := by
  unfold readMarker at h
  split at h
  · simp at h
  · simp at h; simp [← h.1]
  · split at h
    · simp at h
    · rename_i v c2 hv
      simp only [Option.some.injEq, Prod.mk.injEq] at h
      obtain ⟨rfl, -⟩ := h
      intro b hb'
      simp at hb'
      exact hb' ▸ readBits_lt hb _ _ _ hv

/-- R213: a literal fits in the word width. -/
theorem readLiteral_lt (w : WordSel) (c : Cursor) (x : Word) (c' : Cursor)
    (h : readLiteral (wordBytes w) c = some (x, c')) : x.toNat < 2 ^ wordBits w := by
  unfold readLiteral readBytes at h
  split at h
  · simp at h
  · rename_i bytes c1 hb
    split at hb
    · simp at hb
    · rename_i front back ht
      simp only [Option.some.injEq, Prod.mk.injEq] at hb h
      obtain ⟨rfl, -⟩ := hb
      obtain ⟨rfl, -⟩ := h
      obtain ⟨-, hl⟩ := takeBytes_some _ _ _ _ ht
      have hlt := leValue_lt front
      rw [hl, ← wordBits_eq] at hlt
      rw [BitVec.toNat_ofNat]
      exact Nat.lt_of_le_of_lt (Nat.mod_le _ _) hlt

/-- R211 to R213: what a block that parses holds. -/
theorem parseBlock_some (t : List Code) (w : WordSel) (hb n : Nat) (c : Cursor) (p : ParsedBlock)
    (h : parseBlock t (wordBytes w) hb n c = some p) :
    p.sigs.length = n ∧ p.markers.length = p.sigs.count .hit ∧ p.ranks.length = p.sigs.count .hit ∧
    p.drefs.length = p.sigs.count .miss ∧ p.lits.length = p.sigs.count .miss + p.sigs.count .esc ∧
    (∀ m ∈ p.markers, ∀ b ∈ m, b < 2 ^ hb) ∧ (∀ d ∈ p.drefs, d < 2 ^ hb) ∧
    ∀ x ∈ p.lits, x.toNat < 2 ^ wordBits w := by
  unfold parseBlock at h
  split at h
  · simp at h
  split at h
  · simp at h
  rename_i sigs _ hs
  split at h
  · simp at h
  rename_i markers _ hm
  split at h
  · simp at h
  rename_i ranks _ hr
  split at h
  · simp at h
  rename_i drefs _ hd
  split at h
  · simp at h
  rename_i lits _ hl
  obtain rfl := Option.some.inj h
  exact ⟨readMany_length _ _ _ _ _ hs, readMany_length _ _ _ _ _ hm, readMany_length _ _ _ _ _ hr,
    readMany_length _ _ _ _ _ hd, readMany_length _ _ _ _ _ hl,
    readMany_forall _ _ (fun c x c' => readMarker_lt hb c x c') _ _ _ _ hm,
    readMany_forall _ _ (fun c x c' => readBits_lt hb c x c') _ _ _ _ hd,
    readMany_forall _ _ (fun c x c' => readLiteral_lt w c x c') _ _ _ _ hl⟩

/-- R125 `replay_hit`: everything it can do. -/
theorem replayHit_cases (m : Memory) (b r : Nat) :
    (m.replayHit b r = none ∧ m.occ b ≤ r) ∨
    (∃ w, m.replayHit b r = some (w, m.promote b r) ∧ m.ent b r = some w ∧ r < m.occ b) := by
  unfold Memory.replayHit
  cases h : m.ent b r with
  | none => exact .inl ⟨rfl, List.getElem?_eq_none_iff.1 h⟩
  | some w => exact .inr ⟨w, rfl, rfl, (List.getElem?_eq_some_iff.1 h).1⟩

/-- R214 to R216: a property of the dictionary and LASTB that every hit and every checked miss keeps is kept by the
reconstruction of a block, which gives WB bytes a signature. -/
theorem reconstruct_keeps (b : Build) (w : WordSel) (hb : Nat) (Inv : Memory → BitVec 16 → Prop)
    (hhit : ∀ m l k r, Inv m l → k < 2 ^ hb → Inv (m.promote k r) (BitVec.ofNat 16 k))
    (hmiss : ∀ m l x, Inv m l → x.toNat < 2 ^ wordBits w → hashOf b w hb x.toNat < 2 ^ hb →
      Inv (m.insert b.depth.toNat (hashOf b w hb x.toNat) x) (BitVec.ofNat 16 (hashOf b w hb x.toNat)))
    (hlast : ∀ m l, Inv m l → l.toNat < 2 ^ hb) :
    ∀ (sigs : List Signature) (markers : List (Option Nat)) (ranks drefs : List Nat) (lits : List Word) (m : Memory)
      (l : BitVec 16) (x : Replay), (∀ k ∈ markers, ∀ j ∈ k, j < 2 ^ hb) → (∀ d ∈ drefs, d < 2 ^ hb) →
      (∀ y ∈ lits, y.toNat < 2 ^ wordBits w) → Inv m l →
      reconstruct b w hb sigs markers ranks drefs lits m l = some x →
      Inv x.dict x.lastb ∧ x.bytes.length = sigs.length * wordBytes w := by
  intro sigs
  induction sigs with
  | nil =>
    intro markers ranks drefs lits m l x _ _ _ hI h
    simp only [reconstruct, Option.some.injEq] at h
    subst h
    exact ⟨hI, by simp⟩
  | cons g sigs ih =>
    intro markers ranks drefs lits m l x hm hd hl hI h
    cases g with
    | hit =>
      cases markers with
      | nil => simp [reconstruct] at h
      | cons k markers =>
        cases ranks with
        | nil => simp [reconstruct] at h
        | cons r ranks =>
          simp only [reconstruct] at h
          rcases replayHit_cases m (k.getD l.toNat) r with ⟨hn, -⟩ | ⟨v, hv, -, -⟩
          · simp [hn] at h
          · simp only [hv, Option.map_eq_some_iff] at h
            obtain ⟨y, hy, rfl⟩ := h
            have hk : k.getD l.toNat < 2 ^ hb := by
              cases k with
              | none => exact hlast m l hI
              | some j => exact hm (some j) (by simp) j (by simp)
            obtain ⟨h1, h2⟩ := ih markers ranks drefs lits _ _ y (fun k' hk' => hm k' (by simp [hk'])) hd hl
              (hhit m l _ r hI hk) hy
            refine ⟨h1, ?_⟩
            simp only [Replay.emit, List.length_append, wordLe_length, h2, List.length_cons]
            ring
    | miss =>
      cases drefs with
      | nil => simp [reconstruct] at h
      | cons d drefs =>
        cases lits with
        | nil => simp [reconstruct] at h
        | cons v lits =>
          simp only [reconstruct] at h
          split at h
          · rename_i hdv
            subst hdv
            simp only [Option.map_eq_some_iff] at h
            obtain ⟨y, hy, rfl⟩ := h
            obtain ⟨h1, h2⟩ := ih markers ranks drefs lits _ _ y hm (fun k' hk' => hd k' (by simp [hk']))
              (fun y' hy' => hl y' (by simp [hy'])) (hmiss m l v hI (hl v (by simp)) (hd _ (by simp))) hy
            refine ⟨h1, ?_⟩
            simp only [Replay.emit, List.length_append, wordLe_length, h2, List.length_cons]
            ring
          · simp at h
    | esc =>
      cases lits with
      | nil => simp [reconstruct] at h
      | cons v lits =>
        simp only [reconstruct, Option.map_eq_some_iff] at h
        obtain ⟨y, hy, rfl⟩ := h
        obtain ⟨h1, h2⟩ := ih markers ranks drefs lits m l y hm hd (fun y' hy' => hl y' (by simp [hy'])) hI hy
        refine ⟨h1, ?_⟩
        simp only [Replay.emit, List.length_append, wordLe_length, h2, List.length_cons]
        ring

end Sys2Proof.Machine
end

