-- ==== Sys2Proof/Laws/Cursor.lean ====
section
/-! SUPPORT. The readers of the decode path at a bit position of IN: each answers a value exactly where the bits from there on
begin with the value's code, and then stands behind it (20_memory.md R64 to R67; 42_rank_codec.md R145; 45_decoder.md R212,
R213). -/

namespace Sys2Proof.Machine

/-- The cursor at bit q of a byte sequence. -/
def posAt (l : List Byte) (q : Nat) : Cursor := ⟨l.drop (q / 8), q % 8⟩

/-- The bits from position q on begin with `s`. -/
abbrev BitsAt (l : List Byte) (q : Nat) (s : List Bool) : Prop := s <+: (bitsOf l).drop q

/-- A reader answers `x` exactly where x is one of the values it can answer and the bits begin with x's code. -/
def ReadsAt {α : Type} (read : Cursor → Option (α × Cursor)) (valid : α → Prop) (code : α → List Bool) (l : List Byte) : Prop :=
  ∀ q, q ≤ 8 * l.length → ∀ x c,
    read (posAt l q) = some (x, c) ↔ valid x ∧ BitsAt l q (code x) ∧ c = posAt l (q + (code x).length)

theorem bitsOf_drop (l : List Byte) (j : Nat) : bitsOf (l.drop j) = (bitsOf l).drop (8 * j) := by
  induction j generalizing l with
  | zero => simp
  | succ j ih =>
    cases l with
    | nil => simp
    | cons b bs =>
      rw [List.drop_succ_cons, ih, bitsOf_cons, show 8 * (j + 1) = 8 + 8 * j by ring, ← List.drop_drop,
        List.drop_left' (by simp)]

theorem posAt_bits (l : List Byte) (q : Nat) : (posAt l q).bits = (bitsOf l).drop q := by
  rw [Cursor.bits_eq]
  simp only [posAt, bitsOf_drop, List.drop_drop]
  rw [show 8 * (q / 8) + q % 8 = q by omega]

theorem BitsAt.le {l : List Byte} {q : Nat} {s : List Bool} (h : BitsAt l q s) (hq : q ≤ 8 * l.length) :
    q + s.length ≤ 8 * l.length := by
  have := h.length_le
  simp only [List.length_drop, bitsOf_length] at this
  omega

theorem bitsAt_append (l : List Byte) (q : Nat) (s t : List Bool) :
    BitsAt l q (s ++ t) ↔ BitsAt l q s ∧ BitsAt l (q + s.length) t := by
  unfold BitsAt
  constructor
  · rintro ⟨r, hr⟩
    refine ⟨⟨t ++ r, by rw [← List.append_assoc, hr]⟩, ⟨r, ?_⟩⟩
    rw [← List.drop_drop, ← hr, List.append_assoc, List.drop_left]
  · rintro ⟨⟨r, hr⟩, ⟨r', hr'⟩⟩
    rw [← List.drop_drop, ← hr, List.drop_left] at hr'
    exact ⟨r', by rw [List.append_assoc, hr', hr]⟩

/-- R64: the bit at a position. -/
theorem bitAt_eq (l : List Byte) (k : Nat) : bitAt l k = (bitsOf l).getD k false := by
  induction l generalizing k with
  | nil => simp [bitAt]
  | cons b bs ih =>
    rw [bitsOf_cons]
    by_cases h : k < 8
    · have h0 : k / 8 = 0 := by omega
      have h1 : k % 8 = k := by omega
      have h2 : k < (bitsMsb 8 b.toNat).length := by simpa using h
      rw [bitAt, h0, h1, List.getD_append _ _ _ _ h2, List.getD_eq_getElem _ _ h2, bitsMsb_getElem]
      simp [BitVec.getLsbD]
    · have h0 : k / 8 = (k - 8) / 8 + 1 := by omega
      have h1 : k % 8 = (k - 8) % 8 := by omega
      have h2 := ih (k - 8)
      rw [bitAt] at h2
      rw [bitAt, h0, h1, List.getD_cons_succ, h2, List.getD_eq_getElem?_getD, List.getD_eq_getElem?_getD,
        List.getElem?_append_right (by simpa using h)]
      simp

/-- R64, R67: one bit. -/
theorem readBit_posAt (l : List Byte) : ReadsAt readBit (fun _ => True) (fun b => [b]) l := by
  intro q hq x c
  have hb := posAt_bits l q
  by_cases h : q < 8 * l.length
  · have hlt : q < (bitsOf l).length := by simpa using h
    rw [List.drop_eq_getElem_cons hlt] at hb
    have hok : (posAt l q).ok := ⟨Nat.mod_lt _ (by omega), fun hr => by
      simp only [posAt, List.drop_eq_nil_iff] at hr
      omega⟩
    have hpos : ∃ b, readBit (posAt l q) = some (b, posAt l (q + 1)) := by
      have hl : q / 8 < l.length := by omega
      have hd := List.drop_eq_getElem_cons hl
      simp only [posAt, hd, readBit]
      refine ⟨_, congrArg some (Prod.ext rfl ?_)⟩
      by_cases h7 : q % 8 = 7
      · have e1 : (q + 1) / 8 = q / 8 + 1 := by omega
        have e2 : (q + 1) % 8 = 0 := by omega
        simp only [e1, e2, h7, if_true]
      · have e1 : (q + 1) / 8 = q / 8 := by omega
        have e2 : (q + 1) % 8 = q % 8 + 1 := by omega
        rw [e1, e2, hd, if_neg h7]
    obtain ⟨c', h1, -, -⟩ := readBit_cons _ _ _ hok hb
    obtain ⟨b, h2⟩ := hpos
    obtain ⟨rfl, rfl⟩ : b = (bitsOf l)[q] ∧ c' = posAt l (q + 1) := by
      rw [h1] at h2
      simp only [Option.some.injEq, Prod.mk.injEq] at h2
      exact ⟨h2.1.symm, h2.2⟩
    rw [h2]
    unfold BitsAt
    rw [List.drop_eq_getElem_cons hlt]
    simp only [Option.some.injEq, Prod.mk.injEq, List.cons_prefix_cons, List.nil_prefix, and_true, true_and,
      List.length_singleton]
    constructor
    · rintro ⟨rfl, rfl⟩
      exact ⟨rfl, rfl⟩
    · rintro ⟨rfl, rfl⟩
      exact ⟨rfl, rfl⟩
  · have he : q = 8 * l.length := by omega
    subst he
    have hr : readBit (posAt l (8 * l.length)) = none := by simp [posAt, readBit]
    unfold BitsAt
    rw [hr, List.drop_eq_nil_of_le (by simp)]
    simp

theorem readBitsFrom_posAt (l : List Byte) (n acc q : Nat) (hq : q ≤ 8 * l.length) (v : Nat) (c : Cursor) :
    readBitsFrom acc n (posAt l q) = some (v, c) ↔
      ∃ s, s.length = n ∧ BitsAt l q s ∧ v = bitsValueFrom acc s ∧ c = posAt l (q + n) := by
  induction n generalizing acc q with
  | zero =>
    simp only [readBitsFrom, Option.some.injEq, Prod.mk.injEq]
    constructor
    · rintro ⟨rfl, rfl⟩
      exact ⟨[], rfl, List.nil_prefix, rfl, rfl⟩
    · rintro ⟨s, hs, -, rfl, rfl⟩
      obtain rfl := List.length_eq_zero_iff.1 hs
      exact ⟨rfl, rfl⟩
  | succ n ih =>
    constructor
    · intro h
      simp only [readBitsFrom] at h
      split at h
      · simp at h
      · rename_i b c1 hb
        obtain ⟨-, h1, rfl⟩ := (readBit_posAt l q hq b c1).1 hb
        have hle := h1.le hq
        obtain ⟨s, hs, h2, rfl, rfl⟩ := (ih _ _ hle).1 h
        refine ⟨b :: s, by simp [hs], ?_, rfl, ?_⟩
        · have := (bitsAt_append l q [b] s).2 ⟨h1, h2⟩
          simpa using this
        · simp only [List.length_singleton]
          congr 1
          omega
    · rintro ⟨s, hs, h, rfl, rfl⟩
      cases s with
      | nil => simp at hs
      | cons b s =>
        obtain ⟨h1, h2⟩ := (bitsAt_append l q [b] s).1 (by simpa using h)
        have hb := (readBit_posAt l q hq b _).2 ⟨trivial, h1, rfl⟩
        simp only [readBitsFrom, hb]
        refine (ih _ _ (h1.le hq)).2 ⟨s, by simpa using hs, h2, rfl, ?_⟩
        simp only [List.length_singleton]
        congr 1
        omega

/-- R64, R67: `BitRead(n)`. -/
theorem readBits_posAt (l : List Byte) (n : Nat) : ReadsAt (readBits n) (fun v => v < 2 ^ n) (bitsMsb n) l := by
  intro q hq v c
  rw [readBits, readBitsFrom_posAt l n 0 q hq]
  constructor
  · rintro ⟨s, rfl, h, rfl, rfl⟩
    have e : bitsMsb s.length (bitsValueFrom 0 s) = s := bitsMsb_bitsValue s
    exact ⟨bitsValue_lt s, by rw [e]; exact h, by simp⟩
  · rintro ⟨hv, h, rfl⟩
    refine ⟨bitsMsb n v, by simp, h, ?_, by simp⟩
    have := bitsValue_bitsMsb n v
    rw [Nat.mod_eq_of_lt hv] at this
    exact this.symm

/-- R87: the bits of a signature. -/
def Signature.bits : Signature → List Bool
  | .miss => [false, false]
  | .hit => [false, true]
  | .esc => [true, false]

theorem signatureRun_eq (sigs : List Signature) : signatureRun sigs = sigs.flatMap Signature.bits := by
  unfold signatureRun
  congr 1

@[simp] theorem signatureRun_length (sigs : List Signature) : (signatureRun sigs).length = 2 * sigs.length := by
  rw [signatureRun_eq]
  induction sigs with
  | nil => rfl
  | cons sig sigs ih =>
    rw [List.flatMap_cons, List.length_append, ih, List.length_cons]
    cases sig <;> simp only [Signature.bits, List.length_cons, List.length_nil] <;> omega

/-- R87, R212: one signature. -/
theorem readSignature_posAt (l : List Byte) : ReadsAt readSignature (fun _ => True) Signature.bits l := by
  intro q hq x c
  have key : ∀ v c1, readBits 2 (posAt l q) = some (v, c1) ↔ v < 2 ^ 2 ∧ BitsAt l q (bitsMsb 2 v) ∧ c1 = posAt l (q + 2) := by
    intro v c1
    simpa using readBits_posAt l 2 q hq v c1
  unfold readSignature
  constructor
  · intro h
    split at h
    · simp at h
    · rename_i v c1 hv
      obtain ⟨h1, h2, rfl⟩ := (key _ _).1 hv
      have h4 : v = 0 ∨ v = 1 ∨ v = 2 ∨ v = 3 := by omega
      rcases h4 with rfl | rfl | rfl | rfl <;>
        simp only [signatureOf, Option.some.injEq, Prod.mk.injEq, reduceCtorEq] at h
      all_goals
        obtain ⟨rfl, rfl⟩ := h
        exact ⟨trivial, h2, rfl⟩
  · rintro ⟨-, h, rfl⟩
    cases x
    · rw [(key 0 (posAt l (q + 2))).2 ⟨by omega, h, rfl⟩]; rfl
    · rw [(key 1 (posAt l (q + 2))).2 ⟨by omega, h, rfl⟩]; rfl
    · rw [(key 2 (posAt l (q + 2))).2 ⟨by omega, h, rfl⟩]; rfl

/-- R88: the bits of a hit marker. -/
def markerBits (hb : Nat) : Option Nat → List Bool
  | none => [false]
  | some b => true :: bitsMsb hb b

theorem markerRun_eq (hb : Nat) (markers : List (Option Nat)) : markerRun hb markers = markers.flatMap (markerBits hb) := by
  unfold markerRun
  congr 1

/-- R88, R212: one hit marker. -/
theorem readMarker_posAt (l : List Byte) (hb : Nat) :
    ReadsAt (readMarker hb) (fun m => ∀ k ∈ m, k < 2 ^ hb) (markerBits hb) l := by
  intro q hq x c
  unfold readMarker
  constructor
  · intro h
    split at h
    · simp at h
    · rename_i c1 hc
      obtain ⟨-, h1, rfl⟩ := (readBit_posAt l q hq false c1).1 hc
      simp only [Option.some.injEq, Prod.mk.injEq] at h
      obtain ⟨rfl, rfl⟩ := h
      exact ⟨by simp, h1, rfl⟩
    · rename_i c1 hc
      obtain ⟨-, h1, rfl⟩ := (readBit_posAt l q hq true c1).1 hc
      split at h
      · simp at h
      · rename_i b c2 hb'
        obtain ⟨h2, h3, rfl⟩ := (readBits_posAt l hb _ (h1.le hq) b c2).1 hb'
        simp only [Option.some.injEq, Prod.mk.injEq] at h
        obtain ⟨rfl, rfl⟩ := h
        refine ⟨by simpa using h2, (bitsAt_append l q [true] _).2 ⟨h1, h3⟩, ?_⟩
        simp only [markerBits, List.length_cons, List.length_nil]
        congr 1
        omega
  · rintro ⟨hv, h, rfl⟩
    cases x with
    | none => rw [(readBit_posAt l q hq false _).2 ⟨trivial, h, rfl⟩]; rfl
    | some b =>
      obtain ⟨h1, h2⟩ := (bitsAt_append l q [true] (bitsMsb hb b)).1 h
      rw [(readBit_posAt l q hq true _).2 ⟨trivial, h1, rfl⟩]
      dsimp only
      rw [(readBits_posAt l hb _ (h1.le hq) b _).2 ⟨by simpa using hv, h2, rfl⟩]
      simp only [markerBits, List.length_cons, List.length_nil]
      rw [show q + (0 + 1) + (bitsMsb hb b).length = q + ((bitsMsb hb b).length + 1) by omega]

/-- R67, R212, R213: n reads of one kind. -/
theorem readMany_posAt {α : Type} {read : Cursor → Option (α × Cursor)} {valid : α → Prop} {code : α → List Bool}
    {l : List Byte} (hr : ReadsAt read valid code l) (n : Nat) :
    ReadsAt (readMany read n) (fun xs => xs.length = n ∧ ∀ x ∈ xs, valid x) (fun xs => xs.flatMap code) l := by
  intro q hq xs c
  induction n generalizing q xs c with
  | zero =>
    simp only [readMany, Option.some.injEq, Prod.mk.injEq]
    constructor
    · rintro ⟨rfl, rfl⟩
      exact ⟨⟨rfl, by simp⟩, List.nil_prefix, rfl⟩
    · rintro ⟨⟨hx, -⟩, -, rfl⟩
      obtain rfl := List.length_eq_zero_iff.1 hx
      exact ⟨rfl, rfl⟩
  | succ n ih =>
    simp only [readMany]
    constructor
    · intro h
      split at h
      · simp at h
      · rename_i x c1 hx
        obtain ⟨hv, h1, rfl⟩ := (hr q hq x c1).1 hx
        split at h
        · simp at h
        · rename_i ys c2 hys
          obtain ⟨⟨h2, h3⟩, h4, rfl⟩ := (ih _ (h1.le hq) ys _).1 hys
          simp only [Option.some.injEq, Prod.mk.injEq] at h
          obtain ⟨rfl, rfl⟩ := h
          refine ⟨⟨by simp [h2], by simpa using ⟨hv, h3⟩⟩, ?_, ?_⟩
          · rw [List.flatMap_cons]
            exact (bitsAt_append _ _ _ _).2 ⟨h1, h4⟩
          · rw [List.flatMap_cons, List.length_append, Nat.add_assoc]
    · rintro ⟨⟨hl, hv⟩, h, rfl⟩
      cases xs with
      | nil => simp at hl
      | cons x ys =>
        rw [List.flatMap_cons] at h
        obtain ⟨h1, h2⟩ := (bitsAt_append _ _ _ _).1 h
        rw [(hr q hq x _).2 ⟨hv x (by simp), h1, rfl⟩]
        dsimp only
        rw [(ih _ (h1.le hq) ys _).2 ⟨⟨by simpa using hl, fun y hy => hv y (by simp [hy])⟩, h2, rfl⟩]
        simp only [List.flatMap_cons, List.length_append, Nat.add_assoc]

/-- R212: `align_to_byte()`. -/
theorem align_posAt (l : List Byte) (q : Nat) : align (posAt l q) = posAt l (8 * ceil8 q) := by
  have e2 : 8 * ceil8 q / 8 = ceil8 q := by omega
  have e3 : 8 * ceil8 q % 8 = 0 := by omega
  simp only [align, posAt, e2, e3, List.tail_drop]
  by_cases h : q % 8 = 0
  · have e1 : ceil8 q = q / 8 := by unfold ceil8; omega
    simp only [h, e1, if_true]
  · have e1 : ceil8 q = q / 8 + 1 := by unfold ceil8; omega
    simp only [h, e1, if_false]

/-! ### Rank codes -/

theorem code_eq_getElem (b : Build) (r : Nat) (h : r < b.codeTable.length) : Build.code b r = b.codeTable[r] := by
  rw [Build.code, List.getD_eq_getElem _ _ h]

/-- R140, R141: the bits of a rank's code are a given bit list exactly where the entry holds their value and their number. -/
theorem rankBits_eq_iff (b : Build) (ht : tableLegal b.codeTable) (r : Nat) (hr : r < b.codeTable.length) (u : List Bool) :
    rankBits b r = u ↔ b.codeTable[r].pattern.toNat = bitsValue u ∧ b.codeTable[r].length.toNat = u.length := by
  have h2 := (ht.2.1 _ (List.getElem_mem hr)).2.2
  rw [rankBits, code_eq_getElem b r hr]
  constructor
  · rintro rfl
    rw [bitsValue_bitsMsb, Nat.mod_eq_of_lt h2, bitsMsb_length]
    exact ⟨rfl, rfl⟩
  · rintro ⟨h3, h4⟩
    rw [h3, h4, bitsMsb_bitsValue]

/-- R141 T3: no code is the initial part of another rank's. -/
theorem rankBits_prefix (b : Build) (ht : tableLegal b.codeTable) (r r' : Nat) (hr : r < b.codeTable.length)
    (hr' : r' < b.codeTable.length) (h : rankBits b r <+: rankBits b r') : r = r' := by
  have hs : startsWith b.codeTable[r] b.codeTable[r'] = true := by
    obtain ⟨v, hv⟩ := h
    obtain ⟨h1, h2⟩ := (rankBits_eq_iff b ht r hr _).1 rfl
    obtain ⟨h3, h4⟩ := (rankBits_eq_iff b ht r' hr' _).1 hv.symm
    have hval : bitsValue (rankBits b r ++ v) = bitsValue (rankBits b r) * 2 ^ v.length + bitsValue v := by
      unfold bitsValue
      rw [bitsValueFrom_append, bitsValueFrom_eq]
      rfl
    have hlt := bitsValue_lt v
    rw [List.length_append] at h4
    simp only [startsWith, Bool.and_eq_true, decide_eq_true_eq]
    refine ⟨by omega, ?_⟩
    rw [h3, hval, h4, h2, Nat.add_sub_cancel_left, h1, Nat.mul_comm, Nat.mul_add_div (Nat.two_pow_pos _),
      Nat.div_eq_of_lt hlt, Nat.add_zero]
  have hp := List.pairwise_iff_getElem.1 ht.2.2.1
  rcases Nat.lt_trichotomy r r' with hlt | heq | hlt
  · rw [(hp r r' hr hr' hlt).1] at hs
    cases hs
  · exact heq
  · rw [(hp r' r hr' hr hlt).2] at hs
    cases hs

/-- R145: the table entry that the bits read so far are. -/
theorem rankWithCode_some (b : Build) (ht : tableLegal b.codeTable) (u : List Bool) (r : Nat) :
    rankWithCode b.codeTable (bitsValue u) u.length = some r ↔ r < 256 ∧ rankBits b r = u := by
  have hlen : b.codeTable.length = 256 := ht.1
  constructor
  · intro h
    obtain ⟨hr, hc, -⟩ := List.findIdx?_eq_some_iff_getElem.1 h
    simp only [Bool.and_eq_true, decide_eq_true_eq] at hc
    exact ⟨hlen ▸ hr, (rankBits_eq_iff b ht r hr u).2 hc⟩
  · rintro ⟨hr, rfl⟩
    have hr' : r < b.codeTable.length := hlen ▸ hr
    refine List.findIdx?_eq_some_iff_getElem.2 ⟨hr', ?_, ?_⟩
    · simpa using (rankBits_eq_iff b ht r hr' _).1 rfl
    · intro k hk hc
      simp only [Bool.and_eq_true, decide_eq_true_eq] at hc
      have hk' : k < b.codeTable.length := Nat.lt_trans hk hr'
      have := rankBits_prefix b ht k r hk' hr' (by rw [(rankBits_eq_iff b ht k hk' _).2 hc])
      omega

/-- R141 T2: a code has at most 11 bits. -/
theorem rankBits_length_le (b : Build) (ht : tableLegal b.codeTable) (r : Nat) (hr : r < 256) : (rankBits b r).length ≤ 11 := by
  have hr' : r < b.codeTable.length := by
    have : b.codeTable.length = 256 := ht.1
    omega
  rw [rankBits_length, code_eq_getElem b r hr']
  exact (ht.2.1 _ (List.getElem_mem hr')).2.1

theorem decodeRankFrom_posAt (b : Build) (ht : tableLegal b.codeTable) (l : List Byte) (q : Nat) (hq : q ≤ 8 * l.length)
    (fuel : Nat) (u : List Bool) (hu : BitsAt l q u) (hf : fuel + u.length = 11)
    (hn : ∀ r, r < 256 → ¬rankBits b r <+: u) (r : Nat) (c : Cursor) :
    decodeRankFrom b.codeTable fuel (bitsValue u) u.length (posAt l (q + u.length)) = some (r, c) ↔
      r < 256 ∧ BitsAt l q (rankBits b r) ∧ c = posAt l (q + (rankBits b r).length) := by
  have hext : ∀ r, r < 256 → BitsAt l q (rankBits b r) → ∃ x v, rankBits b r = u ++ x :: v := by
    intro r hr h
    rcases List.prefix_or_prefix_of_prefix hu h with h1 | h1
    · obtain ⟨v, hv⟩ := h1
      cases v with
      | nil => exact absurd (by simp [← hv]) (hn r hr)
      | cons x v => exact ⟨x, v, hv.symm⟩
    · exact absurd h1 (hn r hr)
  induction fuel generalizing u with
  | zero =>
    simp only [decodeRankFrom, reduceCtorEq, false_iff]
    rintro ⟨hr, h, -⟩
    obtain ⟨x, v, hv⟩ := hext r hr h
    have := rankBits_length_le b ht r hr
    rw [hv] at this
    simp only [List.length_append, List.length_cons] at this
    omega
  | succ fuel ih =>
    have hle := hu.le hq
    rw [decodeRankFrom]
    split
    · rename_i hb
      simp only [reduceCtorEq, false_iff]
      rintro ⟨hr, h, -⟩
      obtain ⟨x, v, hv⟩ := hext r hr h
      rw [hv] at h
      have h1 := ((bitsAt_append l _ [x] v).1 (by simpa using ((bitsAt_append l q u (x :: v)).1 h).2)).1
      rw [(readBit_posAt l _ hle x _).2 ⟨trivial, h1, rfl⟩] at hb
      cases hb
    · rename_i x c1 hb
      obtain ⟨-, h1, rfl⟩ := (readBit_posAt l _ hle x c1).1 hb
      have hu' : BitsAt l q (u ++ [x]) := (bitsAt_append l q u [x]).2 ⟨hu, h1⟩
      have hval : 2 * bitsValue u + x.toNat = bitsValue (u ++ [x]) := by
        unfold bitsValue
        rw [bitsValueFrom_append]
        rfl
      have hlen : u.length + 1 = (u ++ [x]).length := by simp
      have hpos : q + u.length + [x].length = q + (u ++ [x]).length := by simp [Nat.add_assoc]
      rw [hval, hlen, hpos]
      split
      · rename_i r' hr'
        obtain ⟨h2, h3⟩ := (rankWithCode_some b ht _ _).1 hr'
        simp only [Option.some.injEq, Prod.mk.injEq]
        constructor
        · rintro ⟨rfl, rfl⟩
          exact ⟨h2, by rw [h3]; exact hu', by rw [h3]⟩
        · rintro ⟨hr, h, rfl⟩
          have hl : b.codeTable.length = 256 := ht.1
          have : r' = r := by
            rcases List.prefix_or_prefix_of_prefix hu' h with h4 | h4
            · exact rankBits_prefix b ht r' r (by omega) (by omega) (h3 ▸ h4)
            · exact (rankBits_prefix b ht r r' (by omega) (by omega) (h3 ▸ h4)).symm
          subst this
          exact ⟨rfl, by rw [h3]⟩
      · rename_i hr'
        have hn' : ∀ r, r < 256 → ¬rankBits b r <+: u ++ [x] := by
          intro r hr h
          rcases List.prefix_concat_iff.1 h with h4 | h4
          · rw [(rankWithCode_some b ht _ r).2 ⟨hr, h4⟩] at hr'
            cases hr'
          · exact hn r hr h4
        refine ih (u ++ [x]) hu' (by simp; omega) hn' ?_
        intro r hr h
        rcases List.prefix_or_prefix_of_prefix hu' h with h4 | h4
        · obtain ⟨v, hv⟩ := h4
          cases v with
          | nil => exact absurd (by simp [← hv]) (hn' r hr)
          | cons y v => exact ⟨y, v, hv.symm⟩
        · exact absurd h4 (hn' r hr)

/-- R90, R145: one rank code of a prefix-free table. -/
theorem decodeRank_posAt (b : Build) (ht : tableLegal b.codeTable) (l : List Byte) :
    ReadsAt (decodeRank b.codeTable) (fun r => r < 256) (rankBits b) l := by
  intro q hq r c
  refine decodeRankFrom_posAt b ht l q hq 11 [] List.nil_prefix rfl ?_ r c
  intro r hr h
  have hr' : r < b.codeTable.length := by
    have : b.codeTable.length = 256 := ht.1
    omega
  have h1 := (ht.2.1 _ (List.getElem_mem hr')).1
  have h2 := h.length_le
  rw [rankBits_length, code_eq_getElem b r hr', List.length_nil] at h2
  have : Config.minCodeLen = 3 := rfl
  omega

/-! ### Literals -/

/-- R62, R213: one literal, from byte j on. -/
theorem readLiteral_posAt (l : List Byte) (wb : Nat) (hw : wb ≤ 8) (j : Nat) (w : Word) (c : Cursor) :
    readLiteral wb (posAt l (8 * j)) = some (w, c) ↔
      w.toNat < 2 ^ (8 * wb) ∧ leBytes wb w.toNat <+: l.drop j ∧ c = posAt l (8 * (j + wb)) := by
  have hpow : ∀ n : Nat, 2 ^ (8 * n) = 256 ^ n := fun n => by rw [Nat.pow_mul]
  have h64 : 256 ^ wb ≤ 2 ^ 64 := by
    calc 256 ^ wb ≤ 256 ^ 8 := Nat.pow_le_pow_right (by omega) hw
      _ = 2 ^ 64 := by norm_num
  have hj : (posAt l (8 * j)).rest = l.drop j := by simp [posAt]
  have hp : ∀ k, posAt l (8 * k) = ⟨l.drop k, 0⟩ := fun k => by simp [posAt]
  unfold readLiteral readBytes
  rw [hj, hpow]
  constructor
  · intro h
    split at h
    · simp at h
    · rename_i front c1 hf
      split at hf
      · simp at hf
      · rename_i f k hk
        obtain ⟨h1, h2⟩ := takeBytes_some _ _ _ _ hk
        simp only [Option.some.injEq, Prod.mk.injEq] at hf h
        obtain ⟨rfl, rfl⟩ := hf
        obtain ⟨rfl, rfl⟩ := h
        have hv := leValue_lt f
        rw [h2] at hv
        have hn : (BitVec.ofNat 64 (leValue f)).toNat = leValue f := by
          rw [BitVec.toNat_ofNat, Nat.mod_eq_of_lt (by omega)]
        refine ⟨by rw [hn]; exact hv, ?_, ?_⟩
        · rw [hn, ← h2, leBytes_leValue]
          exact ⟨k, h1.symm⟩
        · rw [hp, ← List.drop_drop, h1, ← h2, List.drop_left]
  · rintro ⟨hv, ⟨t, h⟩, rfl⟩
    have hk := takeBytes_append (leBytes wb w.toNat) t
    rw [leBytes_length] at hk
    rw [← h, hk]
    simp only [leValue_leBytes, Nat.mod_eq_of_lt hv, BitVec.ofNat_toNat, BitVec.setWidth_eq, Option.some.injEq,
      Prod.mk.injEq, true_and]
    rw [hp, ← List.drop_drop, ← h, List.drop_left' (by simp)]

/-- R62, R213: n literals, from byte j on. -/
theorem readLiterals_posAt (l : List Byte) (wb : Nat) (hw : wb ≤ 8) (n j : Nat) (xs : List Word) (c : Cursor) :
    readMany (readLiteral wb) n (posAt l (8 * j)) = some (xs, c) ↔
      (xs.length = n ∧ ∀ w ∈ xs, w.toNat < 2 ^ (8 * wb)) ∧ xs.flatMap (fun w => leBytes wb w.toNat) <+: l.drop j ∧
        c = posAt l (8 * (j + wb * n)) := by
  induction n generalizing j xs c with
  | zero =>
    simp only [readMany, Option.some.injEq, Prod.mk.injEq]
    constructor
    · rintro ⟨rfl, rfl⟩
      exact ⟨⟨rfl, by simp⟩, List.nil_prefix, by simp⟩
    · rintro ⟨⟨hx, -⟩, -, rfl⟩
      obtain rfl := List.length_eq_zero_iff.1 hx
      exact ⟨rfl, by simp⟩
  | succ n ih =>
    have hcat : ∀ s t : List Byte, s.length = wb → (s ++ t <+: l.drop j ↔ s <+: l.drop j ∧ t <+: l.drop (j + wb)) := by
      intro s t hs
      constructor
      · rintro ⟨r, hr⟩
        refine ⟨⟨t ++ r, by rw [← List.append_assoc, hr]⟩, ⟨r, ?_⟩⟩
        rw [← List.drop_drop, ← hr, List.append_assoc, List.drop_left' hs]
      · rintro ⟨⟨r, hr⟩, ⟨r', hr'⟩⟩
        rw [← List.drop_drop, ← hr, List.drop_left' hs] at hr'
        exact ⟨r', by rw [List.append_assoc, hr', hr]⟩
    have hj : j + wb + wb * n = j + wb * (n + 1) := by ring
    simp only [readMany]
    constructor
    · intro h
      split at h
      · simp at h
      · rename_i x c1 hx
        obtain ⟨hv, h1, rfl⟩ := (readLiteral_posAt l wb hw j x c1).1 hx
        split at h
        · simp at h
        · rename_i ys c2 hys
          obtain ⟨⟨h2, h3⟩, h4, rfl⟩ := (ih _ ys _).1 hys
          simp only [Option.some.injEq, Prod.mk.injEq] at h
          obtain ⟨rfl, rfl⟩ := h
          refine ⟨⟨by simp [h2], by simpa using ⟨hv, h3⟩⟩, ?_, by rw [hj]⟩
          rw [List.flatMap_cons]
          exact (hcat _ _ (by simp)).2 ⟨h1, h4⟩
    · rintro ⟨⟨hl, hv⟩, h, rfl⟩
      cases xs with
      | nil => simp at hl
      | cons x ys =>
        rw [List.flatMap_cons] at h
        obtain ⟨h1, h2⟩ := (hcat _ _ (by simp)).1 h
        rw [(readLiteral_posAt l wb hw j x _).2 ⟨hv x (by simp), h1, rfl⟩]
        dsimp only
        rw [(ih _ ys _).2 ⟨⟨by simpa using hl, fun y hy => hv y (by simp [hy])⟩, h2, rfl⟩]
        simp only [hj]

end Sys2Proof.Machine
end

