-- ==== Sys2Proof/Laws/Meanings.lean ====
section
/-! SUPPORT. Everything each command can do, one inversion lemma for each meaning: it raises an error and changes nothing else,
or its checks have passed and it does one of the things its rule lists. -/

namespace Sys2Proof.Machine

theorem execNop_eq (s : State) : execNop s = .next (s.respond .ok false 0) := rfl

theorem execCtxInit_cases (m : Mode) (w : WordSel) (h : BitVec 5) (d : BitVec 64) (s : State) :
    ((h = 0 ∨ s.build.maxHashBits.toNat < h.toNat) ∧ execCtxInit m w h d s = .next (s.raise .illegalCommand)) ∨
    (h ≠ 0 ∧ h.toNat ≤ s.build.maxHashBits.toNat ∧
      execCtxInit m w h d s = .next ((s.newContext m w h d).respond .ok false 0)) := by
  cases hc : (decide (h = 0) || decide (s.build.maxHashBits.toNat < h.toNat))
  · simp only [Bool.or_eq_false_iff, decide_eq_false_iff_not, not_lt] at hc
    refine .inr ⟨hc.1, hc.2, ?_⟩
    simp only [execCtxInit, firstError_cons, firstError_nil, decide_eq_false hc.1,
      decide_eq_false (Nat.not_lt.2 hc.2), Bool.or_false, Bool.false_eq_true, if_false]
  · refine .inl ⟨by simpa using hc, ?_⟩
    simp only [execCtxInit, firstError_cons, hc, if_true]

theorem execOutGrant_cases (d : BitVec 64) (s : State) :
    (s.init = false ∧ execOutGrant d s = .next (s.raise .wrongState)) ∨
    (s.init = true ∧ execOutGrant d s = .next ((s.grant d).respond .ok true (s.grant d).outAvail)) := by
  cases h : s.init <;> simp [execOutGrant, h]

theorem execReadReg_cases (n : BitVec 8) (s : State) :
    (regValue s n = none ∧ execReadReg n s = .next (s.raise .illegalCommand)) ∨
    (∃ v, regValue s n = some v ∧ execReadReg n s = .next (s.respond .ok true v)) := by
  unfold execReadReg
  cases h : regValue s n with
  | none => exact .inl ⟨rfl, rfl⟩
  | some v => exact .inr ⟨v, rfl, rfl⟩

theorem execHash_cases (d : BitVec 64) (s : State) :
    (s.init = false ∧ execHash d s = .next (s.raise .wrongState)) ∨
    (s.init = true ∧
      execHash d s = .next (s.respond .ok true (BitVec.ofNat 64 (s.hash (wordOperand s.wsel d))))) := by
  cases h : s.init <;> simp [execHash, h]

theorem execDictRead_cases (b : BitVec 16) (r : BitVec 8) (s : State) :
    (∃ e ∈ [Status.wrongState, .illegalCommand], execDictRead b r s = .next (s.raise e)) ∨
    (s.init = true ∧ bucketOk s b = true ∧ rankOk s r = true ∧
      ((∃ w, s.dict.ent b.toNat r.toNat = some w ∧ execDictRead b r s = .next (s.respond .ok true w)) ∨
       (s.dict.ent b.toNat r.toNat = none ∧
        execDictRead b r s = .next (s.respond .ok false (BitVec.ofNat 64 (s.dict.occ b.toNat)))))) := by
  unfold execDictRead
  cases h1 : s.init <;> cases h2 : bucketOk s b <;> cases h3 : rankOk s r <;>
    cases h4 : s.dict.ent b.toNat r.toNat <;> simp

theorem execRankEnc_eq (r : BitVec 8) (s : State) :
    execRankEnc r s = .next (s.respond .ok true (rankEncResult (Build.code s.build r.toNat))) := rfl

theorem execRankDec_cases (d : BitVec 64) (s : State) :
    (rankOfWindow s.build.codeTable (windowOperand d) = none ∧ execRankDec d s = .next (s.raise .corruptStream)) ∨
    (∃ r, rankOfWindow s.build.codeTable (windowOperand d) = some r ∧
      execRankDec d s = .next (s.respond .ok true (rankDecResult (Build.code s.build r) r))) := by
  unfold execRankDec
  cases h : rankOfWindow s.build.codeTable (windowOperand d) with
  | none => exact .inl ⟨rfl, rfl⟩
  | some r => exact .inr ⟨r, rfl, rfl⟩

theorem execEncWord_cases (d : BitVec 64) (s : State) :
    (∃ e ∈ [Status.wrongState, .faulted, .outputOverflow], execEncWord d s = .next (s.raise e)) ∨
    (s.init = true ∧ s.fault = false ∧ s.mode = .enc ∧ s.finished = false ∧ s.flushPending = false ∧
      execEncWord d s = .next (s.acceptWord (wordOperand s.wsel d))) := by
  unfold execEncWord
  cases h1 : s.init <;> cases h2 : s.fault <;> cases h3 : s.mode <;> cases h4 : s.finished <;>
    cases h5 : s.flushPending <;> simp

/-- Pending a flush that is pending changes nothing (R174). -/
theorem pend_of_pending (s : State) (h : s.flushPending = true) : { s with flushPending := true } = s := by
  cases s
  simp only at h
  subst h
  rfl

theorem execEncFlush_cases (s : State) :
    (∃ e ∈ [Status.wrongState, .faulted], execEncFlush s = .next (s.raise e)) ∨
    (s.init = true ∧ s.fault = false ∧ s.mode = .enc ∧
      ((s.flushPending = false ∧ execEncFlush s = .next (s.respond .ok false 0)) ∨
       (s.flushPending = true ∧ s.serializeBlock.length ≤ s.outAvail.toNat ∧ execEncFlush s =
          .next (((s.outWrite s.serializeBlock).blockReset).respond .ok true (BitVec.ofNat 64 s.serializeBlock.length))) ∨
       (s.flushPending = true ∧ s.outAvail.toNat < s.serializeBlock.length ∧ execEncFlush s =
          .next (s.respond .outputOverflow false (BitVec.ofNat 64 s.serializeBlock.length))))) := by
  cases h1 : s.init
  · exact .inl ⟨.wrongState, by simp, by simp [execEncFlush, h1]⟩
  cases h2 : s.fault
  · cases h3 : s.mode
    · refine .inr ⟨rfl, rfl, rfl, ?_⟩
      cases h5 : s.flushPending
      · exact .inl ⟨rfl, by simp [execEncFlush, h1, h2, h3, h5]⟩
      · rcases flushOrPend_cases s with ⟨hf, he⟩ | ⟨hf, he⟩
        · exact .inr (.inl ⟨rfl, hf, by simp [execEncFlush, h1, h2, h3, h5, he]⟩)
        · refine .inr (.inr ⟨rfl, hf, ?_⟩)
          rw [pend_of_pending s h5] at he
          simp [execEncFlush, h1, h2, h3, h5, he]
    · exact .inl ⟨.wrongState, by simp, by simp [execEncFlush, h1, h2, h3]⟩
  · exact .inl ⟨.faulted, by simp, by simp [execEncFlush, h1, h2]⟩

theorem execEncFinish_cases (s : State) :
    (∃ e ∈ [Status.wrongState, .faulted, .outputOverflow], execEncFinish s = .next (s.raise e)) ∨
    (s.init = true ∧ s.fault = false ∧ s.mode = .enc ∧ s.finished = false ∧ s.flushPending = false ∧
      ((s.sigCount = 0 ∧ execEncFinish s = .next (s.declareEnd.respond .ok true 1)) ∨
       (s.sigCount ≠ 0 ∧ s.serializeBlock.length ≤ s.outAvail.toNat ∧ execEncFinish s =
          .next (((s.declareEnd.outWrite s.serializeBlock).blockReset).respond .ok true 3)) ∨
       (s.sigCount ≠ 0 ∧ s.outAvail.toNat < s.serializeBlock.length ∧ execEncFinish s =
          .next ({ s.declareEnd with flushPending := true }.respond .outputOverflow true 3)))) := by
  by_cases hg : s.init = true ∧ s.fault = false ∧ s.mode = .enc ∧ s.finished = false ∧ s.flushPending = false
  · obtain ⟨h1, h2, h3, h4, h5⟩ := hg
    refine .inr ⟨h1, h2, h3, h4, h5, ?_⟩
    by_cases h6 : s.sigCount = 0#13
    · exact .inl ⟨h6, by simp [execEncFinish, h1, h2, h3, h4, h5, h6]⟩
    · have hb : s.declareEnd.serializeBlock = s.serializeBlock := rfl
      rcases flushOrPend_cases s.declareEnd with ⟨hf, he⟩ | ⟨hf, he⟩
      · exact .inr (.inl ⟨h6, by simpa [hb] using hf, by simp [execEncFinish, h1, h2, h3, h4, h5, h6, he, hb]⟩)
      · exact .inr (.inr ⟨h6, by simpa [hb] using hf, by simp [execEncFinish, h1, h2, h3, h4, h5, h6, he]⟩)
  · left
    unfold execEncFinish
    cases h1 : s.init <;> cases h2 : s.fault <;> cases h3 : s.mode <;> cases h4 : s.finished <;>
      cases h5 : s.flushPending <;> simp_all

theorem execEncTail_cases (n : BitVec 3) (d : BitVec 64) (s : State) :
    (∃ e ∈ [Status.illegalCommand, .wrongState, .faulted, .outputOverflow], execEncTail n d s = .next (s.raise e)) ∨
    (n ≠ 0 ∧ s.init = true ∧ n.toNat < wordBytes s.wsel ∧ s.fault = false ∧ s.mode = .enc ∧ s.finished = true ∧
      s.tailDone = false ∧ s.flushPending = false ∧ n.toNat ≤ s.outAvail.toNat ∧
      execEncTail n d s = .next ((s.writeTail (tailOperand n d)).respond .ok true (BitVec.ofNat 64 n.toNat))) := by
  unfold execEncTail
  cases h : firstError _ with
  | some e => exact .inl ⟨e, by
    have := firstError_some _ _ h
    simp only [List.mem_cons, Prod.mk.injEq, List.not_mem_nil, or_false] at this ⊢
    tauto, rfl⟩
  | none =>
    right
    rw [firstError_none] at h
    simp only [List.mem_cons, List.not_mem_nil, or_false, forall_eq_or_imp, forall_eq, State.fits,
      decide_eq_false_iff_not, Bool.or_eq_false_iff, Bool.not_eq_eq_eq_not, Bool.not_false,
      decide_eq_true_eq, not_le, Decidable.not_not] at h
    obtain ⟨h1, h2, h3, h4, ⟨⟨h5, h6⟩, h7⟩, h8, h9⟩ := h
    exact ⟨h1, h2, h3, h4, h5, h6, h7, h8, h9, rfl⟩

theorem execDecBlock_cases (s : State) :
    (∃ e ∈ [Status.wrongState, .faulted, .outputOverflow], execDecBlock s = .next (s.raise e)) ∨
    (s.init = true ∧ s.fault = false ∧ s.mode = .dec ∧ s.decRemain ≠ 0 ∧
      ((s.parse = none ∧ execDecBlock s = .next (s.decodeFault .corruptStream .corruptStream)) ∨
       (∃ p, s.parse = some p ∧ s.rebuild p = none ∧
          execDecBlock s = .next (s.decodeFault .invalidCode .invalidCode)) ∨
       (∃ p x, s.parse = some p ∧ s.rebuild p = some x ∧ p.sigs.length * wordBytes s.wsel ≤ s.outAvail.toNat ∧
          execDecBlock s = .next ((s.commit p x).respond .ok true (BitVec.ofNat 64 p.sigs.length))))) := by
  unfold execDecBlock
  cases h : firstError _ with
  | some e => exact .inl ⟨e, by
    have := firstError_some _ _ h
    simp only [List.mem_cons, Prod.mk.injEq, List.not_mem_nil, or_false] at this ⊢
    tauto, rfl⟩
  | none =>
    rw [firstError_none] at h
    simp only [List.mem_cons, List.not_mem_nil, or_false, forall_eq_or_imp, forall_eq,
      decide_eq_false_iff_not, Bool.or_eq_false_iff, Bool.not_eq_false', Decidable.not_not] at h
    obtain ⟨h1, h2, h3, h4⟩ := h
    cases hp : s.parse with
    | none => exact .inr ⟨h1, h2, h3, h4, .inl ⟨rfl, rfl⟩⟩
    | some p =>
      cases hx : s.rebuild p with
      | none => exact .inr ⟨h1, h2, h3, h4, .inr (.inl ⟨p, rfl, hx, by simp [hx]⟩)⟩
      | some x =>
        by_cases hf : p.sigs.length * wordBytes s.wsel ≤ s.outAvail.toNat
        · exact .inr ⟨h1, h2, h3, h4, .inr (.inr ⟨p, x, rfl, hx, hf, by simp [hx, State.fits, hf]⟩)⟩
        · exact .inl ⟨.outputOverflow, by simp, by simp [hx, State.fits, hf]⟩

theorem execDecTail_cases (s : State) :
    (∃ e ∈ [Status.wrongState, .faulted, .outputOverflow], execDecTail s = .next (s.raise e)) ∨
    (s.init = true ∧ s.fault = false ∧ s.mode = .dec ∧ s.decRemain = 0 ∧ s.tailRem ≠ 0 ∧ s.tailDone = false ∧
      ((s.cursor.rest.length < s.tailRem.toNat ∧
          execDecTail s = .next (s.decodeFault .corruptStream .corruptStream)) ∨
       (s.tailRem.toNat ≤ s.cursor.rest.length ∧ s.tailRem.toNat ≤ s.outAvail.toNat ∧ execDecTail s =
          .next ((s.copyTail (s.cursor.rest.take s.tailRem.toNat)).respond .ok true (s.tailRem.setWidth 64))))) := by
  unfold execDecTail
  cases h : firstError _ with
  | some e => exact .inl ⟨e, by
    have := firstError_some _ _ h
    simp only [List.mem_cons, Prod.mk.injEq, List.not_mem_nil, or_false] at this ⊢
    tauto, rfl⟩
  | none =>
    rw [firstError_none] at h
    simp only [List.mem_cons, List.not_mem_nil, or_false, forall_eq_or_imp, forall_eq,
      decide_eq_false_iff_not, Bool.or_eq_false_iff, Bool.not_eq_false', Decidable.not_not] at h
    obtain ⟨h1, h2, ⟨⟨h3, h4⟩, h5⟩, h6⟩ := h
    cases ht : takeBytes s.tailRem.toNat s.cursor.rest with
    | none => exact .inr ⟨h1, h2, h3, h4, h5, h6, .inl ⟨(takeBytes_none _ _).1 ht, rfl⟩⟩
    | some p =>
      obtain ⟨front, back⟩ := p
      obtain ⟨hl, hn⟩ := takeBytes_some _ _ _ _ ht
      have hfront : s.cursor.rest.take s.tailRem.toNat = front := by rw [hl, ← hn, List.take_left']; rfl
      by_cases hf : s.tailRem.toNat ≤ s.outAvail.toNat
      · refine .inr ⟨h1, h2, h3, h4, h5, h6, .inr ⟨by rw [hl, List.length_append]; omega, hf, ?_⟩⟩
        simp [State.fits, hf, hfront]
      · exact .inl ⟨.outputOverflow, by simp, by simp [State.fits, hf]⟩

end Sys2Proof.Machine
end

