-- ==== Sys2Proof/Laws/PerInstr.lean ====
section
/-! SUPPORT. Statements made of every command as syntax, one lemma for each constructor of `Instr`. -/

/-- R84: the encoded word of a command selects its row, `(CMD & mask) = match`. -/
def Sys2Proof.Laws.EncodeSelectsRow.Statement (i : Sys2Proof.Instr) : Prop :=
  Sys2Proof.encodeCmd i &&& i.mnemonic.mask = i.mnemonic.pattern

namespace Sys2Proof.Laws

theorem EncodeSelectsRow.nop : EncodeSelectsRow.Statement .nop := by
  unfold EncodeSelectsRow.Statement
  decide

theorem EncodeSelectsRow.ctxInit (m : Mode) (w : WordSel) (h : BitVec 5) (d : BitVec 64) :
    EncodeSelectsRow.Statement (.ctxInit m w h d) := by
  show (0x01#8 ++ 0#14 ++ m.bit ++ w.bit ++ 0#3 ++ h) &&& (0xFF#8 ++ 0x3FFF#14 ++ 0#1 ++ 0#1 ++ 0x7#3 ++ 0#5) =
    0x01#8 ++ 0#14 ++ 0#1 ++ 0#1 ++ 0#3 ++ 0#5
  simp only [BitVec.and_append, BitVec.and_zero]
  rfl

theorem EncodeSelectsRow.outGrant (d : BitVec 64) : EncodeSelectsRow.Statement (.outGrant d) := by
  show encodeCmd (.outGrant 0) &&& Mnemonic.mask .outGrant = Mnemonic.pattern .outGrant
  decide

theorem EncodeSelectsRow.readReg (n : BitVec 8) : EncodeSelectsRow.Statement (.readReg n) := by
  show (0x03#8 ++ 0#16 ++ n) &&& (0xFF#8 ++ 0xFFFF#16 ++ 0#8) = 0x03#8 ++ 0#16 ++ 0#8
  simp only [BitVec.and_append, BitVec.and_zero]
  rfl

theorem EncodeSelectsRow.hash (d : BitVec 64) : EncodeSelectsRow.Statement (.hash d) := by
  show encodeCmd (.hash 0) &&& Mnemonic.mask .hash = Mnemonic.pattern .hash
  decide

theorem EncodeSelectsRow.dictRead (b : BitVec 16) (r : BitVec 8) : EncodeSelectsRow.Statement (.dictRead b r) := by
  show (0x20#8 ++ b ++ r) &&& (0xFF#8 ++ 0#16 ++ 0#8) = 0x20#8 ++ 0#16 ++ 0#8
  simp only [BitVec.and_append, BitVec.and_zero]
  rfl

theorem EncodeSelectsRow.rankEnc (r : BitVec 8) : EncodeSelectsRow.Statement (.rankEnc r) := by
  show (0x30#8 ++ 0#16 ++ r) &&& (0xFF#8 ++ 0xFFFF#16 ++ 0#8) = 0x30#8 ++ 0#16 ++ 0#8
  simp only [BitVec.and_append, BitVec.and_zero]
  rfl

theorem EncodeSelectsRow.rankDec (d : BitVec 64) : EncodeSelectsRow.Statement (.rankDec d) := by
  show encodeCmd (.rankDec 0) &&& Mnemonic.mask .rankDec = Mnemonic.pattern .rankDec
  decide

theorem EncodeSelectsRow.encWord (d : BitVec 64) : EncodeSelectsRow.Statement (.encWord d) := by
  show encodeCmd (.encWord 0) &&& Mnemonic.mask .encWord = Mnemonic.pattern .encWord
  decide

theorem EncodeSelectsRow.encFlush : EncodeSelectsRow.Statement .encFlush := by
  unfold EncodeSelectsRow.Statement
  decide

theorem EncodeSelectsRow.encFinish : EncodeSelectsRow.Statement .encFinish := by
  unfold EncodeSelectsRow.Statement
  decide

theorem EncodeSelectsRow.encTail (n : BitVec 3) (d : BitVec 64) : EncodeSelectsRow.Statement (.encTail n d) := by
  show (0x43#8 ++ 0#21 ++ n) &&& (0xFF#8 ++ 0x1FFFFF#21 ++ 0#3) = 0x43#8 ++ 0#21 ++ 0#3
  simp only [BitVec.and_append, BitVec.and_zero]
  rfl

theorem EncodeSelectsRow.decBlock : EncodeSelectsRow.Statement .decBlock := by
  unfold EncodeSelectsRow.Statement
  decide

theorem EncodeSelectsRow.decTail : EncodeSelectsRow.Statement .decTail := by
  unfold EncodeSelectsRow.Statement
  decide

end Sys2Proof.Laws
end

