-- ==== Sys2Proof/Machine/Assembler.lean ====
section
/-! DEFINITION. The text of the assembler syntax (30_encoding.md R92, R93): one command a line, `mnemonic operands ; comment`,
read into an `AsmLine`, and the listing of a command in hexadecimal. `enc.bytes` and `dec.all` have no line here: the
spec gives a byte string no spelling, and `dec.all` is a host loop (assumption log 11). -/

namespace Sys2Proof.Machine

/-- The value of a digit. -/
def digitValue (c : Char) : Option Nat := "0123456789abcdef".toList.findIdx? (fun d => d = c.toLower)

/-- The value of a run of digits of a base, `acc` being the value of those already read. -/
def digitsFrom (base acc : Nat) : List Char → Option Nat
  | [] => some acc
  | c :: cs =>
    match digitValue c with
    | some d => if d < base then digitsFrom base (base * acc + d) cs else none
    | none => none

/-- R92: "Numbers are decimal, or hexadecimal with 0x, or binary with 0b." -/
def parseNumber : List Char → Option Nat
  | [] => none
  | '0' :: 'x' :: d :: ds => digitsFrom 16 0 (d :: ds)
  | '0' :: 'b' :: d :: ds => digitsFrom 2 0 (d :: ds)
  | c :: cs => digitsFrom 10 0 (c :: cs)

/-- A number that its field of w bits can hold; no operand is cut to its field (assumption log 11). -/
def parseField (w : Nat) (cs : List Char) : Option (BitVec w) :=
  match parseNumber cs with
  | some n => if n < 2 ^ w then some (BitVec.ofNat w n) else none
  | none => none

/-- The characters without the blanks around them. -/
def trimBlanks (cs : List Char) : List Char :=
  ((cs.dropWhile Char.isWhitespace).reverse.dropWhile Char.isWhitespace).reverse

/-- The operands, separated by commas. -/
def splitCommas : List Char → List (List Char)
  | [] => [[]]
  | c :: cs =>
    match splitCommas cs with
    | [] => [[c]]
    | x :: xs => if c = ',' then [] :: x :: xs else (c :: x) :: xs

/-- R38: the register names, at their numbers. -/
def registerNames : List String :=
  ["CTXSTAT", "OUT_POS", "OUT_AVAIL", "IN_POS", "DEC_REMAIN", "TAILREM", "LASTB", "BLKCNT", "BLK_HITS", "BLK_MISSES",
    "BLK_ESCS", "PRODBITS", "ESC_EVENTS", "WORDCNT", "PARAMS"]

/-- R92 `rdreg`: a REGNO or a register name. -/
def parseRegister (cs : List Char) : Option (BitVec 8) :=
  match registerNames.findIdx? (fun name => name.toList = cs) with
  | some n => some (BitVec.ofNat 8 n)
  | none => parseField 8 cs

/-- R92: `enc` or `dec`. -/
def parseMode (cs : List Char) : Option Mode :=
  if cs = "enc".toList then some .enc else if cs = "dec".toList then some .dec else none

/-- R92: `w4` or `w8`. -/
def parseWsel (cs : List Char) : Option WordSel :=
  if cs = "w4".toList then some .w4 else if cs = "w8".toList then some .w8 else none

/-- R92: `h<HBITS>`. -/
def parseHbits : List Char → Option (BitVec 5)
  | 'h' :: cs => parseField 5 cs
  | _ => none

/-- R92: `size=<S>`. -/
def parseSize : List Char → Option (BitVec 64)
  | 's' :: 'i' :: 'z' :: 'e' :: '=' :: cs => parseField 64 cs
  | _ => none

/-- R92, R93: the mnemonics of a line. -/
def parseOperands (mnemonic : String) (operands : List (List Char)) : Option AsmLine :=
  match mnemonic, operands with
  | "nop", [] => some .nop
  | "ctx.init", [m, w, h] =>
    match parseMode m, parseWsel w, parseHbits h with
    | some m, some w, some h => some (.ctxInit m w h none)
    | _, _, _ => none
  | "ctx.init", [m, w, h, z] =>
    match parseMode m, parseWsel w, parseHbits h, parseSize z with
    | some m, some w, some h, some z => some (.ctxInit m w h (some z))
    | _, _, _, _ => none
  | "out.grant", [n] => (parseField 64 n).map .outGrant
  | "rdreg", [r] => (parseRegister r).map .rdreg
  | "hash", [w] => (parseField 64 w).map .hash
  | "dict.rd", [b, r] =>
    match parseField 16 b, parseField 8 r with
    | some b, some r => some (.dictRd b r)
    | _, _ => none
  | "rank.enc", [r] => (parseField 8 r).map .rankEnc
  | "rank.dec", [v] => (parseField 11 v).map .rankDec
  | "enc.word", [w] => (parseField 64 w).map .encWord
  | "enc.flush", [] => some .encFlush
  | "enc.finish", [] => some .encFinish
  | "enc.tail", [n, v] =>
    match parseField 3 n, parseField 64 v with
    | some n, some v => some (.encTail n v)
    | _, _ => none
  | "dec.block", [] => some .decBlock
  | "dec.tail", [] => some .decTail
  | "rdstat", [] => some .rdstat
  | _, _ => none

/-- The operands behind a mnemonic: none at all, or one more than the commas between them. -/
def operandList (cs : List Char) : List (List Char) :=
  if trimBlanks cs = [] then [] else (splitCommas cs).map trimBlanks

/-- R92: one line, `mnemonic operands ; comment`; none where it is no line of the syntax. -/
def parseLine (line : String) : Option AsmLine :=
  let body := trimBlanks (line.toList.takeWhile (fun c => c ≠ ';'))
  parseOperands (String.ofList (body.takeWhile (fun c => !c.isWhitespace)))
    (operandList (body.dropWhile (fun c => !c.isWhitespace)))

/-- The n low hexadecimal digits of a number, the most significant first. -/
def hexDigits : Nat → Nat → List Char
  | 0, _ => []
  | n + 1, v => hexDigits n (v / 16) ++ ["0123456789ABCDEF".toList.getD (v % 16) '0']

/-- R92: "A listing shows each command as CMD DATA in hexadecimal." -/
def listing (c : Command) : String :=
  String.ofList (hexDigits 8 c.cmd.toNat ++ ' ' :: hexDigits 16 c.data.toNat)

end Sys2Proof.Machine
end

