-- ==== Sys2Proof/Tests/Slice0.lean ====
section
/-! SUPPORT. Tests: the checks of WellFormed refuse ill-formed commands, command words written out from R84 decode, each command
answers as spec/95_test_vectors.md says, and the hypotheses of every statement are met by a concrete state. -/

/- One proof at a time: it keeps the memory of the compile small. -/
set_option Elab.async false

namespace Sys2Proof.Tests

open Sys2Proof.Machine

/-! ### WellFormed: one ill-formed command for each check -/

theorem test_wellFormed_refuses_hbits_zero : (Instr.ctxInit .enc .w4 0 0).wellFormed referenceBuild = false := by decide

theorem test_wellFormed_refuses_hbits_over_the_maximum :
    (Instr.ctxInit .enc .w4 17 0).wellFormed referenceBuild = false := by decide

theorem test_wellFormed_refuses_regno_0F : (Instr.readReg 0x0F).wellFormed referenceBuild = false := by decide

theorem test_wellFormed_refuses_empty_tail : (Instr.encTail 0 0x65).wellFormed referenceBuild = false := by decide

theorem test_wellFormed_accepts_boundary_values :
    (Instr.ctxInit .enc .w4 16 0).wellFormed referenceBuild = true ∧ (Instr.readReg 0x0E).wellFormed referenceBuild = true ∧
    (Instr.encTail 7 0).wellFormed referenceBuild = true := by decide

/-! ### The assembler's text: lines of 95_test_vectors.md with the listing that stands beside them -/

theorem test_line_and_listing_of_a_decode_context :
    parseLine "ctx.init dec, w4, h4, size=26 ; fresh context" = some (.ctxInit .dec .w4 4 (some 26)) ∧
    (assemble (.ctxInit .dec .w4 4 (some 26))).map (fun i => listing (encode i)) = ["01000204 000000000000001A"] := by
  decide +kernel

theorem test_lines_with_numbers_and_register_names :
    parseLine "rank.dec 0b11111111111" = some (.rankDec 0x7FF) ∧ parseLine "rdreg IN_POS" = some (.rdreg 3) ∧
    parseLine "enc.word 0x64636261" = some (.encWord 0x64636261) ∧ parseLine "dict.rd 70000, 1" = none := by
  decide +kernel

/-! ### Decode: words written out from the opcode map of R84 and the formats of R82 -/

/-- What a command word decodes to, none where it is rejected. -/
def decoded (cmd : BitVec 32) (data : BitVec 64) : Option Instr :=
  match decode ⟨cmd, data⟩ with
  | .ok i => some i
  | .error _ => none

/-- The name under which a command word is rejected. -/
def rejectedAs (cmd : BitVec 32) : Option DecodeError :=
  match decode ⟨cmd, 0⟩ with
  | .ok _ => none
  | .error e => some e

theorem test_decode_nop : decoded 0b00000000_000000000000000000000000 5 = some .nop := by decide

theorem test_decode_ctxInit : decoded 0b00000001_00000000000000_1_1_000_10000 20 = some (.ctxInit .dec .w8 16 20) := by decide

theorem test_decode_outGrant : decoded 0b00000010_000000000000000000000000 100 = some (.outGrant 100) := by decide

theorem test_decode_readReg : decoded 0b00000011_0000000000000000_00001110 0 = some (.readReg 14) := by decide

theorem test_decode_hash : decoded 0b00010000_000000000000000000000000 0x64636261 = some (.hash 0x64636261) := by decide

theorem test_decode_dictRead : decoded 0b00100000_0000000000000110_00000001 0 = some (.dictRead 6 1) := by decide

theorem test_decode_rankEnc : decoded 0b00110000_0000000000000000_11111111 0 = some (.rankEnc 255) := by decide

theorem test_decode_rankDec : decoded 0b00110001_000000000000000000000000 0x155 = some (.rankDec 0x155) := by decide

theorem test_decode_encWord : decoded 0b01000000_000000000000000000000000 7 = some (.encWord 7) := by decide

theorem test_decode_encFlush : decoded 0b01000001_000000000000000000000000 0 = some .encFlush := by decide

theorem test_decode_encFinish : decoded 0b01000010_000000000000000000000000 0 = some .encFinish := by decide

theorem test_decode_encTail : decoded 0b01000011_000000000000000000000_010 0x7978 = some (.encTail 2 0x7978) := by decide

theorem test_decode_decBlock : decoded 0b01010000_000000000000000000000000 0 = some .decBlock := by decide

theorem test_decode_decTail : decoded 0b01010001_000000000000000000000000 0 = some .decTail := by decide

theorem test_decode_rejects_by_name :
    rejectedAs 0x04000000 = some .unknownOpcode ∧ rejectedAs 0x00000001 = some .reservedArgBit ∧
    rejectedAs 0x01000024 = some .reservedArgBit ∧ rejectedAs 0x10000001 = some .reservedArgBit ∧
    rejectedAs 0x30000100 = some .reservedArgBit ∧ rejectedAs 0x43000008 = some .reservedArgBit := by decide

theorem test_tableWord_numbering :
    decodeTableWord 32 0x20000601 = some (.dictRead 6 1) ∧
    decodeTableWord 96 (0x1A * 2 ^ 32 + 0x01000204) = some (.ctxInit .dec .w4 4 0x1A) := by decide

/-! ### Small states -/

/-- The word A of 95_test_vectors.md, "abcd". -/
abbrev wordA : BitVec 64 := 0x64636261

/-- A fresh ENC context, w4 and h4, with 100 bytes granted; the host is about to issue ENC_WORD A. -/
def enc4 : State :=
  { State.reset.newContext .enc .w4 4 0 with outAvail := 100, port := [.issue ⟨0x40000000, wordA⟩] }

/-- The same context after ENC_WORD A. -/
def encA : State :=
  { enc4 with
    dict := ⟨[(6, [wordA])]⟩, lastb := 6, sigCount := 1, wordCnt := 1, blkMisses := 1, sigBuf := [false, false]
    dictBuf := [false, true, true, false], encBuf := [0x61, 0x62, 0x63, 0x64] }

/-- An ENC context whose end is declared. -/
def encDone : State := { enc4 with finished := true }

/-- An ENC context with the block of one word pending, its capacity 3 bytes. -/
def encPend : State := { encA with flushPending := true, outAvail := 3 }

/-- An ENC context in the middle of an escaped block. -/
def encEsc : State := { enc4 with bstate := .escaped, sigCount := 4094 }

/-- P1's output, the stream X of 95_test_vectors.md section 2.6. -/
def streamX : List Byte :=
  [0x06, 0x00, 0x11, 0x10, 0x2C, 0x04, 0x00, 0x66, 0x90, 0x61, 0x62, 0x63, 0x64, 0x65, 0x66, 0x67, 0x68, 0x01, 0x00, 0x00,
   0x00, 0x78, 0x79]

/-- A fresh DEC context, w4 and h4, over IN, with a size and a capacity. -/
def dec4 (bytes : List Byte) (size grant : BitVec 64) : State :=
  { State.reset.newContext .dec .w4 4 size with input := bytes, outAvail := grant }

/-- The stream of two escaped words, 7 and 9, of section 2.6. -/
def streamEsc : List Byte := [0x02, 0x00, 0xA0, 0x07, 0x00, 0x00, 0x00, 0x09, 0x00, 0x00, 0x00]

/-- What `streamEsc` parses to. -/
def parsedEsc : ParsedBlock := ⟨[.esc, .esc], [], [], [], [7, 9], []⟩

/-- What `parsedEsc` reconstructs to in an empty context. -/
def replayEsc : Replay := ⟨⟨[]⟩, 0, [0x07, 0x00, 0x00, 0x00, 0x09, 0x00, 0x00, 0x00]⟩

/-- A faulted DEC context. -/
def decFaulted : State := { dec4 streamX 26 26 with fault := true, faultCode := .invalidCode }

/-- The response a meaning leaves. -/
def response (r : Result) : Option Response :=
  match r with
  | .next t => some t.resp
  | .fault _ => none
  | .refused _ => none

/-- One component of the state a meaning leaves. -/
def after {α : Type} (r : Result) (f : State → α) : Option α :=
  match r with
  | .next t => some (f t)
  | .fault _ => none
  | .refused _ => none

/-! ### One command each (95_test_vectors.md) -/

theorem test_nop_reset : response (exec .nop State.reset) = some ⟨.ok, false, 0⟩ := by decide +kernel

theorem test_ctxInit_enc : after (exec (.ctxInit .enc .w4 4 9) State.reset) (fun t => (ctxStat t, t.prodBits, t.decRemain)) =
    some (0x21, 16, 0) := by decide +kernel

theorem test_ctxInit_dec : after (exec (.ctxInit .dec .w8 16 20) State.reset) (fun t => (ctxStat t, t.decRemain, t.tailRem)) =
    some (0x87, 2, 4) := by decide +kernel

theorem test_outGrant_saturates :
    response (exec (.outGrant 0xFFFFFFFFFFFFFFFF) enc4) = some ⟨.ok, true, 0xFFFFFFFFFFFFFFFF⟩ := by decide +kernel

theorem test_outGrant_before_ctxInit : response (exec (.outGrant 5) State.reset) = some ⟨.wrongState, false, 0⟩ := by
  decide +kernel

theorem test_readReg_params : response (exec (.readReg 0x0E) State.reset) = some ⟨.ok, true, 0x00000020001F8004⟩ := by
  decide +kernel

theorem test_readReg_faulted : response (exec (.readReg 0) decFaulted) = some ⟨.ok, true, 0x5023⟩ := by decide +kernel

theorem test_hash_ignores_the_high_half :
    response (exec (.hash 0xFFFFFFFF64636261) enc4) = some ⟨.ok, true, 6⟩ := by decide +kernel

theorem test_hash_w8 :
    response (exec (.hash 0x0102030405060708) (State.reset.newContext .enc .w8 12 0)) = some ⟨.ok, true, 3482⟩ := by
  decide +kernel

theorem test_dictRead_entry_and_occupancy :
    response (exec (.dictRead 6 0) encA) = some ⟨.ok, true, wordA⟩ ∧
    response (exec (.dictRead 6 1) encA) = some ⟨.ok, false, 1⟩ := by decide +kernel

theorem test_dictRead_bucket_out_of_range :
    response (exec (.dictRead 16 0) encA) = some ⟨.illegalCommand, false, 0⟩ := by decide +kernel

theorem test_rankEnc_ends : response (exec (.rankEnc 255) State.reset) = some ⟨.ok, true, 0xB07C0⟩ ∧
    response (exec (.rankEnc 200) State.reset) = some ⟨.ok, true, 0xB0789⟩ := by decide +kernel

theorem test_rankDec_ignores_the_rest :
    response (exec (.rankDec 0b00101010101) State.reset) = some ⟨.ok, true, 0x40001⟩ := by decide +kernel

theorem test_rankDec_no_match : response (exec (.rankDec 0b11111000001) State.reset) = some ⟨.corruptStream, false, 0⟩ := by
  decide +kernel

theorem test_encWord_miss : after (exec (.encWord wordA) enc4) (fun t => (t.resp, t.lastb, t.prodBits)) =
    some (⟨.ok, true, 0x00060001⟩, 6, 54) := by decide +kernel

theorem test_encWord_hit : after (exec (.encWord wordA) encA) (fun t => (t.resp, t.sigCount, t.prodBits)) =
    some (⟨.ok, true, 0x00060003⟩, 2, 60) := by decide +kernel

theorem test_encFlush_too_small : response (exec .encFlush encPend) = some ⟨.outputOverflow, false, 8⟩ := by decide +kernel

theorem test_encFlush_writes : after (exec .encFlush { encPend with outAvail := 8 }) (fun t => (t.resp, t.out, t.outAvail)) =
    some (⟨.ok, true, 8⟩, [0x01, 0x00, 0x00, 0x60, 0x61, 0x62, 0x63, 0x64], 0) := by decide +kernel

theorem test_encFinish_empty : after (exec .encFinish enc4) (fun t => (t.resp, t.finished, t.out)) =
    some (⟨.ok, true, 1⟩, true, []) := by decide +kernel

theorem test_encFinish_partial_block : after (exec .encFinish encA) (fun t => (t.resp, t.out)) =
    some (⟨.ok, true, 3⟩, [0x01, 0x00, 0x00, 0x60, 0x61, 0x62, 0x63, 0x64]) := by decide +kernel

/-- R200: the block of program P1, its streams being those of the trace. -/
theorem test_serializeBlock_of_P1 :
    ({ enc4 with
        sigCount := 6
        sigBuf := [false, false, false, true, false, false, false, true, false, false, false, true]
        predBuf := [false, false, true, false, true, true, false]
        rankBuf := [false, false, false, false, false, true, false, false, false, false]
        dictBuf := [false, true, true, false, false, true, true, false, true, false, false, true]
        encBuf := [0x61, 0x62, 0x63, 0x64, 0x65, 0x66, 0x67, 0x68, 0x01, 0x00, 0x00, 0x00] } : State).serializeBlock =
    [0x06, 0x00, 0x11, 0x10, 0x2C, 0x04, 0x00, 0x66, 0x90, 0x61, 0x62, 0x63, 0x64, 0x65, 0x66, 0x67, 0x68, 0x01, 0x00,
      0x00, 0x00] := by decide

theorem test_encTail_writes : after (exec (.encTail 2 0x7978) encDone) (fun t => (t.resp, t.out, t.tailDone)) =
    some (⟨.ok, true, 2⟩, [0x78, 0x79], true) := by decide +kernel

theorem test_encTail_before_finish : response (exec (.encTail 1 0x65) enc4) = some ⟨.wrongState, false, 0⟩ := by
  decide +kernel

theorem test_decBlock_stream_X : after (exec .decBlock (dec4 streamX 26 26)) (fun t => (t.resp, t.inPos, t.lastb, t.dict)) =
    some (⟨.ok, true, 6⟩, 21, 6, ⟨[(6, [wordA, 0x68676665]), (9, [1])]⟩) := by decide +kernel

theorem test_decBlock_checks_the_bucket :
    after (exec .decBlock (dec4 (streamX.set 7 0x76) 26 26)) (fun t => (t.resp, ctxStat t, t.inPos)) =
    some (⟨.invalidCode, false, 0⟩, 0x5023, 0) := by decide +kernel

theorem test_decTail_copies : after (exec .decTail (dec4 [0x61, 0x62] 2 2)) (fun t => (t.resp, t.out, t.outAvail)) =
    some (⟨.ok, true, 2⟩, [0x61, 0x62], 0) := by decide +kernel

theorem test_decTail_truncated : response (exec .decTail (dec4 [0x61] 2 2)) = some ⟨.corruptStream, false, 0⟩ := by
  decide +kernel

/-! ### Witnesses: the hypotheses of each statement are met, each clause at a boundary -/

/-- The answer is a next state that has a property. -/
def holdsAfter (r : Result) (p : State → Bool) : Bool :=
  match r with
  | .next t => p t
  | .fault _ => false
  | .refused _ => false

theorem exists_next (r : Result) (p : State → Bool) (h : holdsAfter r p = true) : ∃ t, r = .next t ∧ p t = true := by
  cases r with
  | next t => exact ⟨t, rfl, h⟩
  | fault f => exact f.rec
  | refused f => exact absurd h (by simp [holdsAfter])

theorem enc4_regInv : RegInv enc4 :=
  ⟨referenceBuild_legal, by decide, by decide, by decide, by decide, by decide, by decide, by decide, by decide, by decide,
    by decide⟩

theorem enc4_dictInv : DictInv enc4 :=
  ⟨referenceBuild_legal, by decide, fun _ _ => Nat.zero_le _, fun _ _ _ => List.nodup_nil,
    fun _ _ _ h => absurd h List.not_mem_nil, fun _ _ _ h => absurd h List.not_mem_nil⟩

theorem enc4_blockInv : BlockInv enc4 :=
  ⟨referenceBuild_legal, by decide, by decide, by decide, by decide, by decide, by decide, by decide, by decide, by decide,
    by decide, by decide, by decide, by decide⟩

theorem enc4_ready : EncReady enc4 := ⟨rfl, rfl, rfl, rfl, rfl⟩

theorem encA_ready : EncReady encA := ⟨rfl, rfl, rfl, rfl, rfl⟩

theorem dec4_ready (bytes : List Byte) (g : BitVec 64) : DecReady (dec4 bytes 8 g) :=
  ⟨rfl, rfl, rfl, show (BitVec.ofNat 64 (8 / 4)) ≠ 0 by decide⟩

/-- An ENC context whose block holds 255 misses. -/
def enc255 : State :=
  { enc4 with
    sigCount := 255, blkMisses := 255, sigBuf := List.replicate 510 false, dictBuf := List.replicate 1020 false
    encBuf := List.replicate 1020 0 }

theorem enc255_regInv : RegInv enc255 :=
  ⟨referenceBuild_legal, by decide, by decide, by decide, by decide, by decide, by decide, by decide, by decide, by decide,
    by decide⟩

theorem enc255_blockInv : BlockInv enc255 :=
  ⟨referenceBuild_legal, by decide, by decide, by decide, by decide, List.length_replicate, by decide, fun _ => Nat.zero_le _,
    fun _ => Nat.zero_le _, fun _ => List.length_replicate, fun _ => List.length_replicate, by decide, by decide, by decide⟩

/-- An ENC context one word before a full block, with a capacity. -/
def enc4095 (g : BitVec 64) : State := { enc4 with sigCount := 4095, outAvail := g }

/-- The state of an ENC context after a word's routing and signature. -/
def routed (s : State) (d : BitVec 64) : State :=
  (s.routeWord (wordOperand s.wsel d)).1.appendSignature (s.routeWord (wordOperand s.wsel d)).2.sig

theorem witness_CommandWordSelectsItsRow :
    (0x43000002#32) &&& Mnemonic.encTail.mask = Mnemonic.encTail.pattern ∧
    decode ⟨0x43000002, 0x7978⟩ = .ok (.encTail 2 0x7978) := ⟨by decide, rfl⟩

theorem witness_OperandsAreTheFieldsOfArg :
    decode ⟨0x01000310, 20⟩ = .ok (.ctxInit .dec .w8 16 20) ∧ decode ⟨0x0300000E, 0⟩ = .ok (.readReg 14) ∧
    decode ⟨0x20FFFFFF, 0⟩ = .ok (.dictRead 0xFFFF 0xFF) ∧ decode ⟨0x300000FF, 0⟩ = .ok (.rankEnc 255) ∧
    decode ⟨0x43000007, 1⟩ = .ok (.encTail 7 1) ∧ decode ⟨0x02000000, 1⟩ = .ok (.outGrant 1) ∧
    decode ⟨0x10000000, 1⟩ = .ok (.hash 1) ∧ decode ⟨0x31000000, 1⟩ = .ok (.rankDec 1) ∧
    decode ⟨0x40000000, 1⟩ = .ok (.encWord 1) := ⟨rfl, rfl, rfl, rfl, rfl, rfl, rfl, rfl, rfl⟩

theorem witness_IllegalCommandWordIsAnswered :
    (∀ m : Mnemonic, (0x04000000#32) &&& m.mask ≠ m.pattern) ∧
    (decode ⟨0x0300000F, 0⟩ = .ok (.readReg 0x0F) ∧ (Instr.readReg 0x0F).wellFormed referenceBuild = false) ∧
    (decode ⟨0x43000004, 0⟩ = .ok (.encTail 4 0) ∧ enc4.init = true ∧ (Instr.encTail 4 0).outOfContext enc4 = true) ∧
    (decode ⟨0x20001000, 0⟩ = .ok (.dictRead 16 0) ∧ (Instr.dictRead 16 0).outOfContext enc4 = true) ∧
    (decode ⟨0x20000F04, 0⟩ = .ok (.dictRead 15 4) ∧ (Instr.dictRead 15 4).outOfContext enc4 = true) :=
  ⟨by intro m; cases m <;> decide, ⟨rfl, by decide⟩, ⟨rfl, rfl, by decide⟩, ⟨rfl, by decide⟩, ⟨rfl, by decide⟩⟩

theorem witness_StepRunsDecodedCommand :
    (State.reset.withFetchWord 32 0x0300000E).port = [.issue ⟨0x0300000E, 0⟩] ∧
    decode ⟨0x0300000E, 0⟩ = .ok (.readReg 14) := ⟨by decide +kernel, rfl⟩

theorem witness_HardwareResetValues : ({ encA with port := [.hardReset] } : State).port = .hardReset :: [] := rfl

theorem witness_PresentingInput :
    ({ dec4 streamX 26 26 with port := [.present streamEsc] } : State).port = .present streamEsc :: [] ∧
    (dec4 streamX 26 26).init = true ∧ (dec4 streamX 26 26).mode = .dec ∧ streamEsc ≠ (dec4 streamX 26 26).input ∧
    ¬(enc4.init = true ∧ enc4.mode = .dec) := ⟨rfl, rfl, rfl, by decide, by decide⟩

theorem witness_ResetMeetsTheInvariants : BuildLegal referenceBuild := referenceBuild_legal

theorem witness_CtxInitCreatesContext :
    (1 ≤ (1#5).toNat ∧ (1#5).toNat ≤ State.reset.build.maxHashBits.toNat) ∧
    (1 ≤ (16#5).toNat ∧ (16#5).toNat ≤ State.reset.build.maxHashBits.toNat) ∧
    State.reset.build.maxHashBits.toNat < (17#5).toNat := by decide

theorem witness_OutGrantAddsCapacity : enc4.init = true ∧ State.reset.init = false := ⟨rfl, rfl⟩

theorem witness_ReadRegReturnsTheRegister : 0x0E < (0x0F#8).toNat ∧ 0x0E < (0xFF#8).toNat := by decide

theorem witness_HashAnswersTheBucket :
    (enc4.init = true ∧ enc4.wsel = .w4) ∧
    ((State.reset.newContext .dec .w8 16 0).init = true ∧ (State.reset.newContext .dec .w8 16 0).wsel = .w8) ∧
    State.reset.init = false := ⟨⟨rfl, rfl⟩, ⟨rfl, rfl⟩, rfl⟩

theorem witness_HashIsPureAndStaysInTheTable : 16 ≤ 16 ∧ enc4.wsel = encA.wsel ∧ enc4.hbits = encA.hbits ∧
    enc4.build.mult32 = encA.build.mult32 ∧ enc4.build.mult64 = encA.build.mult64 := ⟨Nat.le_refl _, rfl, rfl, rfl, rfl⟩

theorem witness_PromotionMovesToFront :
    (⟨[(3, [57, 44, 36, 23])]⟩ : Memory).wf ∧ 0 < (⟨[(3, [57, 44, 36, 23])]⟩ : Memory).occ 3 ∧
    3 < (⟨[(3, [57, 44, 36, 23])]⟩ : Memory).occ 3 := by decide

theorem witness_InsertionEvictsTheOldest :
    (⟨[(3, [44, 36, 23, 2])]⟩ : Memory).wf ∧ (⟨[(3, [44, 36, 23, 2])]⟩ : Memory).occ 3 ≤ 4 ∧
    (⟨[(3, [44])]⟩ : Memory).wf ∧ 1 ≤ 1 ∧ (⟨[(3, [44])]⟩ : Memory).occ 3 ≤ 1 ∧ Memory.empty.occ 3 ≤ 1 := by decide

theorem witness_DictReadAnswersTheEntry :
    State.reset.init = false ∧ encA.init = true ∧ 2 ^ encA.hbits.toNat ≤ (16#16).toNat ∧
    encA.build.depth.toNat ≤ (4#8).toNat ∧ (15#16).toNat < 2 ^ encA.hbits.toNat ∧ (3#8).toNat < encA.build.depth.toNat ∧
    (0#8).toNat < encA.dict.occ 6 ∧ encA.dict.occ 6 ≤ (1#8).toNat := by decide

theorem witness_ReplayMirrorsPrediction :
    encA.dict.wf ∧ (encA.predict wordA).2 = .hit 6 0 ∧ (encA.predict 1).2 = .miss 9 := by decide +kernel

theorem witness_OnlyPredictionTouchesABucket :
    (∃ t, exec (.encWord 1) encA = .next t ∧ decide (t.dict.list 9 ≠ encA.dict.list 9) = true) ∧
    (∃ t, exec .decBlock (dec4 streamX 26 26) = .next t ∧
      decide (t.dict.list 6 ≠ (dec4 streamX 26 26).dict.list 6) = true) :=
  ⟨exists_next _ (fun t => decide (t.dict.list 9 ≠ encA.dict.list 9)) (by decide +kernel),
    exists_next _ (fun t => decide (t.dict.list 6 ≠ (dec4 streamX 26 26).dict.list 6)) (by decide +kernel)⟩

theorem witness_RankEncAnswersTheCode : tableT1 State.reset.build.codeTable := refTable_t1

theorem witness_RankDecAnswersTheRank :
    tableLegal State.reset.build.codeTable ∧
    (State.reset.build.codeTable[255]? = some ⟨0b11111000000, 11⟩ ∧
      ((0xFFC0#64).toNat % 2 ^ 11) >>> (11 - (11#4).toNat) = (0b11111000000#11).toNat) ∧
    ∀ c ∈ State.reset.build.codeTable,
      ((0b11111000001#64).toNat % 2 ^ 11) >>> (11 - c.length.toNat) ≠ c.pattern.toNat :=
  ⟨refTable_legal, by decide +kernel, by decide +kernel⟩

theorem witness_RankCodeReadsBack :
    tableLegal referenceBuild.codeTable ∧ 255 < 256 ∧ (⟨[0x01, 0xF0, 0x00], 7⟩ : Cursor).bit < 8 ∧
    (⟨[0x01, 0xF0, 0x00], 7⟩ : Cursor).bits =
      rankBits referenceBuild 255 ++ [false, false, false, false, false, false] :=
  ⟨refTable_legal, by decide, by decide, by decide +kernel⟩

theorem witness_PrefixFreeTableMeetsKraft : tableT2 refTable ∧ tableT3 refTable := ⟨refTable_t2, refTable_t3⟩

theorem witness_EncWordHit :
    encA.bstate = .predicting ∧ encA.hbits.toNat ≤ 16 ∧
    findRank (encA.dict.list (encA.hash (wordOperand encA.wsel wordA))) (wordOperand encA.wsel wordA) = some 0 ∧
    (encA.sigCount.toNat + 1) % 256 ≠ 0 ∧ encA.sigCount.toNat < 4095 := by decide +kernel

theorem witness_EncWordMiss :
    EncReady { enc4 with sigCount := 4094 } ∧ enc4.bstate = .predicting ∧
    wordOperand enc4.wsel wordA ∉ enc4.dict.list (enc4.hash (wordOperand enc4.wsel wordA)) ∧
    (4094 + 1) % 256 ≠ 0 ∧ (4094#13).toNat < 4095 :=
  ⟨⟨rfl, rfl, rfl, rfl, rfl⟩, rfl, by decide +kernel, by decide, by decide⟩

theorem witness_EncWordEscaped : EncReady encEsc ∧ encEsc.bstate = .escaped ∧ encEsc.sigCount.toNat < 4095 :=
  ⟨⟨rfl, rfl, rfl, rfl, rfl⟩, rfl, by decide⟩

theorem witness_EncWordAtWindowBoundary :
    EncReady enc255 ∧ enc255.bstate = .predicting ∧ (enc255.sigCount.toNat + 1) % 256 = 0 ∧
    31 * (8 * 4 * 256) ≤ 32 * (16 + (routed enc255 1).sigBuf.length + (routed enc255 1).predBuf.length +
      (routed enc255 1).rankBuf.length + (routed enc255 1).dictBuf.length + 8 * (routed enc255 1).encBuf.length) ∧
    32 * (16 + (routed { enc4 with sigCount := 255 } 1).sigBuf.length + (routed { enc4 with sigCount := 255 } 1).predBuf.length +
      (routed { enc4 with sigCount := 255 } 1).rankBuf.length + (routed { enc4 with sigCount := 255 } 1).dictBuf.length +
      8 * (routed { enc4 with sigCount := 255 } 1).encBuf.length) < 31 * (8 * 4 * 256) :=
  ⟨⟨rfl, rfl, rfl, rfl, rfl⟩, rfl, by decide, by decide +kernel, by decide +kernel⟩

theorem witness_EncWordCompletesBlock :
    EncReady (enc4095 8) ∧ (enc4095 8).sigCount.toNat = 4095 ∧
    (routed (enc4095 8) wordA).serializeBlock.length ≤ (enc4095 8).outAvail.toNat ∧
    (enc4095 7).outAvail.toNat < (routed (enc4095 7) wordA).serializeBlock.length :=
  ⟨⟨rfl, rfl, rfl, rfl, rfl⟩, by decide, by decide +kernel, by decide +kernel⟩

theorem witness_PendingFlushRefusesTheEncoder :
    (encPend.init = true ∧ encPend.fault = false ∧ encPend.mode = .enc ∧ encPend.flushPending = true ∧
      encPend.finished = false) ∧
    (({ encPend with finished := true } : State).finished = true ∧ encPend.tailDone = false ∧ (3#3) ≠ 0 ∧
      (3#3).toNat < wordBytes encPend.wsel) ∧
    ∃ t, exec .encFlush { encPend with outAvail := 8 } = .next t ∧ (!t.flushPending) = true :=
  ⟨by decide, by decide, exists_next _ (fun t => !t.flushPending) (by decide +kernel)⟩

theorem witness_EncFlushRetriesThePendingBlock :
    State.reset.init = false ∧ (decFaulted.init = true ∧ decFaulted.fault = true) ∧
    ((dec4 [] 8 0).init = true ∧ (dec4 [] 8 0).fault = false ∧ (dec4 [] 8 0).mode = .dec) ∧
    (enc4.mode = .enc ∧ enc4.flushPending = false) ∧
    (encPend.flushPending = true ∧ encPend.outAvail.toNat < encPend.serializeBlock.length) ∧
    encPend.serializeBlock.length ≤ ({ encPend with outAvail := 8 } : State).outAvail.toNat := by decide +kernel

theorem witness_EncFinishFlushesThePartialBlock :
    EncReady enc4 ∧ enc4.sigCount = 0 ∧ EncReady encA ∧ encA.sigCount ≠ 0 ∧
    encA.serializeBlock.length ≤ ({ encA with outAvail := 8 } : State).outAvail.toNat ∧
    ({ encA with outAvail := 7 } : State).outAvail.toNat < encA.serializeBlock.length :=
  ⟨enc4_ready, rfl, encA_ready, by decide, by decide +kernel, by decide +kernel⟩

theorem witness_EncTailWritesTheTail :
    (encDone.init = true ∧ encDone.fault = false ∧ encDone.mode = .enc ∧ encDone.finished = true ∧ encDone.tailDone = false ∧
      encDone.flushPending = false) ∧ wordBytes encDone.wsel ≤ (4#3).toNat ∧ (3#3).toNat < wordBytes encDone.wsel ∧
    (3#3).toNat ≤ ({ encDone with outAvail := 3 } : State).outAvail.toNat ∧
    ({ encDone with outAvail := 2 } : State).outAvail.toNat < (3#3).toNat := by decide

theorem witness_EscapedIsLeftOnlyByAFlush :
    encEsc.bstate = .escaped ∧ ∃ t, exec .encFinish encEsc = .next t ∧ decide (t.bstate = .predicting) = true :=
  ⟨rfl, exists_next _ (fun t => decide (t.bstate = .predicting)) (by decide +kernel)⟩

theorem witness_AllMissesEscape :
    EncReady enc255 ∧ enc255.sigCount.toNat = 255 ∧ enc255.blkMisses.toNat = 255 ∧
    wordOperand enc255.wsel 1 ∉ enc255.dict.list (enc255.hash (wordOperand enc255.wsel 1)) ∧
    exec (.encWord 1) enc255 = .next (enc255.acceptWord (wordOperand enc255.wsel 1)) :=
  ⟨⟨rfl, rfl, rfl, rfl, rfl⟩, by decide, by decide, by decide +kernel, rfl⟩

theorem witness_WordCostInBits :
    encEsc.bstate = .escaped ∧ enc4.bstate = .predicting ∧ wordA ∉ enc4.dict.list (enc4.hash wordA) ∧
    findRank (encA.dict.list (encA.hash wordA)) wordA = some 0 := by decide +kernel

theorem witness_SerializedBlockSize : RegInv enc255 ∧ BlockInv enc255 ∧ enc255.mode = .enc :=
  ⟨enc255_regInv, enc255_blockInv, rfl⟩

theorem witness_DecBlockCommits :
    DecReady (dec4 streamEsc 8 8) ∧ (dec4 streamEsc 8 8).parse = some parsedEsc ∧
    (dec4 streamEsc 8 8).rebuild parsedEsc = some replayEsc ∧
    parsedEsc.sigs.length * wordBytes .w4 ≤ (dec4 streamEsc 8 8).outAvail.toNat :=
  ⟨dec4_ready _ _, by decide +kernel, by decide +kernel, by decide⟩

/-- A DEC context of the capacity of one word, over the block of the word A. -/
def decA : State := dec4 [0x01, 0x00, 0x00, 0x60, 0x61, 0x62, 0x63, 0x64] 4 4

/-- A block of one HIT into an empty bucket (95_test_vectors.md, section 2.6). -/
def decHit : State := dec4 [0x01, 0x00, 0x40, 0x00, 0x00] 4 8

def parsedHit : ParsedBlock := ⟨[.hit], [none], [0], [], [], []⟩

/-- The block of decA with bucket reference 7, which is not the hash of the word. -/
def decRef : State := dec4 [0x01, 0x00, 0x00, 0x70, 0x61, 0x62, 0x63, 0x64] 4 4

def parsedA (ref : Nat) : ParsedBlock := ⟨[.miss], [], [], [ref], [wordA], []⟩

theorem witness_DecBlockFailsWhole :
    (DecReady (dec4 [0x02] 8 8) ∧ (dec4 [0x02] 8 8).parse = none) ∧
    (DecReady decHit ∧ decHit.parse = some parsedHit ∧ decHit.rebuild parsedHit = none) ∧
    (DecReady (dec4 streamEsc 8 7) ∧ (dec4 streamEsc 8 7).parse = some parsedEsc ∧
      (dec4 streamEsc 8 7).rebuild parsedEsc = some replayEsc ∧
      (dec4 streamEsc 8 7).outAvail.toNat < parsedEsc.sigs.length * wordBytes .w4) :=
  ⟨⟨dec4_ready _ _, by decide +kernel⟩, ⟨⟨rfl, rfl, rfl, by decide⟩, by decide +kernel, by decide +kernel⟩,
    ⟨dec4_ready _ _, by decide +kernel, by decide +kernel, by decide⟩⟩

/-- R267 (a), (b), (c): one byte of a header, a header of another count, a first signature 0b11. -/
theorem witness_DecBlockFailsWhole_malformed :
    (dec4 [0x02] 8 8).remaining.length < 2 ∧
    ((dec4 [0x03, 0x00] 8 8).remaining.getD 0 0).toNat + 256 * ((dec4 [0x03, 0x00] 8 8).remaining.getD 1 0).toNat ≠
      min 4096 (dec4 [0x03, 0x00] 8 8).decRemain.toNat ∧
    (0 < min 4096 (dec4 [0x02, 0x00, 0xC0] 8 8).decRemain.toNat ∧
      bitAt ((dec4 [0x02, 0x00, 0xC0] 8 8).remaining.drop 2) (2 * 0) = true ∧
      bitAt ((dec4 [0x02, 0x00, 0xC0] 8 8).remaining.drop 2) (2 * 0 + 1) = true) := by decide

/-- R267 (f): the last byte of a block is cut off. -/
theorem witness_DecBlockFailsWhole_cut :
    tableLegal decA.build.codeTable ∧ decA.parse = some (parsedA 6) ∧
    (dec4 (decA.input.take 7) 4 4).remaining = decA.remaining.take 7 ∧
    7 + (parsedA 6).rest.length < decA.remaining.length :=
  ⟨refTable_legal, by decide +kernel, by decide, by decide⟩

/-- R268 (a), (b): a rank that is its bucket's occupancy, and a reference that is not the hash. -/
theorem witness_DecBlockFailsWhole_rejected :
    (decHit.parse = some parsedHit ∧ decHit.replayPoints parsedHit = [⟨.hit, 0, 0, 0, Memory.empty⟩] ∧
      decHit.rejects ⟨.hit, 0, 0, 0, Memory.empty⟩) ∧
    (decRef.parse = some (parsedA 7) ∧ decRef.replayPoints (parsedA 7) = [⟨.miss, 7, 0, wordA, Memory.empty⟩] ∧
      decRef.rejects ⟨.miss, 7, 0, wordA, Memory.empty⟩) :=
  ⟨⟨by decide +kernel, by decide, .inl ⟨rfl, by decide⟩⟩, ⟨by decide +kernel, by decide, .inr ⟨rfl, by decide +kernel⟩⟩⟩

theorem witness_BlockDecodesToItsWords :
    (RegInv enc4 ∧ DictInv enc4 ∧ enc4.sigCount = 0 ∧ enc4.encBuf = [] ∧ wordA.toNat < 2 ^ wordBits enc4.wsel) ∧
    (DecReady decA ∧ decA.build = enc4.build ∧ decA.wsel = enc4.wsel ∧ decA.hbits = enc4.hbits ∧ decA.dict = enc4.dict ∧
      decA.lastb = enc4.lastb ∧ decA.inChanged = false) ∧
    decA.input.drop decA.inPos.toNat = (enc4.feed [wordA]).serializeBlock ++ [] ∧
    decA.inPos.toNat + (enc4.feed [wordA]).serializeBlock.length < 2 ^ 64 ∧ min 4096 decA.decRemain.toNat = 1 ∧
    1 * wordBytes enc4.wsel ≤ decA.outAvail.toNat :=
  ⟨⟨enc4_regInv, enc4_dictInv, rfl, rfl, by decide⟩, ⟨⟨rfl, rfl, rfl, by decide⟩, rfl, rfl, rfl, rfl, rfl, rfl⟩,
    by decide +kernel, by decide +kernel, by decide, by decide⟩

theorem witness_RoundTripLaw :
    BuildLegal referenceBuild ∧ 1 ≤ (1#5).toNat ∧ (16#5).toNat ≤ referenceBuild.maxHashBits.toNat ∧
    ([0x61] : List Byte).length < 2 ^ 60 := ⟨referenceBuild_legal, by decide, by decide, by decide⟩

theorem witness_DecTailCopiesTheTail :
    TailReady (dec4 [0x61, 0x62] 2 2) ∧
    ((dec4 [0x61] 2 2).inputView.drop (dec4 [0x61] 2 2).inPos.toNat).length < (dec4 [0x61] 2 2).tailRem.toNat ∧
    (dec4 [0x61, 0x62] 2 2).tailRem.toNat ≤
      ((dec4 [0x61, 0x62] 2 2).inputView.drop (dec4 [0x61, 0x62] 2 2).inPos.toNat).length ∧
    (dec4 [0x61, 0x62] 2 2).tailRem.toNat ≤ (dec4 [0x61, 0x62] 2 2).outAvail.toNat ∧
    (dec4 [0x61, 0x62] 2 1).outAvail.toNat < (dec4 [0x61, 0x62] 2 1).tailRem.toNat :=
  ⟨⟨rfl, rfl, rfl, by decide, by decide, rfl⟩, by decide, by decide, by decide, by decide⟩

theorem witness_NoContextIsWrongState :
    State.reset.init = false ∧ (Instr.encTail 1 0x65).needsInit = true ∧
    (Instr.encTail 1 0x65).wellFormed State.reset.build = true ∧
    (Instr.rankDec 0).needsInit = false ∧ ∃ t, exec (.rankDec 0) State.reset = .next t ∧ true = true :=
  ⟨rfl, rfl, by decide, rfl, exists_next _ (fun _ => true) (by decide +kernel)⟩

theorem witness_FaultedContextRefuses :
    decFaulted.init = true ∧ decFaulted.fault = true ∧ (Instr.encTail 3 0).needsMode ≠ none ∧
    (Instr.encTail 3 0).wellFormed decFaulted.build = true ∧ (Instr.encTail 3 0).outOfContext decFaulted = false ∧
    (Instr.hash wordA).needsMode = none ∧ ∃ t, exec (.hash wordA) decFaulted = .next t ∧ true = true :=
  ⟨rfl, rfl, by decide, by decide, by decide, rfl, exists_next _ (fun _ => true) (by decide +kernel)⟩

theorem witness_WrongModeOrSequence :
    (enc4.init = true ∧ enc4.fault = false ∧ Instr.decBlock.needsMode = some .dec ∧ Mode.dec ≠ enc4.mode) ∧
    encDone.finished = true ∧
    ((Instr.encTail 3 0).outOfContext enc4 = false ∧ enc4.finished = false) ∧
    ({ encDone with tailDone := true } : State).tailDone = true ∧ (dec4 [] 3 0).decRemain = 0 ∧
    (dec4 [] 4 0).decRemain ≠ 0 ∧ (dec4 [] 4 0).tailRem = 0 := by decide

theorem witness_ErrorsArePrecise :
    (∃ t, exec .encFinish State.reset = .next t ∧ decide (t.resp.status = .wrongState) = true) ∧
    (∃ t, exec .decTail (dec4 [0x61] 2 2) = .next t ∧ decide (t.resp.status = .corruptStream) = true) ∧
    (∃ t, exec (.rankDec 0x7FF) State.reset = .next t ∧ decide (t.resp.status = .corruptStream) = true) ∧
    (∃ t, exec .decBlock decHit = .next t ∧ decide (t.resp.status = .invalidCode) = true) :=
  ⟨exists_next _ (fun t => decide (t.resp.status = .wrongState)) (by decide +kernel),
    exists_next _ (fun t => decide (t.resp.status = .corruptStream)) (by decide +kernel),
    exists_next _ (fun t => decide (t.resp.status = .corruptStream)) (by decide +kernel),
    exists_next _ (fun t => decide (t.resp.status = .invalidCode)) (by decide +kernel)⟩

/-- R262: a retry that fails, a partial block that is pended, a word refused, and a word that completes a block. -/
theorem witness_ErrorsArePrecise_overflow :
    (∃ t, exec .encFlush encPend = .next t ∧ decide (t.resp = ⟨.outputOverflow, false, 8⟩) = true) ∧
    (∃ t, exec .encFinish { encA with outAvail := 7 } = .next t ∧ decide (t.resp = ⟨.outputOverflow, true, 3⟩) = true) ∧
    (∃ t, exec (.encWord 1) encPend = .next t ∧ decide (t.resp = ⟨.outputOverflow, false, 0⟩) = true) ∧
    (∃ t, exec (.encWord 1) (enc4095 0) = .next t ∧
      decide (t.resp.status = .outputOverflow ∧ t.resp.valid = true) = true) :=
  ⟨exists_next _ (fun t => decide (t.resp = ⟨.outputOverflow, false, 8⟩)) (by decide +kernel),
    exists_next _ (fun t => decide (t.resp = ⟨.outputOverflow, true, 3⟩)) (by decide +kernel),
    exists_next _ (fun t => decide (t.resp = ⟨.outputOverflow, false, 0⟩)) (by decide +kernel),
    exists_next _ (fun t => decide (t.resp.status = .outputOverflow ∧ t.resp.valid = true)) (by decide +kernel)⟩

theorem witness_FaultIsStickyUntilCtxInit :
    (({ decFaulted with port := [.issue ⟨0x01000004, 0⟩] } : State).fault = true ∧
      ∃ t, step { decFaulted with port := [.issue ⟨0x01000004, 0⟩] } = .next t ∧ (!t.fault) = true) ∧
    ((dec4 [] 4 0).fault = false ∧ ∃ t, exec .decBlock (dec4 [] 4 0) = .next t ∧ t.fault = true) :=
  ⟨⟨rfl, exists_next _ (fun t => !t.fault) (by decide +kernel)⟩,
    ⟨rfl, exists_next _ (fun t => t.fault) (by decide +kernel)⟩⟩

theorem witness_OnlyCtxInitConfigures :
    (∃ t, step { State.reset with port := [.issue ⟨0x01000204, 26⟩] } = .next t ∧
      decide (t.init = true ∧ t.mode ≠ State.reset.mode) = true) ∧
    (enc4.init = true ∧ ∃ t, step { enc4 with port := [.hardReset] } = .next t ∧ (!t.init) = true) :=
  ⟨exists_next _ (fun t => decide (t.init = true ∧ t.mode ≠ State.reset.mode)) (by decide +kernel),
    ⟨rfl, exists_next _ (fun t => !t.init) (by decide +kernel)⟩⟩

theorem witness_ConditionStateWriters :
    (enc255.bstate = .predicting ∧ ∃ t, exec (.encWord 1) enc255 = .next t ∧ decide (t.bstate = .escaped) = true) ∧
    (encEsc.bstate = .escaped ∧ ∃ t, exec .encFinish encEsc = .next t ∧ decide (t.bstate = .predicting) = true) ∧
    ((enc4095 7).flushPending = false ∧ ∃ t, exec (.encWord wordA) (enc4095 7) = .next t ∧ t.flushPending = true) ∧
    (encPend.flushPending = true ∧
      ∃ t, exec .encFlush { encPend with outAvail := 8 } = .next t ∧ (!t.flushPending) = true) ∧
    (∃ t, exec .encFinish enc4 = .next t ∧ decide (enc4.finished ≠ t.finished) = true) ∧
    (∃ t, exec (.encTail 2 0x7978) encDone = .next t ∧ decide (encDone.tailDone ≠ t.tailDone) = true) ∧
    (∃ t, exec .decBlock (dec4 [] 4 0) = .next t ∧ decide ((dec4 [] 4 0).fault ≠ t.fault) = true) :=
  ⟨⟨rfl, exists_next _ (fun t => decide (t.bstate = .escaped)) (by decide +kernel)⟩,
    ⟨rfl, exists_next _ (fun t => decide (t.bstate = .predicting)) (by decide +kernel)⟩,
    ⟨rfl, exists_next _ (fun t => t.flushPending) (by decide +kernel)⟩,
    ⟨rfl, exists_next _ (fun t => !t.flushPending) (by decide +kernel)⟩,
    exists_next _ (fun t => decide (enc4.finished ≠ t.finished)) (by decide +kernel),
    exists_next _ (fun t => decide (encDone.tailDone ≠ t.tailDone)) (by decide +kernel),
    exists_next _ (fun t => decide ((dec4 [] 4 0).fault ≠ t.fault)) (by decide +kernel)⟩

theorem witness_ObservationCommandsWriteOnlyTheResponse :
    (∃ n, Instr.readReg 3 = .readReg n) ∧ (∃ d, Instr.hash wordA = .hash d) ∧
    (∃ b r, Instr.dictRead 6 0 = .dictRead b r) ∧ (∃ r, Instr.rankEnc 255 = .rankEnc r) ∧
    (∃ d, Instr.rankDec 0 = .rankDec d) := ⟨⟨3, rfl⟩, ⟨wordA, rfl⟩, ⟨6, 0, rfl⟩, ⟨255, rfl⟩, ⟨0, rfl⟩⟩

theorem witness_OnlyTheDecoderReadsInput :
    (∃ t, exec (.encWord wordA) enc4 = .next t ∧ true = true) ∧ Instr.encWord wordA ≠ .decBlock ∧
    Instr.encWord wordA ≠ .decTail := ⟨exists_next _ (fun _ => true) (by decide +kernel), by decide, by decide⟩

theorem witness_StepKeepsRegisterInvariant :
    RegInv enc4 ∧ ∃ t, step enc4 = .next t ∧ decide (t.sigCount = 1) = true :=
  ⟨enc4_regInv, exists_next _ (fun t => decide (t.sigCount = 1)) (by decide +kernel)⟩

theorem witness_StepKeepsBlockInvariant :
    BlockInv enc255 ∧ ∃ t, step enc255 = .next t ∧ decide (t.bstate = .escaped) = true :=
  ⟨enc255_blockInv, exists_next _ (fun t => decide (t.bstate = .escaped)) (by decide +kernel)⟩

theorem witness_StepKeepsDictionaryInvariant :
    RegInv enc4 ∧ DictInv enc4 ∧ ∃ t, step enc4 = .next t ∧ decide (t.dict.occ 6 = 1) = true :=
  ⟨enc4_regInv, enc4_dictInv, exists_next _ (fun t => decide (t.dict.occ 6 = 1)) (by decide +kernel)⟩

theorem decA_dictInv : DictInv decA :=
  ⟨referenceBuild_legal, by decide, fun _ _ => Nat.zero_le _, fun _ _ _ => List.nodup_nil,
    fun _ _ _ h => absurd h List.not_mem_nil, fun _ _ _ h => absurd h List.not_mem_nil⟩

/-- A DEC_BLOCK whose MISS is of a word its bucket does not hold. -/
theorem witness_StepKeepsDictionaryInvariant_distinct :
    DictInv decA ∧ (∀ b, (decA.dict.list b).Nodup) ∧ ¬decA.sendsHeldMiss ∧
    ∃ t, exec .decBlock decA = .next t ∧ decide (t.dict.occ 6 = 1) = true := by
  have hp : decA.parse = some (parsedA 6) := by decide +kernel
  refine ⟨decA_dictInv, fun _ => List.nodup_nil, ?_, exists_next _ (fun t => decide (t.dict.occ 6 = 1)) (by decide +kernel)⟩
  rintro ⟨p, h, q, hq, -, hw⟩
  obtain rfl : parsedA 6 = p := Option.some.inj (hp.symm.trans h)
  have hs : decA.replayPoints (parsedA 6) = [⟨.miss, 6, 0, wordA, Memory.empty⟩] := by decide
  rw [hs, List.mem_singleton] at hq
  subst hq
  exact absurd hw List.not_mem_nil

end Sys2Proof.Tests
end

section
/-! SUPPORT. What every command can do, said once for all of them: one inversion lemma for exec, from those of the meanings,
and one induction principle for step. -/

namespace Sys2Proof.Machine

/-! ### The effects of a command -/

/-- R161: an accepted word has gone to the streams, its signature is appended and the window is checked; the end of the
word, `closeWord`, is still to come. -/
def State.enterWord (s : State) (w : Word) : State :=
  ((s.routeWord w).1.appendSignature (s.routeWord w).2.sig).windowCheck.1

/-- Everything a command can do to the state: it only answers, or its checks have passed and it does one of the things
its rule lists. -/
inductive Effect (s : State) : Instr → State → Prop
  /-- R36: the response alone changes, for an error or for a command that has nothing else to do. -/
  | answer (i : Instr) (st : Status) (v : Bool) (r : BitVec 64) : Effect s i (s.respond st v r)
  /-- R240. -/
  | context (m : Mode) (w : WordSel) (h : BitVec 5) (d : BitVec 64) (st : Status) (v : Bool) (r : BitVec 64)
      (low : h ≠ 0) (high : h.toNat ≤ s.build.maxHashBits.toNat) :
      Effect s (.ctxInit m w h d) ((s.newContext m w h d).respond st v r)
  /-- R242. -/
  | grant (d : BitVec 64) (st : Status) (v : Bool) (r : BitVec 64) : Effect s (.outGrant d) ((s.grant d).respond st v r)
  /-- R161, the block not yet being full. -/
  | word (d : BitVec 64) (u : State) (st : Status) (v : Bool) (r : BitVec 64) (ready : EncReady s)
      (entered : u = s.enterWord (wordOperand s.wsel d)) (room : u.sigCount.toNat ≠ Config.blockSigs) :
      Effect s (.encWord d) (u.respond st v r)
  /-- R161, R170: the word fills the block, which is flushed. -/
  | wordFlush (d : BitVec 64) (u : State) (st : Status) (v : Bool) (r : BitVec 64) (ready : EncReady s)
      (entered : u = s.enterWord (wordOperand s.wsel d)) :
      Effect s (.encWord d) ((u.outWrite u.serializeBlock).blockReset.respond st v r)
  /-- R161, R172: the word fills the block, whose flush is pended. -/
  | wordPend (d : BitVec 64) (u : State) (st : Status) (v : Bool) (r : BitVec 64) (ready : EncReady s)
      (entered : u = s.enterWord (wordOperand s.wsel d)) :
      Effect s (.encWord d) ({ u with flushPending := true }.respond st v r)
  /-- R174: a pending block is flushed. -/
  | flush (st : Status) (v : Bool) (r : BitVec 64) (mode : s.mode = .enc) :
      Effect s .encFlush ((s.outWrite s.serializeBlock).blockReset.respond st v r)
  /-- R175, no block being left. -/
  | finish (st : Status) (v : Bool) (r : BitVec 64) (ready : EncReady s) (empty : s.sigCount = 0) :
      Effect s .encFinish (s.declareEnd.respond st v r)
  /-- R175, R170: the partial block is flushed. -/
  | finishFlush (st : Status) (v : Bool) (r : BitVec 64) (ready : EncReady s) :
      Effect s .encFinish ((s.declareEnd.outWrite s.serializeBlock).blockReset.respond st v r)
  /-- R175, R172: the flush of the partial block is pended. -/
  | finishPend (st : Status) (v : Bool) (r : BitVec 64) (ready : EncReady s) (partly : s.sigCount ≠ 0) :
      Effect s .encFinish ({ s.declareEnd with flushPending := true }.respond st v r)
  /-- R176. -/
  | tail (n : BitVec 3) (d : BitVec 64) (st : Status) (v : Bool) (r : BitVec 64) (mode : s.mode = .enc)
      (finished : s.finished = true) : Effect s (.encTail n d) ((s.writeTail (tailOperand n d)).respond st v r)
  /-- R267, in DEC_BLOCK. -/
  | blockCorrupt (ready : DecReady s) : Effect s .decBlock (s.decodeFault .corruptStream .corruptStream)
  /-- R268. -/
  | blockInvalid (ready : DecReady s) : Effect s .decBlock (s.decodeFault .invalidCode .invalidCode)
  /-- R218. -/
  | commit (p : ParsedBlock) (x : Replay) (st : Status) (v : Bool) (r : BitVec 64) (ready : DecReady s)
      (parsed : s.parse = some p) (rebuilt : s.rebuild p = some x) : Effect s .decBlock ((s.commit p x).respond st v r)
  /-- R267, in DEC_TAIL. -/
  | tailCorrupt (ready : TailReady s) : Effect s .decTail (s.decodeFault .corruptStream .corruptStream)
  /-- R222. -/
  | copyTail (bytes : List Byte) (st : Status) (v : Bool) (r : BitVec 64) (ready : TailReady s) :
      Effect s .decTail ((s.copyTail bytes).respond st v r)

variable {s t : State} {i : Instr}

theorem acceptWord_eq (s : State) (w : Word) : s.acceptWord w = (s.enterWord w).closeWord (s.routeWord w).2
    ((s.routeWord w).1.appendSignature (s.routeWord w).2.sig).windowCheck.2 := rfl

theorem acceptWord_effect (d : BitVec 64) (ready : EncReady s) :
    Effect s (.encWord d) (s.acceptWord (wordOperand s.wsel d)) := by
  rw [acceptWord_eq]
  obtain ⟨room, e⟩ | ⟨-, -, e⟩ | ⟨-, -, e⟩ := closeWord_cases (s.enterWord (wordOperand s.wsel d)) _ _
  · exact e ▸ .word d _ _ _ _ ready rfl room
  · exact e ▸ .wordFlush d _ _ _ _ ready rfl
  · exact e ▸ .wordPend d _ _ _ _ ready rfl

/-- Every command completes, and with one of the effects listed. -/
theorem exec_completes (i : Instr) (s : State) : ∃ t, exec i s = .next t ∧ Effect s i t := by
  cases i with
  | nop => exact ⟨_, execNop_eq s, .answer ..⟩
  | ctxInit m w h d =>
    obtain ⟨-, e⟩ | ⟨low, high, e⟩ := execCtxInit_cases m w h d s
    · exact ⟨_, e, .answer ..⟩
    · exact ⟨_, e, .context m w h d _ _ _ low high⟩
  | outGrant d =>
    obtain ⟨-, e⟩ | ⟨-, e⟩ := execOutGrant_cases d s
    · exact ⟨_, e, .answer ..⟩
    · exact ⟨_, e, .grant ..⟩
  | readReg n =>
    obtain ⟨-, e⟩ | ⟨_, -, e⟩ := execReadReg_cases n s <;> exact ⟨_, e, .answer ..⟩
  | hash d =>
    obtain ⟨-, e⟩ | ⟨-, e⟩ := execHash_cases d s <;> exact ⟨_, e, .answer ..⟩
  | dictRead b r =>
    obtain ⟨_, -, e⟩ | ⟨-, -, -, ⟨_, -, e⟩ | ⟨-, e⟩⟩ := execDictRead_cases b r s <;> exact ⟨_, e, .answer ..⟩
  | rankEnc r => exact ⟨_, execRankEnc_eq r s, .answer ..⟩
  | rankDec d =>
    obtain ⟨-, e⟩ | ⟨_, -, e⟩ := execRankDec_cases d s <;> exact ⟨_, e, .answer ..⟩
  | encWord d =>
    obtain ⟨_, -, e⟩ | ⟨hi, hf, hm, hfin, hp, e⟩ := execEncWord_cases d s
    · exact ⟨_, e, .answer ..⟩
    · exact ⟨_, e, acceptWord_effect d ⟨hi, hf, hm, hfin, hp⟩⟩
  | encFlush =>
    obtain ⟨_, -, e⟩ | ⟨-, -, hm, ⟨-, e⟩ | ⟨-, -, e⟩ | ⟨-, -, e⟩⟩ := execEncFlush_cases s
    · exact ⟨_, e, .answer ..⟩
    · exact ⟨_, e, .answer ..⟩
    · exact ⟨_, e, .flush _ _ _ hm⟩
    · exact ⟨_, e, .answer ..⟩
  | encFinish =>
    obtain ⟨_, -, e⟩ | ⟨hi, hf, hm, hfin, hp, hc⟩ := execEncFinish_cases s
    · exact ⟨_, e, .answer ..⟩
    · have ready : EncReady s := ⟨hi, hf, hm, hfin, hp⟩
      obtain ⟨empty, e⟩ | ⟨-, -, e⟩ | ⟨partly, -, e⟩ := hc
      · exact ⟨_, e, .finish _ _ _ ready empty⟩
      · exact ⟨_, e, .finishFlush _ _ _ ready⟩
      · exact ⟨_, e, .finishPend _ _ _ ready partly⟩
  | encTail n d =>
    obtain ⟨_, -, e⟩ | ⟨-, -, -, -, hm, hfin, -, -, -, e⟩ := execEncTail_cases n d s
    · exact ⟨_, e, .answer ..⟩
    · exact ⟨_, e, .tail n d _ _ _ hm hfin⟩
  | decBlock =>
    obtain ⟨_, -, e⟩ | ⟨hi, hf, hm, hr, hc⟩ := execDecBlock_cases s
    · exact ⟨_, e, .answer ..⟩
    · have ready : DecReady s := ⟨hi, hf, hm, hr⟩
      obtain ⟨-, e⟩ | ⟨_, -, -, e⟩ | ⟨p, x, parsed, rebuilt, -, e⟩ := hc
      · exact ⟨_, e, .blockCorrupt ready⟩
      · exact ⟨_, e, .blockInvalid ready⟩
      · exact ⟨_, e, .commit p x _ _ _ ready parsed rebuilt⟩
  | decTail =>
    obtain ⟨_, -, e⟩ | ⟨hi, hf, hm, hr, ht, hd, hc⟩ := execDecTail_cases s
    · exact ⟨_, e, .answer ..⟩
    · have ready : TailReady s := ⟨hi, hf, hm, hr, ht, hd⟩
      obtain ⟨-, e⟩ | ⟨-, -, e⟩ := hc
      · exact ⟨_, e, .tailCorrupt ready⟩
      · exact ⟨_, e, .copyTail _ _ _ _ ready⟩

/-- The inversion lemma of exec: whatever follows from each effect follows of every command that answers. -/
theorem exec_effect (h : exec i s = .next t) : Effect s i t := by
  obtain ⟨u, e, effect⟩ := exec_completes i s
  obtain rfl : u = t := Host.Outcome.next.inj (e.symm.trans h)
  exact effect

/-- R20: everything an action of the host can do, from the state in which it is taken. -/
theorem runAction_cases {a : HostAction} (h : runAction a s = .next t) :
    (∃ bytes, a = .present bytes ∧ t = s.presentInput bytes) ∨ (a = .hardReset ∧ t = s.hardReset) ∨
    (∃ c e, a = .issue c ∧ decode c = .error e ∧ t = s.raise .illegalCommand) ∨
    ∃ c i, a = .issue c ∧ decode c = .ok i ∧ exec i s = .next t := by
  cases a with
  | issue c =>
    cases hd : decode c with
    | error e =>
      simp only [runAction, runCommand, hd] at h
      exact .inr (.inr (.inl ⟨c, e, rfl, hd, (Host.Outcome.next.inj h).symm⟩))
    | ok i =>
      simp only [runAction, runCommand, hd] at h
      exact .inr (.inr (.inr ⟨c, i, rfl, hd, h⟩))
  | present bytes => exact .inl ⟨bytes, rfl, (Host.Outcome.next.inj h).symm⟩
  | hardReset => exact .inr (.inl ⟨rfl, (Host.Outcome.next.inj h).symm⟩)

theorem step_of_port {a : HostAction} {rest : List HostAction} (h : s.port = a :: rest) :
    step s = runAction a (s.taken rest) := by
  unfold step
  rw [h]

theorem step_idle (h : s.port = []) : step s = .next s := by
  unfold step
  rw [h]

/-- A property that no host action of its own and no command's effect ends is kept by every step. -/
theorem step_keeps (P : State → Prop) (taken : ∀ s rest, P s → P (s.taken rest))
    (present : ∀ s bytes, P s → P (s.presentInput bytes)) (reset : ∀ s, P s → P s.hardReset)
    (command : ∀ s i t, P s → Effect s i t → P t) (hs : P s) (h : step s = .next t) : P t := by
  cases hp : s.port with
  | nil => exact Host.Outcome.next.inj ((step_idle hp).symm.trans h) ▸ hs
  | cons a rest =>
    rw [step_of_port hp] at h
    have hu := taken s rest hs
    obtain ⟨bytes, -, rfl⟩ | ⟨-, rfl⟩ | ⟨c, e, -, -, rfl⟩ | ⟨c, i, -, -, h⟩ := runAction_cases h
    · exact present _ bytes hu
    · exact reset _ hu
    · exact command _ .nop _ hu (.answer ..)
    · exact command _ i _ hu (exec_effect h)

/-! ### A word entered into the block -/

/-- R161, R162: routing writes only the dictionary, LASTB and the streams. -/
theorem routeWord_eq (s : State) (w : Word) : (s.routeWord w).1 =
    { s with
      dict := (s.routeWord w).1.dict, lastb := (s.routeWord w).1.lastb, predBuf := (s.routeWord w).1.predBuf
      rankBuf := (s.routeWord w).1.rankBuf, dictBuf := (s.routeWord w).1.dictBuf
      encBuf := (s.routeWord w).1.encBuf } := by
  obtain ⟨-, e⟩ | ⟨-, _, -, e⟩ | ⟨-, -, e⟩ := routeWord_cases s w
  · rw [e]; rfl
  · rw [e]
  · rw [e]

/-- R161, R162: entering a word writes the dictionary, LASTB, the block's state, counters and buffers, WORDCNT and
ESC_EVENTS, and nothing else. -/
theorem enterWord_eq (s : State) (w : Word) : s.enterWord w =
    { s with
      dict := (s.enterWord w).dict, lastb := (s.enterWord w).lastb, bstate := (s.enterWord w).bstate
      sigCount := (s.enterWord w).sigCount, wordCnt := (s.enterWord w).wordCnt, escEvents := (s.enterWord w).escEvents
      blkHits := (s.enterWord w).blkHits, blkMisses := (s.enterWord w).blkMisses, blkEscs := (s.enterWord w).blkEscs
      sigBuf := (s.enterWord w).sigBuf, predBuf := (s.enterWord w).predBuf, rankBuf := (s.enterWord w).rankBuf
      dictBuf := (s.enterWord w).dictBuf, encBuf := (s.enterWord w).encBuf } := by
  unfold State.enterWord
  obtain ⟨-, -, e⟩ | ⟨-, e⟩ := windowCheck_cases ((s.routeWord w).1.appendSignature (s.routeWord w).2.sig) <;>
  obtain ⟨-, r⟩ | ⟨-, _, -, r⟩ | ⟨-, -, r⟩ := routeWord_cases s w <;>
  rw [e, r] <;> rfl

@[simp] theorem enterWord_init (w : Word) : (s.enterWord w).init = s.init := by rw [enterWord_eq]
@[simp] theorem enterWord_flushPending (w : Word) : (s.enterWord w).flushPending = s.flushPending := by rw [enterWord_eq]
@[simp] theorem enterWord_finished (w : Word) : (s.enterWord w).finished = s.finished := by rw [enterWord_eq]
@[simp] theorem enterWord_tailDone (w : Word) : (s.enterWord w).tailDone = s.tailDone := by rw [enterWord_eq]
@[simp] theorem enterWord_fault (w : Word) : (s.enterWord w).fault = s.fault := by rw [enterWord_eq]
@[simp] theorem enterWord_mode (w : Word) : (s.enterWord w).mode = s.mode := by rw [enterWord_eq]
@[simp] theorem enterWord_wsel (w : Word) : (s.enterWord w).wsel = s.wsel := by rw [enterWord_eq]
@[simp] theorem enterWord_hbits (w : Word) : (s.enterWord w).hbits = s.hbits := by rw [enterWord_eq]

/-- R161, R124: what becomes of the dictionary and of LASTB where a word is entered. -/
theorem enterWord_dict_cases (s : State) (w : Word) :
    (s.bstate = .escaped ∧ (s.enterWord w).dict = s.dict ∧ (s.enterWord w).lastb = s.lastb) ∨
    (s.bstate = .predicting ∧ (s.enterWord w).lastb = BitVec.ofNat 16 (s.hash w) ∧
      ((∃ r, findRank (s.dict.list (s.hash w)) w = some r ∧ (s.enterWord w).dict = s.dict.promote (s.hash w) r) ∨
       (findRank (s.dict.list (s.hash w)) w = none ∧
        (s.enterWord w).dict = s.dict.insert s.build.depth.toNat (s.hash w) w))) := by
  have hd : (s.enterWord w).dict = (s.routeWord w).1.dict := by
    unfold State.enterWord State.windowCheck
    split <;> rfl
  have hl : (s.enterWord w).lastb = (s.routeWord w).1.lastb := by
    unfold State.enterWord State.windowCheck
    split <;> rfl
  rw [hd, hl]
  obtain ⟨hb, e⟩ | ⟨hb, r, hr, e⟩ | ⟨hb, hr, e⟩ := routeWord_cases s w <;> rw [e]
  · exact .inl ⟨hb, rfl, rfl⟩
  · exact .inr ⟨hb, rfl, .inl ⟨r, hr, rfl⟩⟩
  · exact .inr ⟨hb, rfl, .inr ⟨hr, rfl⟩⟩

end Sys2Proof.Machine
end

section
/-! SUPPORT. The register invariant is kept by every step (10_state.md R22 to R29; 60_exceptions.md R266). -/

namespace Sys2Proof.Machine

variable {s t : State} {i : Instr}

/-- R110: in a context the word width leaves room for the bits of a bucket. -/
theorem RegInv.hash_lt (h : RegInv s) (hi : s.init = true) (w : Word) : s.hash w < 2 ^ s.hbits.toNat := by
  have hmax := h.legal.hashBits.2
  have hhb := (h.hbits hi).2
  have hwide : 32 ≤ wordBits s.wsel := by cases s.wsel <;> decide
  exact hashOf_lt _ _ _ _ (by omega)

/-- R27: a bucket below 2^HB is what LASTB then holds, cut to 16 bits or not. -/
theorem ofNat16_toNat_lt {k n : Nat} (h : k < n) : (BitVec.ofNat 16 k).toNat < n := by
  rw [BitVec.toNat_ofNat]
  exact Nat.lt_of_le_of_lt (Nat.mod_le _ _) h

theorem RegInv.taken (h : RegInv s) (rest : List HostAction) : RegInv (s.taken rest) := { h with }

theorem RegInv.respond (h : RegInv s) (st : Status) (v : Bool) (r : BitVec 64) : RegInv (s.respond st v r) := { h with }

theorem RegInv.presentInput (h : RegInv s) (bytes : List Byte) : RegInv (s.presentInput bytes) := { h with }

theorem RegInv.grant (h : RegInv s) (d : BitVec 64) : RegInv (s.grant d) := { h with }

theorem RegInv.hardReset (h : RegInv s) : RegInv s.hardReset where
  legal := h.legal
  hbits := by simp
  noContext := by simp
  lastb := by simp
  faultCode := by simp
  faultMode := by simp
  tailRem := by simp [wordBytes_pos]
  encMode := by simp
  decMode := by simp
  tailDone := by simp
  outPos := by simp

theorem initialTail_lt (m : Mode) (w : WordSel) (d : BitVec 64) : (initialTail m w d).toNat < wordBytes w := by
  have hw := wordBytes_pos w
  cases m with
  | enc => exact hw
  | dec =>
    simp only [initialTail, BitVec.toNat_ofNat]
    exact Nat.lt_of_le_of_lt (Nat.mod_le _ _) (Nat.mod_lt _ hw)

theorem RegInv.newContext (h : RegInv s) (m : Mode) (w : WordSel) {hb : BitVec 5} (d : BitVec 64) (low : hb ≠ 0)
    (high : hb.toNat ≤ s.build.maxHashBits.toNat) : RegInv (s.newContext m w hb d) where
  legal := h.legal
  hbits _ := ⟨Nat.one_le_iff_ne_zero.2 fun h0 => low (BitVec.eq_of_toNat_eq h0), high⟩
  noContext := by simp
  lastb := by simp
  faultCode := by simp
  faultMode := by simp
  tailRem := initialTail_lt m w d
  encMode hm := by
    obtain rfl : m = .enc := hm
    exact ⟨rfl, rfl, rfl⟩
  decMode := by simp
  tailDone := by simp
  outPos := by simp

theorem not_dec_of_enc {P : Prop} (hm : s.mode = .enc) (hd : s.mode = .dec) : P :=
  nomatch hm.symm.trans hd

theorem not_enc_of_dec {P : Prop} (hd : s.mode = .dec) (hm : s.mode = .enc) : P :=
  nomatch hm.symm.trans hd

theorem RegInv.outWrite (h : RegInv s) (bytes : List Byte) : RegInv (s.outWrite bytes) :=
  { h with
    outPos := by
      have := h.outPos
      simp only [State.outWrite_outPos, State.outWrite_out, satAdd_toNat, List.length_append]
      omega }

theorem RegInv.blockReset (h : RegInv s) : RegInv s.blockReset :=
  { h with decMode := fun hd => ⟨rfl, rfl, rfl, (h.decMode hd).2.2.2⟩ }

theorem RegInv.pend (h : RegInv s) (hm : s.mode = .enc) : RegInv { s with flushPending := true } :=
  { h with decMode := fun hd => not_dec_of_enc hm hd }

theorem RegInv.declareEnd (h : RegInv s) (hm : s.mode = .enc) : RegInv s.declareEnd :=
  { h with
    decMode := fun hd => not_dec_of_enc hm hd
    tailDone := fun _ _ => rfl }

theorem RegInv.writeTail (h : RegInv s) (bytes : List Byte) (hf : s.finished = true) : RegInv (s.writeTail bytes) :=
  { h.outWrite bytes with tailDone := fun _ _ => hf }

theorem RegInv.decodeFault (h : RegInv s) (st : Status) {c : FaultCode} (hd : s.mode = .dec) (hc : c ≠ .none) :
    RegInv (s.decodeFault st c) :=
  { h with
    faultCode := iff_of_true rfl hc
    faultMode := fun _ => hd }

theorem RegInv.copyTail (h : RegInv s) (bytes : List Byte) (hd : s.mode = .dec) : RegInv (s.copyTail bytes) :=
  { h.outWrite bytes with
    tailRem := wordBytes_pos s.wsel
    encMode := fun hm => not_enc_of_dec hd hm
    tailDone := fun hm => not_enc_of_dec hd hm }

theorem RegInv.enterWord (h : RegInv s) (ready : EncReady s) (w : Word) : RegInv (s.enterWord w) := by
  have lastb : (s.enterWord w).lastb.toNat < 2 ^ s.hbits.toNat := by
    obtain ⟨-, -, e⟩ | ⟨-, e, -⟩ := enterWord_dict_cases s w <;> rw [e]
    · exact h.lastb
    · exact ofNat16_toNat_lt (h.hash_lt ready.init w)
  rw [enterWord_eq]
  exact { h with lastb, decMode := fun hd => not_dec_of_enc ready.mode hd }

/-- R218, R27: the LASTB of a block that is rebuilt is a bucket of the table. -/
theorem rebuild_lastb_lt {p : ParsedBlock} {x : Replay} (hl : s.lastb.toNat < 2 ^ s.hbits.toNat) (hp : s.parse = some p)
    (hx : s.rebuild p = some x) : x.lastb.toNat < 2 ^ s.hbits.toNat := by
  obtain ⟨-, -, -, -, -, hm, hd, hlit⟩ := parseBlock_some _ _ _ _ _ _ hp
  exact (reconstruct_keeps s.build s.wsel s.hbits.toNat (fun _ l => l.toNat < 2 ^ s.hbits.toNat)
    (fun _ _ _ _ _ hk => ofNat16_toNat_lt hk) (fun _ _ _ _ _ hk => ofNat16_toNat_lt hk) (fun _ _ hl => hl)
    _ _ _ _ _ _ _ _ hm hd hlit hl hx).1

theorem RegInv.commit (h : RegInv s) (hd : s.mode = .dec) {p : ParsedBlock} {x : Replay} (hp : s.parse = some p)
    (hx : s.rebuild p = some x) : RegInv (s.commit p x) := by
  have lastb : x.lastb.toNat < 2 ^ s.hbits.toNat := rebuild_lastb_lt h.lastb hp hx
  exact { h.outWrite x.bytes with lastb, encMode := fun hm => not_enc_of_dec hd hm }

theorem RegInv.effect (h : RegInv s) (e : Effect s i t) : RegInv t := by
  cases e with
  | answer => exact h.respond ..
  | context m w _ d _ _ _ low high => exact (h.newContext m w d low high).respond ..
  | grant => exact (h.grant _).respond ..
  | word d u _ _ _ ready entered =>
    have hu : RegInv u := entered ▸ h.enterWord ready _
    exact hu.respond ..
  | wordFlush d u _ _ _ ready entered =>
    have hu : RegInv u := entered ▸ h.enterWord ready _
    exact (hu.outWrite _).blockReset.respond ..
  | wordPend d u _ _ _ ready entered =>
    have hu : RegInv u := entered ▸ h.enterWord ready _
    have hm : u.mode = .enc := by simp [entered, ready.mode]
    exact (hu.pend hm).respond ..
  | flush => exact (h.outWrite _).blockReset.respond ..
  | finish _ _ _ ready => exact (h.declareEnd ready.mode).respond ..
  | finishFlush _ _ _ ready => exact ((h.declareEnd ready.mode).outWrite _).blockReset.respond ..
  | finishPend _ _ _ ready => exact ((h.declareEnd ready.mode).pend ready.mode).respond ..
  | tail _ _ _ _ _ _ finished => exact (h.writeTail _ finished).respond ..
  | blockCorrupt ready => exact h.decodeFault _ ready.mode (by decide)
  | blockInvalid ready => exact h.decodeFault _ ready.mode (by decide)
  | commit p x _ _ _ ready parsed rebuilt => exact (h.commit ready.mode parsed rebuilt).respond ..
  | tailCorrupt ready => exact h.decodeFault _ ready.mode (by decide)
  | copyTail bytes _ _ _ ready => exact (h.copyTail bytes ready.mode).respond ..

/-- Settles O58: each effect of a command keeps the invariant, field by field. -/
theorem stepKeepsRegisterInvariant : Obligations.StepKeepsRegisterInvariant := by
  intro s t h hstep
  exact step_keeps RegInv (fun _ rest h => h.taken rest) (fun _ bytes h => h.presentInput bytes)
    (fun _ h => h.hardReset) (fun _ _ _ h e => h.effect e) h hstep

end Sys2Proof.Machine
end

section
/-! SUPPORT. The invariant of the current block is kept by every step (10_state.md R25, R33; 43_block_manager.md R163 to
R172). -/

namespace Sys2Proof.Machine

variable {s t : State} {i : Instr}

theorem BlockInv.taken (h : BlockInv s) (rest : List HostAction) : BlockInv (s.taken rest) := { h with }

theorem BlockInv.respond (h : BlockInv s) (st : Status) (v : Bool) (r : BitVec 64) : BlockInv (s.respond st v r) :=
  { h with }

theorem BlockInv.presentInput (h : BlockInv s) (bytes : List Byte) : BlockInv (s.presentInput bytes) := { h with }

theorem BlockInv.grant (h : BlockInv s) (d : BitVec 64) : BlockInv (s.grant d) := { h with }

theorem BlockInv.writeTail (h : BlockInv s) (bytes : List Byte) : BlockInv (s.writeTail bytes) := { h with }

theorem BlockInv.copyTail (h : BlockInv s) (bytes : List Byte) : BlockInv (s.copyTail bytes) := { h with }

theorem BlockInv.decodeFault (h : BlockInv s) (st : Status) (c : FaultCode) : BlockInv (s.decodeFault st c) := { h with }

/-- R218, R33: the counters of a decoded block are no part of the encoder's block. -/
theorem BlockInv.commit (h : BlockInv s) (p : ParsedBlock) (x : Replay) (hd : s.mode = .dec) : BlockInv (s.commit p x) :=
  { h with
    counts := fun hm => not_enc_of_dec hd hm
    predBuf := fun hm => not_enc_of_dec hd hm
    rankBuf := fun hm => not_enc_of_dec hd hm
    dictBuf := fun hm => not_enc_of_dec hd hm
    encBuf := fun hm => not_enc_of_dec hd hm
    noEscape := fun hm => not_enc_of_dec hd hm }

/-- R170, R240, R290: a block with no signature and nothing in its buffers. -/
structure EmptyBlock (s : State) : Prop where
  sigCount : s.sigCount = 0
  pending : s.flushPending = false
  bstate : s.bstate = .predicting
  counts : s.blkHits = 0 ∧ s.blkMisses = 0 ∧ s.blkEscs = 0
  buffers : s.sigBuf = [] ∧ s.predBuf = [] ∧ s.rankBuf = [] ∧ s.dictBuf = [] ∧ s.encBuf = []

theorem EmptyBlock.blockInv (h : EmptyBlock s) (legal : BuildLegal s.build)
    (hf : s.mode = .dec → s.finished = false) : BlockInv s := by
  obtain ⟨hc, hp, hb, ⟨hh, hm, he⟩, hsig, hpred, hrank, hdict, henc⟩ := h
  constructor <;> simp_all

theorem blockReset_emptyBlock (s : State) : EmptyBlock s.blockReset :=
  ⟨rfl, rfl, rfl, ⟨rfl, rfl, rfl⟩, rfl, rfl, rfl, rfl, rfl⟩

theorem newContext_emptyBlock (s : State) (m : Mode) (w : WordSel) (hb : BitVec 5) (d : BitVec 64) :
    EmptyBlock (s.newContext m w hb d) := ⟨rfl, rfl, rfl, ⟨rfl, rfl, rfl⟩, rfl, rfl, rfl, rfl, rfl⟩

theorem hardReset_emptyBlock (s : State) : EmptyBlock s.hardReset :=
  ⟨rfl, rfl, rfl, ⟨rfl, rfl, rfl⟩, rfl, rfl, rfl, rfl, rfl⟩

/-- R170: a flush in ENC mode leaves an empty block. -/
theorem blockInv_flushed (legal : BuildLegal s.build) (hm : s.mode = .enc) (bytes : List Byte) :
    BlockInv (s.outWrite bytes).blockReset :=
  (blockReset_emptyBlock _).blockInv legal fun hd => not_dec_of_enc hm hd

theorem BlockInv.declareEnd_of_empty (h : BlockInv s) (hm : s.mode = .enc) (hc : s.sigCount = 0) :
    BlockInv s.declareEnd :=
  { h with
    finished := fun _ _ => hc
    decMode := fun hd => not_dec_of_enc hm hd }

theorem BlockInv.declareEnd_pend (h : BlockInv s) (hm : s.mode = .enc) (hc : s.sigCount ≠ 0) :
    BlockInv { s.declareEnd with flushPending := true } :=
  { h with
    full := fun _ => rfl
    pending := fun _ => Nat.one_le_iff_ne_zero.2 fun h0 => hc (BitVec.eq_of_toNat_eq h0)
    finished := fun _ hp => nomatch hp
    decMode := fun hd => not_dec_of_enc hm hd }

/-- R172: what holds of a block while its flush is pending holds without the pending flush, unless the block is full. -/
theorem BlockInv.of_pended (h : BlockInv { s with flushPending := true }) (room : s.sigCount.toNat ≠ Config.blockSigs)
    (hm : s.mode = .enc) (hp : s.flushPending = false) (hf : s.finished = false) : BlockInv s :=
  { h with
    full := fun hc => absurd hc room
    pending := fun hp' => nomatch hp.symm.trans hp'
    finished := fun hf' => nomatch hf.symm.trans hf'
    decMode := fun hd => not_dec_of_enc hm hd }

/-- R166: a block of at least one window may turn to ESCAPED. -/
theorem BlockInv.escape (h : BlockInv s) (n : BitVec 64) (hc : Config.window ≤ s.sigCount.toNat) (hm : s.mode = .enc) :
    BlockInv { s with bstate := .escaped, escEvents := n } :=
  { h with
    decMode := fun hd => not_dec_of_enc hm hd
    noEscape := fun _ hb => nomatch hb
    escaped := fun _ => hc }

/-- R90, R141 T2: a rank code has at most 11 bits, and one beyond the table has none. -/
theorem rankBits_length_le_maxCodeLen (b : Build) (legal : BuildLegal b) (r : Nat) :
    (rankBits b r).length ≤ Config.maxCodeLen := by
  by_cases hr : r < 256
  · exact rankBits_length_le b legal.table r hr
  · have hlen : b.codeTable.length ≤ r := by
      have : b.codeTable.length = 256 := legal.table.1
      omega
    rw [rankBits_length, Build.code, List.getD_eq_default _ _ hlen]
    exact Nat.zero_le _

/-- R33, R190 to R194: what routing a word adds to each stream, by the word's signature. -/
structure Routed (s u : State) (g : Signature) : Prop where
  escaped : g = .esc ↔ s.bstate = .escaped
  pred : u.predBuf.length ≤ s.predBuf.length + if g = .hit then 1 + s.hbits.toNat else 0
  rank : u.rankBuf.length ≤ s.rankBuf.length + if g = .hit then Config.maxCodeLen else 0
  dict : u.dictBuf.length = s.dictBuf.length + if g = .miss then s.hbits.toNat else 0
  enc : u.encBuf.length =
    s.encBuf.length + (if g = .miss then wordBytes s.wsel else 0) + if g = .esc then wordBytes s.wsel else 0

theorem routeWord_routed (legal : BuildLegal s.build) (w : Word) : Routed s (s.routeWord w).1 (s.routeWord w).2.sig := by
  obtain ⟨hb, e⟩ | ⟨hb, r, -, e⟩ | ⟨hb, -, e⟩ := routeWord_cases s w <;> rw [e]
  · constructor <;> simp [hb]
  · have hmark := hitMarker_length s.hbits.toNat (s.hash w) s.lastb.toNat
    have hrank := rankBits_length_le_maxCodeLen s.build legal r
    constructor
    case pred => simp only [List.length_append, hmark, if_true]; split <;> omega
    case rank => simpa only [List.length_append, if_true, Nat.add_le_add_iff_left] using hrank
    all_goals simp [hb]
  · constructor <;> simp [hb]

theorem satAdd_if_toNat {w : Nat} (x : BitVec w) (p : Prop) [Decidable p] (h : x.toNat + 1 < 2 ^ w) :
    (if p then satAdd x 1 else x).toNat = x.toNat + if p then 1 else 0 := by
  split
  · exact satAdd_toNat_of_lt x 1 h
  · rfl

theorem BlockInv.room (h : BlockInv s) (hp : s.flushPending = false) : s.sigCount.toNat < Config.blockSigs :=
  Nat.lt_of_le_of_ne h.count fun hc => nomatch hp.symm.trans (h.full hc)

/-- R161, R163: an accepted word in the streams and its signature in SIGBUF. That the flush is taken as pending leaves open
whether the block is now full. -/
theorem BlockInv.accept (h : BlockInv s) (ready : EncReady s) (w : Word) :
    BlockInv { (s.routeWord w).1.appendSignature (s.routeWord w).2.sig with flushPending := true } := by
  have hm := ready.mode
  have hroom : s.sigCount.toNat < 4096 := h.room ready.pending
  have hcounts := h.counts hm
  obtain ⟨hesc, hpred, hrank, hdict, henc⟩ := routeWord_routed h.legal w
  generalize hg : (s.routeWord w).2.sig = g at *
  rw [routeWord_eq]
  have hcount : (satAdd s.sigCount 1).toNat = s.sigCount.toNat + 1 := satAdd_toNat_of_lt _ _ (by omega)
  have hh := satAdd_if_toNat s.blkHits (g = .hit) (by omega)
  have hmi := satAdd_if_toNat s.blkMisses (g = .miss) (by omega)
  have he := satAdd_if_toNat s.blkEscs (g = .esc) (by omega)
  constructor
  case legal => exact h.legal
  case count => exact hcount ▸ h.room ready.pending
  case full => intro _; rfl
  case pending => simp only [State.appendSignature_sigCount, hcount]; omega
  case finished => intro _ hp; exact nomatch hp
  case sigBuf =>
    simp only [State.appendSignature_sigCount, State.appendSignature_sigBuf, List.length_append, bitsMsb_length, hcount,
      h.sigBuf]
    omega
  case decMode => intro hd; exact not_dec_of_enc hm hd
  case counts =>
    intro _
    simp only [State.appendSignature, hcount, hh, hmi, he]
    have hone : ((if g = .hit then 1 else 0) + (if g = .miss then 1 else 0) + if g = .esc then 1 else 0) = 1 := by
      cases g <;> rfl
    omega
  case predBuf =>
    intro _
    have := h.predBuf hm
    simp only [State.appendSignature, hh, Nat.add_mul, ite_mul, one_mul, zero_mul]
    omega
  case rankBuf =>
    intro _
    have := h.rankBuf hm
    simp only [State.appendSignature, hh, Nat.add_mul, ite_mul, one_mul, zero_mul]
    omega
  case dictBuf =>
    intro _
    have := h.dictBuf hm
    simp only [State.appendSignature, hmi, Nat.add_mul, ite_mul, one_mul, zero_mul]
    omega
  case encBuf =>
    intro _
    have := h.encBuf hm
    simp only [State.appendSignature, hmi, he, Nat.add_mul, ite_mul, one_mul, zero_mul] at this ⊢
    omega
  case noEscape =>
    intro _ hb
    have hb' : s.bstate = .predicting := hb
    have hg : g ≠ .esc := fun hg => nomatch hb'.symm.trans (hesc.1 hg)
    simpa [State.appendSignature, hg] using h.noEscape hm hb'
  case escaped =>
    intro hb
    have := h.escaped hb
    simp only [State.appendSignature, hcount]
    omega

/-- R164: a window check that is due comes at a whole number of windows. -/
theorem window_le_of_windowDue (hc : 0 < s.sigCount.toNat) (hd : s.windowDue = true) :
    Config.window ≤ s.sigCount.toNat := by
  simp only [State.windowDue, Bool.and_eq_true, decide_eq_true_eq] at hd
  exact Nat.le_of_dvd hc (Nat.dvd_of_mod_eq_zero hd.1.2)

/-- R161, R166: the same after the window check. -/
theorem BlockInv.enterWord (h : BlockInv s) (ready : EncReady s) (w : Word) :
    BlockInv { s.enterWord w with flushPending := true } := by
  have ha := h.accept ready w
  have hmode : ((s.routeWord w).1.appendSignature (s.routeWord w).2.sig).mode = .enc := by
    rw [routeWord_eq]; exact ready.mode
  unfold State.enterWord
  generalize (s.routeWord w).1.appendSignature (s.routeWord w).2.sig = u at *
  obtain ⟨hdue, -, e⟩ | ⟨-, e⟩ := windowCheck_cases u <;> rw [e]
  · exact ha.escape _ (window_le_of_windowDue (ha.pending rfl) hdue) hmode
  · exact ha

theorem BlockInv.effect (h : BlockInv s) (e : Effect s i t) : BlockInv t := by
  cases e with
  | answer => exact h.respond ..
  | context m w hb d =>
    exact ((newContext_emptyBlock s m w hb d).blockInv h.legal fun _ => rfl).respond ..
  | grant => exact (h.grant _).respond ..
  | word d u _ _ _ ready entered room =>
    have hu : BlockInv { u with flushPending := true } := entered ▸ h.enterWord ready _
    have hm : u.mode = .enc := by simp [entered, ready.mode]
    have hp : u.flushPending = false := by simp [entered, ready.pending]
    have hf : u.finished = false := by simp [entered, ready.finished]
    exact (hu.of_pended room hm hp hf).respond ..
  | wordFlush d u _ _ _ ready entered =>
    have hu : BlockInv { u with flushPending := true } := entered ▸ h.enterWord ready _
    have hm : u.mode = .enc := by simp [entered, ready.mode]
    exact (blockInv_flushed hu.legal hm _).respond ..
  | wordPend d u _ _ _ ready entered =>
    have hu : BlockInv { u with flushPending := true } := entered ▸ h.enterWord ready _
    exact hu.respond ..
  | flush _ _ _ mode => exact (blockInv_flushed h.legal mode _).respond ..
  | finish _ _ _ ready empty => exact (h.declareEnd_of_empty ready.mode empty).respond ..
  | finishFlush _ _ _ ready => exact (blockInv_flushed (s := s.declareEnd) h.legal ready.mode _).respond ..
  | finishPend _ _ _ ready partly => exact (h.declareEnd_pend ready.mode partly).respond ..
  | tail => exact (h.writeTail _).respond ..
  | blockCorrupt => exact h.decodeFault ..
  | blockInvalid => exact h.decodeFault ..
  | commit p x _ _ _ ready => exact (h.commit p x ready.mode).respond ..
  | tailCorrupt => exact h.decodeFault ..
  | copyTail => exact (h.copyTail _).respond ..

/-- Settles O59: an accepted word keeps the counters and the streams in step, and a flush empties the block. -/
theorem stepKeepsBlockInvariant : Obligations.StepKeepsBlockInvariant := by
  intro s t h hstep
  exact step_keeps BlockInv (fun _ rest h => h.taken rest) (fun _ bytes h => h.presentInput bytes)
    (fun u h => (hardReset_emptyBlock u).blockInv h.legal fun _ => rfl) (fun _ _ _ h e => h.effect e) h hstep

end Sys2Proof.Machine
end

section
/-! SUPPORT. The dictionary invariant is kept by every step, and what changes a bucket (10_state.md R30 to R32). -/

namespace Sys2Proof.Machine

variable {s t : State} {i : Instr}

/-- R31, R32 (a), (c): what the invariant asks of the dictionary RAM in a context. -/
structure Memory.Sound (m : Memory) (b : Build) (w : WordSel) (hb : Nat) : Prop where
  wf : m.wf
  occ : ∀ k, m.occ k ≤ b.depth.toNat
  home : ∀ k, ∀ x ∈ m.list k, hashOf b w hb x.toNat = k
  width : ∀ k, ∀ x ∈ m.list k, x.toNat < 2 ^ wordBits w

/-- R32 (b). -/
def Memory.Distinct (m : Memory) : Prop := ∀ k, (m.list k).Nodup

section
variable {m : Memory} {b : Build} {w : WordSel} {hb : Nat}

theorem Memory.sound_empty : Memory.empty.Sound b w hb :=
  ⟨Memory.wf_empty, fun _ => Nat.zero_le _, fun _ _ h => absurd h List.not_mem_nil,
    fun _ _ h => absurd h List.not_mem_nil⟩

theorem Memory.list_promote_perm (hm : m.wf) (j r k : Nat) : ((m.promote j r).list k).Perm (m.list k) := by
  by_cases hk : k = j
  · subst hk
    rw [m.list_promote_same k r hm]
    exact promoteList_perm _ r
  · rw [m.list_promote_other j r k hk]

/-- R122: a promotion only reorders a list. -/
theorem Memory.Sound.promote (h : m.Sound b w hb) (j r : Nat) : (m.promote j r).Sound b w hb where
  wf := m.wf_promote j r h.wf
  occ k := (Memory.list_promote_perm h.wf j r k).length_eq.le.trans (h.occ k)
  home k x hx := h.home k x ((Memory.list_promote_perm h.wf j r k).mem_iff.1 hx)
  width k x hx := h.width k x ((Memory.list_promote_perm h.wf j r k).mem_iff.1 hx)

theorem Memory.Distinct.promote (h : m.Distinct) (hm : m.wf) (j r : Nat) : (m.promote j r).Distinct :=
  fun k => (Memory.list_promote_perm hm j r k).nodup_iff.2 (h k)

theorem Memory.mem_list_insert {depth j k : Nat} {x y : Word} (h : y ∈ (m.insert depth j x).list k) :
    (k = j ∧ y = x) ∨ y ∈ m.list k := by
  by_cases hk : k = j
  · subst hk
    rw [m.list_insert_same] at h
    exact (mem_insertList _ _ _ _ h).imp_left fun h => ⟨rfl, h⟩
  · rw [m.list_insert_other _ _ _ _ hk] at h
    exact .inr h

/-- R123: a word inserted in the bucket its hash selects evicts what is beyond DEPTH. -/
theorem Memory.Sound.insert (h : m.Sound b w hb) (hd : 1 ≤ b.depth.toNat) {x : Word} (hx : x.toNat < 2 ^ wordBits w) :
    (m.insert b.depth.toNat (hashOf b w hb x.toNat) x).Sound b w hb where
  wf := m.wf_insert _ _ _ h.wf
  occ k := by
    by_cases hk : k = hashOf b w hb x.toNat
    · rw [Memory.occ, hk, m.list_insert_same, insertList_length]
      omega
    · rw [Memory.occ, m.list_insert_other _ _ _ _ hk]
      exact h.occ k
  home k y hy := by
    obtain ⟨rfl, rfl⟩ | hy := Memory.mem_list_insert hy
    · rfl
    · exact h.home k y hy
  width k y hy := by
    obtain ⟨-, rfl⟩ | hy := Memory.mem_list_insert hy
    · exact hx
    · exact h.width k y hy

theorem Memory.Distinct.insert (h : m.Distinct) (depth : Nat) {j : Nat} {x : Word} (hx : x ∉ m.list j) :
    (m.insert depth j x).Distinct := by
  intro k
  by_cases hk : k = j
  · rw [hk, m.list_insert_same]
    exact insertList_nodup depth _ x (h j) hx
  · rw [m.list_insert_other _ _ _ _ hk]
    exact h k

end

theorem DictInv.sound (h : DictInv s) (hi : s.init = true) : s.dict.Sound s.build s.wsel s.hbits.toNat :=
  ⟨h.wf, h.occ hi, h.home hi, h.width hi⟩

theorem DictInv.of_sound (legal : BuildLegal s.build) (h : s.dict.Sound s.build s.wsel s.hbits.toNat)
    (distinct : s.mode = .enc → s.dict.Distinct) : DictInv s :=
  ⟨legal, h.wf, fun _ => h.occ, fun _ => distinct, fun _ => h.home, fun _ => h.width⟩

/-- R124: what the RAM keeps over a promotion and over the insertion of an absent word, it keeps over a word entered. -/
theorem enterWord_dict_keeps (P : Memory → Prop) (w : Word) (hs : P s.dict)
    (promote : ∀ r, P (s.dict.promote (s.hash w) r))
    (insert : w ∉ s.dict.list (s.hash w) → P (s.dict.insert s.build.depth.toNat (s.hash w) w)) :
    P (s.enterWord w).dict := by
  obtain ⟨-, e, -⟩ | ⟨-, -, ⟨r, -, e⟩ | ⟨hr, e⟩⟩ := enterWord_dict_cases s w <;> rw [e]
  · exact hs
  · exact promote r
  · exact insert ((findRank_none _ _).1 hr)

theorem distinct_enterWord (hm : s.dict.wf) (h : s.dict.Distinct) (w : Word) : (s.enterWord w).dict.Distinct :=
  enterWord_dict_keeps Memory.Distinct w h (h.promote hm _) (h.insert _)

theorem sound_enterWord (legal : BuildLegal s.build) (h : s.dict.Sound s.build s.wsel s.hbits.toNat) (d : BitVec 64) :
    (s.enterWord (wordOperand s.wsel d)).dict.Sound s.build s.wsel s.hbits.toNat :=
  enterWord_dict_keeps (Memory.Sound · s.build s.wsel s.hbits.toNat) _ h (h.promote _)
    fun _ => h.insert legal.depth.1 (wordOperand_lt s.wsel d)

theorem DictInv.enterWord (h : DictInv s) (hi : s.init = true) (d : BitVec 64) :
    DictInv (s.enterWord (wordOperand s.wsel d)) := by
  have hsound := sound_enterWord h.legal (h.sound hi) d
  have hdistinct := fun hm => distinct_enterWord h.wf (h.distinct hi hm) (wordOperand s.wsel d)
  rw [enterWord_eq]
  exact .of_sound h.legal hsound hdistinct

/-- R214 to R216, R32: the tentative dictionary of a block that is rebuilt is sound where the context's is. -/
theorem rebuild_sound (legal : BuildLegal s.build) (h : s.dict.Sound s.build s.wsel s.hbits.toNat)
    (hl : s.lastb.toNat < 2 ^ s.hbits.toNat) {p : ParsedBlock} {x : Replay} (hp : s.parse = some p)
    (hx : s.rebuild p = some x) : x.dict.Sound s.build s.wsel s.hbits.toNat := by
  obtain ⟨-, -, -, -, -, hm, hd, hlit⟩ := parseBlock_some _ _ _ _ _ _ hp
  exact (reconstruct_keeps s.build s.wsel s.hbits.toNat
    (fun m l => m.Sound s.build s.wsel s.hbits.toNat ∧ l.toNat < 2 ^ s.hbits.toNat)
    (fun _ _ k r hI hk => ⟨hI.1.promote k r, ofNat16_toNat_lt hk⟩)
    (fun _ _ _ hI hy hk => ⟨hI.1.insert legal.depth.1 hy, ofNat16_toNat_lt hk⟩)
    (fun _ _ hI => hI.2) _ _ _ _ _ _ _ _ hm hd hlit ⟨h, hl⟩ hx).1.1

/-- Only CTX_INIT, an entered word and a committed block write the dictionary. -/
theorem DictInv.effect (h : DictInv s) (hr : RegInv s) (e : Effect s i t) : DictInv t := by
  cases e with
  | answer => exact { h with }
  | context => exact .of_sound h.legal Memory.sound_empty fun _ _ => List.nodup_nil
  | grant => exact { h with }
  | word d u _ _ _ ready entered =>
    have hu : DictInv u := entered ▸ h.enterWord ready.init d
    exact { hu with }
  | wordFlush d u _ _ _ ready entered =>
    have hu : DictInv u := entered ▸ h.enterWord ready.init d
    exact { hu with }
  | wordPend d u _ _ _ ready entered =>
    have hu : DictInv u := entered ▸ h.enterWord ready.init d
    exact { hu with }
  | commit p x _ _ _ ready parsed rebuilt =>
    exact .of_sound h.legal (rebuild_sound h.legal (h.sound ready.init) hr.lastb parsed rebuilt)
      fun hm => not_enc_of_dec ready.mode hm
  | _ => exact { h with }

/-! ### The replay of a block, point by point -/

/-- R214 to R216: the tentative dictionary after the word of a replay point. -/
def ReplayPoint.after (depth : Nat) (q : ReplayPoint) : Memory :=
  match q.sig with
  | .hit => q.dict.promote q.bucket q.rank
  | .miss => q.dict.insert depth q.bucket q.word
  | .esc => q.dict

/-- What every word of a block keeps at its replay point, the block keeps. -/
theorem reconstruct_keeps_at_points (P : Memory → Prop) (b : Build) (w : WordSel) (hb : Nat) (sigs : List Signature)
    (markers : List (Option Nat)) (ranks drefs : List Nat) (lits : List Word) (m : Memory) (l : BitVec 16) (x : Replay)
    (points : ∀ q ∈ replayPoints b.depth.toNat sigs markers ranks drefs lits m l, P q.dict → P (q.after b.depth.toNat))
    (hm : P m) (h : reconstruct b w hb sigs markers ranks drefs lits m l = some x) : P x.dict := by
  fun_induction reconstruct b w hb sigs markers ranks drefs lits m l generalizing x with
  | case1 => exact Option.some.inj h ▸ hm
  | case3 sigs marker markers r ranks drefs lits m l bucket y m1 hreplay ih =>
    obtain ⟨z, hz, rfl⟩ := Option.map_eq_some_iff.1 h
    obtain ⟨hn, -⟩ | ⟨v, hv, -, -⟩ := replayHit_cases m bucket r
    · exact nomatch hn.symm.trans hreplay
    · obtain ⟨-, rfl⟩ := Prod.mk.inj (Option.some.inj (hv.symm.trans hreplay))
      rw [replayPoints, List.forall_mem_cons] at points
      exact ih z points.2 (points.1 hm) hz
  | case4 sigs markers ranks drefs y lits m l ih =>
    obtain ⟨z, hz, rfl⟩ := Option.map_eq_some_iff.1 h
    rw [replayPoints, List.forall_mem_cons] at points
    exact ih z points.2 (points.1 hm) hz
  | case6 sigs markers ranks drefs y lits m l ih =>
    obtain ⟨z, hz, rfl⟩ := Option.map_eq_some_iff.1 h
    rw [replayPoints, List.forall_mem_cons] at points
    exact ih z points.2 hm hz
  | case2 | case5 | case7 => exact nomatch h

theorem rebuild_keeps_at_points (P : Memory → Prop) {p : ParsedBlock} {x : Replay} (hx : s.rebuild p = some x)
    (points : ∀ q ∈ s.replayPoints p, P q.dict → P (q.after s.build.depth.toNat)) (hs : P s.dict) : P x.dict :=
  reconstruct_keeps_at_points P _ _ _ _ _ _ _ _ _ _ _ points hs hx

/-- R32 (b): the words of every bucket stay distinct over a replayed word that is no MISS of a held word. -/
theorem ReplayPoint.after_distinct (q : ReplayPoint) (depth : Nat)
    (hmiss : q.sig = .miss → q.word ∉ q.dict.list q.bucket) (h : q.dict.wf ∧ q.dict.Distinct) :
    (q.after depth).wf ∧ (q.after depth).Distinct := by
  unfold ReplayPoint.after
  cases hg : q.sig with
  | hit => exact ⟨q.dict.wf_promote _ _ h.1, h.2.promote h.1 _ _⟩
  | miss => exact ⟨q.dict.wf_insert _ _ _ h.1, h.2.insert _ (hmiss hg)⟩
  | esc => exact h

/-- R32 (d): a replayed word leaves every bucket alone but the one it is a hit or a miss in. -/
theorem ReplayPoint.after_list_other (q : ReplayPoint) (depth b : Nat)
    (h : ¬((q.sig = .hit ∨ q.sig = .miss) ∧ q.bucket = b)) : (q.after depth).list b = q.dict.list b := by
  have other (hg : q.sig = .hit ∨ q.sig = .miss) : b ≠ q.bucket := fun hb => h ⟨hg, hb.symm⟩
  unfold ReplayPoint.after
  cases hg : q.sig with
  | hit => exact q.dict.list_promote_other _ _ b (other (.inl hg))
  | miss => exact q.dict.list_insert_other _ _ _ b (other (.inr hg))
  | esc => rfl

/-! ### The statements about the dictionary -/

/-- R32 (b), in either mode. -/
theorem Effect.distinct (e : Effect s i t) (hm : s.dict.wf) (h : s.dict.Distinct)
    (fresh : i = .decBlock → ¬s.sendsHeldMiss) : t.dict.Distinct := by
  cases e with
  | context => exact fun _ => List.nodup_nil
  | word d u _ _ _ ready entered => exact entered ▸ distinct_enterWord hm h _
  | wordFlush d u _ _ _ ready entered => exact entered ▸ distinct_enterWord hm h _
  | wordPend d u _ _ _ ready entered => exact entered ▸ distinct_enterWord hm h _
  | commit p x _ _ _ ready parsed rebuilt =>
    have points : ∀ q ∈ s.replayPoints p, q.sig = .miss → q.word ∉ q.dict.list q.bucket :=
      fun q hq hg hw => fresh rfl ⟨p, parsed, q, hq, hg, hw⟩
    exact (rebuild_keeps_at_points (fun m => m.wf ∧ m.Distinct) rebuilt
      (fun q hq => q.after_distinct _ (points q hq)) ⟨hm, h⟩).2
  | _ => exact h

/-- Settles O60: the dictionary changes only by promotions and insertions, and each keeps what the invariant asks; the
one insertion of a held word is the one the second part sets aside. -/
theorem stepKeepsDictionaryInvariant : Obligations.StepKeepsDictionaryInvariant := by
  constructor
  · intro s t hr h hstep
    exact (step_keeps (fun u => RegInv u ∧ DictInv u) (fun _ rest h => ⟨h.1.taken rest, { h.2 with }⟩)
      (fun _ bytes h => ⟨h.1.presentInput bytes, { h.2 with }⟩)
      (fun u h => ⟨h.1.hardReset, .of_sound h.1.legal Memory.sound_empty fun _ _ => List.nodup_nil⟩)
      (fun _ _ _ h e => ⟨h.1.effect e, h.2.effect h.1 e⟩) ⟨hr, h⟩ hstep).2
  · intro i s t h distinct fresh hexec
    exact (exec_effect hexec).distinct h.wf distinct fresh

/-- R32 (d): a word entered changes no bucket but the one its hash selects, and that one only while PREDICTING. -/
theorem enterWord_list_changed {w : Word} {b : Nat} (h : (s.enterWord w).dict.list b ≠ s.dict.list b) :
    s.bstate = .predicting ∧ b = s.hash w := by
  obtain ⟨-, e, -⟩ | ⟨hb, -, ⟨r, -, e⟩ | ⟨-, e⟩⟩ := enterWord_dict_cases s w <;> rw [e] at h
  · exact absurd rfl h
  · exact ⟨hb, by_contra fun hne => h (s.dict.list_promote_other _ _ _ hne)⟩
  · exact ⟨hb, by_contra fun hne => h (s.dict.list_insert_other _ _ _ _ hne)⟩

/-- Settles O23: of the effects only an entered word and a committed block write the dictionary. -/
theorem onlyPredictionTouchesABucket : Obligations.OnlyPredictionTouchesABucket := by
  intro i s t b hi hexec hne
  have ofWord (d : BitVec 64) (h : (s.enterWord (wordOperand s.wsel d)).dict.list b ≠ s.dict.list b) :
      ∃ d', Instr.encWord d = .encWord d' ∧ s.bstate = .predicting ∧ b = s.hash (wordOperand s.wsel d') :=
    ⟨d, rfl, enterWord_list_changed h⟩
  cases exec_effect hexec with
  | context => exact nomatch hi
  | word d u _ _ _ ready entered => exact .inl (ofWord d (entered ▸ hne))
  | wordFlush d u _ _ _ ready entered => exact .inl (ofWord d (entered ▸ hne))
  | wordPend d u _ _ _ ready entered => exact .inl (ofWord d (entered ▸ hne))
  | commit p x _ _ _ ready parsed rebuilt =>
    refine .inr ⟨rfl, p, parsed, ?_⟩
    by_contra hnone
    exact hne (rebuild_keeps_at_points (fun m => m.list b = s.dict.list b) rebuilt
      (fun q hq hqb => (q.after_list_other _ b fun hg => hnone ⟨q, hq, hg⟩).trans hqb) rfl)
  | _ => exact absurd rfl hne

end Sys2Proof.Machine
end

section
/-! SUPPORT. The writers of INIT, the configuration and the flags (10_state.md R22 to R28, R41), and the packed registers
(R39, R40). -/

namespace Sys2Proof.Machine

variable {s t : State} {i : Instr} {a : HostAction} {rest : List HostAction}

/-! ### The writers of each flag -/

/-- R22, R23: a command other than CTX_INIT leaves INIT and the configuration alone. -/
theorem Effect.config (e : Effect s i t) (hi : i.isCtxInit = false) :
    t.init = s.init ∧ (t.mode, t.wsel, t.hbits) = (s.mode, s.wsel, s.hbits) := by
  cases e with
  | context => exact nomatch hi
  | word | wordFlush | wordPend => simp [*]
  | _ => exact ⟨rfl, rfl⟩

theorem Effect.init (e : Effect s i t) (hs : s.init = true) : t.init = true := by
  cases hi : i.isCtxInit with
  | false => exact (e.config hi).1.trans hs
  | true =>
    cases e with
    | answer => exact hs
    | context => rfl
    | _ => exact nomatch hi

/-- R41: BSTATE. -/
theorem Effect.bstate (e : Effect s i t) (hi : i.isCtxInit = false) : t.bstate = s.bstate ∨
    (t.bstate = .escaped ∧ ∃ d, i = .encWord d) ∨
    (t.bstate = .predicting ∧ ((∃ d, i = .encWord d) ∨ i = .encFlush ∨ i = .encFinish)) := by
  cases e with
  | context => exact nomatch hi
  | word d u | wordPend d u =>
    have hb : u.bstate = .predicting ∨ u.bstate = .escaped := by cases u.bstate <;> simp
    obtain hb | hb := hb
    · exact .inr (.inr ⟨hb, .inl ⟨d, rfl⟩⟩)
    · exact .inr (.inl ⟨hb, d, rfl⟩)
  | wordFlush d => exact .inr (.inr ⟨rfl, .inl ⟨d, rfl⟩⟩)
  | flush => exact .inr (.inr ⟨rfl, .inr (.inl rfl)⟩)
  | finishFlush => exact .inr (.inr ⟨rfl, .inr (.inr rfl)⟩)
  | _ => exact .inl rfl

/-- R41: FLUSH_PENDING. -/
theorem Effect.flushPending (e : Effect s i t) (hi : i.isCtxInit = false) : t.flushPending = s.flushPending ∨
    (t.flushPending = true ∧ ((∃ d, i = .encWord d) ∨ i = .encFinish)) ∨
    (t.flushPending = false ∧ i = .encFlush) := by
  cases e with
  | context => exact nomatch hi
  | word d u _ _ _ ready entered => exact .inl (by simp [entered])
  | wordFlush d u _ _ _ ready => exact .inl ready.pending.symm
  | wordPend d => exact .inr (.inl ⟨rfl, .inl ⟨d, rfl⟩⟩)
  | flush => exact .inr (.inr ⟨rfl, rfl⟩)
  | finishFlush _ _ _ ready => exact .inl ready.pending.symm
  | finishPend => exact .inr (.inl ⟨rfl, .inr rfl⟩)
  | _ => exact .inl rfl

/-- R41: FINISHED. -/
theorem Effect.finished (e : Effect s i t) (hi : i.isCtxInit = false) :
    t.finished = s.finished ∨ (i = .encFinish ∧ t.finished = true) := by
  cases e with
  | context => exact nomatch hi
  | word | wordFlush | wordPend => exact .inl (by simp [*])
  | finish | finishFlush | finishPend => exact .inr ⟨rfl, rfl⟩
  | _ => exact .inl rfl

/-- R41: TAIL_DONE. -/
theorem Effect.tailDone (e : Effect s i t) (hi : i.isCtxInit = false) :
    t.tailDone = s.tailDone ∨ (((∃ n d, i = .encTail n d) ∨ i = .decTail) ∧ t.tailDone = true) := by
  cases e with
  | context => exact nomatch hi
  | word | wordFlush | wordPend => exact .inl (by simp [*])
  | tail n d => exact .inr ⟨.inl ⟨n, d, rfl⟩, rfl⟩
  | copyTail => exact .inr ⟨.inr rfl, rfl⟩
  | _ => exact .inl rfl

/-- R28, R266: FAULT is cleared with a new context and set with the fault of a decode command. -/
theorem Effect.fault (e : Effect s i t) : t.fault = s.fault ∨ (i.isCtxInit = true ∧ t.fault = false) ∨
    ((i = .decBlock ∨ i = .decTail) ∧ t.fault = true ∧
      ((t.resp.status = .corruptStream ∧ t.faultCode = .corruptStream) ∨
       (t.resp.status = .invalidCode ∧ t.faultCode = .invalidCode))) := by
  cases e with
  | context => exact .inr (.inl ⟨rfl, rfl⟩)
  | word | wordFlush | wordPend => exact .inl (by simp [*])
  | blockCorrupt => exact .inr (.inr ⟨.inl rfl, rfl, .inl ⟨rfl, rfl⟩⟩)
  | blockInvalid => exact .inr (.inr ⟨.inl rfl, rfl, .inr ⟨rfl, rfl⟩⟩)
  | tailCorrupt => exact .inr (.inr ⟨.inr rfl, rfl, .inl ⟨rfl, rfl⟩⟩)
  | _ => exact .inl rfl

/-- A step that takes an action is hardware reset, or runs CTX_INIT, or leaves what presenting IN and every other command
leave. -/
theorem step_reset_or_ctxInit_or (R : State → Prop) (hp : s.port = a :: rest) (h : step s = .next t)
    (present : ∀ bytes, R ((s.taken rest).presentInput bytes))
    (command : ∀ i t, i.isCtxInit = false → Effect (s.taken rest) i t → R t) :
    (a = .hardReset ∧ t = (s.taken rest).hardReset) ∨
    (∃ c i, a = .issue c ∧ decode c = .ok i ∧ i.isCtxInit = true ∧ Effect (s.taken rest) i t) ∨ R t := by
  rw [step_of_port hp] at h
  obtain ⟨bytes, -, rfl⟩ | ⟨ha, rfl⟩ | ⟨c, e, -, -, rfl⟩ | ⟨c, i, ha, hc, h⟩ := runAction_cases h
  · exact .inr (.inr (present bytes))
  · exact .inl ⟨ha, rfl⟩
  · exact .inr (.inr (command .nop _ rfl (.answer ..)))
  · cases hi : i.isCtxInit with
    | false => exact .inr (.inr (command i t hi (exec_effect h)))
    | true => exact .inr (.inl ⟨c, i, ha, hc, hi, exec_effect h⟩)

/-- Settles O52: of the effects only a new context clears FAULT, and only a failed decode sets it. -/
theorem faultIsStickyUntilCtxInit : Obligations.FaultIsStickyUntilCtxInit := by
  constructor
  · intro s t a rest hp h hs ht
    have command (i t) (hi : i.isCtxInit = false) (e : Effect (s.taken rest) i t) : t.fault = true := by
      obtain e | ⟨hi', -⟩ | ⟨-, e, -⟩ := e.fault
      · exact e.trans hs
      · exact nomatch hi.symm.trans hi'
      · exact e
    obtain ⟨ha, -⟩ | ⟨c, i, ha, hc, hi, -⟩ | hf :=
      step_reset_or_ctxInit_or (fun u => u.fault = true) hp h (fun _ => hs) command
    · exact .inl ha
    · exact .inr ⟨c, i, ha, hc, hi⟩
    · exact nomatch hf.symm.trans ht
  · intro i s t h hs ht
    obtain e | ⟨-, e⟩ | ⟨hi, -, hcode⟩ := (exec_effect h).fault
    · exact nomatch hs.symm.trans (e.symm.trans ht)
    · exact nomatch e.symm.trans ht
    · exact ⟨hi, hcode⟩

/-- Settles O53: every effect but a new context keeps INIT and the configuration. -/
theorem onlyCtxInitConfigures : Obligations.OnlyCtxInitConfigures := by
  intro s t a rest hp h
  obtain ⟨rfl, rfl⟩ | ⟨c, i, ha, hc, hi, e⟩ | ⟨hinit, hconf⟩ := step_reset_or_ctxInit_or
    (fun u => u.init = s.init ∧ (u.mode, u.wsel, u.hbits) = (s.mode, s.wsel, s.hbits)) hp h (fun _ => ⟨rfl, rfl⟩)
    (fun _ _ hi e => e.config hi)
  · exact ⟨fun _ ht => (nomatch ht), fun _ _ => rfl, fun _ => .inl rfl⟩
  · exact ⟨fun _ _ => ⟨c, i, ha, hc, hi⟩, fun hs ht => (nomatch ht.symm.trans (e.init hs)),
      fun _ => .inr ⟨c, i, ha, hc, hi⟩⟩
  · exact ⟨fun hs ht => (nomatch hs.symm.trans (hinit.symm.trans ht)),
      fun hs ht => (nomatch ht.symm.trans (hinit.trans hs)), fun hne => absurd hconf hne⟩

/-- Settles O54, flag by flag, from the writers of each. -/
theorem conditionStateWriters : Obligations.ConditionStateWriters := by
  intro i s t h hi
  have e := exec_effect h
  refine ⟨fun hs ht => ?_, fun hs ht => ?_, fun hs ht => ?_, fun hs ht => ?_, fun hne => ?_, fun hne => ?_,
    fun hne => ?_⟩
  · simpa [hs, ht] using e.bstate hi
  · simpa [hs, ht] using e.bstate hi
  · simpa [hs, ht] using e.flushPending hi
  · simpa [hs, ht] using e.flushPending hi
  · exact (e.finished hi).resolve_left hne.symm
  · exact (e.tailDone hi).resolve_left hne.symm
  · obtain ⟨hi', -⟩ | ⟨hdec, hf, -⟩ := e.fault.resolve_left hne.symm
    · exact nomatch hi.symm.trans hi'
    · exact ⟨hdec, hf⟩

/-! ### The step, and the packed registers -/

/-- Settles O6. Leaving the port and the count of actions is `State.taken`. -/
theorem stepRunsDecodedCommand : Obligations.StepRunsDecodedCommand := by
  intro s c rest i hp hc
  rw [step_of_port hp, runAction, runCommand, hc]
  rfl

/-- R296: IN changes unmarked where no DEC context is active or the bytes are those of before. -/
theorem presentInput_unmarked {bytes : List Byte} (h : ¬(s.init = true ∧ s.mode = .dec) ∨ bytes = s.input) :
    s.presentInput bytes = { s with input := bytes } := by
  have hmark : (s.decActive && decide (bytes ≠ s.input)) = false := by
    rw [Bool.and_eq_false_iff, ← Bool.not_eq_true, decActive_iff, decide_eq_false_iff_not, not_not]
    exact h
  rw [State.presentInput, hmark, Bool.or_false]

/-- R296: a change of IN while a DEC context is active is marked. -/
theorem presentInput_marked {bytes : List Byte} (hi : s.init = true) (hm : s.mode = .dec) (hne : bytes ≠ s.input) :
    s.presentInput bytes = { s with input := bytes, inChanged := true } := by
  rw [State.presentInput, (decActive_iff s).2 ⟨hi, hm⟩, decide_eq_true hne, Bool.and_true, Bool.or_true]

/-- Settles O9: the mark is set exactly where IN changes in an active DEC context. -/
theorem presentingInput : Obligations.PresentingInput := by
  intro s bytes rest hp
  have hstep : step s = .next ((s.taken rest).presentInput bytes) := step_of_port hp
  refine ⟨fun h => ?_, fun hi hm hne => ?_⟩
  · exact hstep.trans (congrArg _ (presentInput_unmarked (s := s.taken rest) h))
  · exact hstep.trans (congrArg _ (presentInput_marked (s := s.taken rest) hi hm hne))

/-- R39, the fields of one bit. -/
theorem ctxStat_bits (s : State) :
    (ctxStat s).getLsbD 0 = s.init ∧ (ctxStat s).getLsbD 1 = s.mode.bit.getLsbD 0 ∧
    (ctxStat s).getLsbD 2 = s.wsel.bit.getLsbD 0 ∧ (ctxStat s).getLsbD 8 = s.bstate.bit.getLsbD 0 ∧
    (ctxStat s).getLsbD 9 = s.flushPending ∧ (ctxStat s).getLsbD 10 = s.finished ∧
    (ctxStat s).getLsbD 11 = s.tailDone ∧ (ctxStat s).getLsbD 12 = s.fault := by
  simp only [ctxStat, BitVec.getLsbD_append]
  simp

/-- R39, the fields of more than one bit, and the reserved bits. -/
theorem ctxStat_fields (s : State) :
    (ctxStat s).extractLsb' 3 5 = s.hbits ∧ (ctxStat s).extractLsb' 13 3 = s.faultCode.code ∧
    (ctxStat s).extractLsb' 16 13 = s.sigCount ∧ (ctxStat s).extractLsb' 29 35 = 0 := by
  refine ⟨?_, ?_, ?_, ?_⟩ <;>
  simp (disch := omega) only [ctxStat, BitVec.extractLsb'_append_eq_of_le, BitVec.extractLsb'_append_eq_of_add_le,
    Nat.reduceSub, BitVec.extractLsb'_eq_self, BitVec.ofNat_eq_ofNat]

/-- Settles O15: the fields, and the bits of the registers that are no numbers. -/
theorem ctxStatFieldLayout : Obligations.CtxStatFieldLayout := by
  intro s
  obtain ⟨hinit, hmode, hwsel, hbstate, hpending, hfinished, htail, hfault⟩ := ctxStat_bits s
  obtain ⟨hhbits, hcode, hcount, hzero⟩ := ctxStat_fields s
  refine ⟨hinit, ?_, ?_, hhbits, ?_, hpending, hfinished, htail, hfault, ?_, hcount, hzero⟩
  · rw [hmode]; cases s.mode <;> rfl
  · rw [hwsel]; cases s.wsel <;> rfl
  · rw [hbstate]; cases s.bstate <;> rfl
  · rw [hcode]; cases s.faultCode <;> rfl

/-- Settles O16: each field is cut out of the concatenation. -/
theorem paramsFieldLayout : Obligations.ParamsFieldLayout := by
  refine ⟨fun b => ⟨?_, ?_, ?_, ?_, ?_, ?_⟩, by decide⟩ <;>
  simp (disch := omega) only [params, BitVec.extractLsb'_append_eq_of_le, BitVec.extractLsb'_append_eq_of_add_le,
    Nat.reduceSub, BitVec.extractLsb'_eq_self, BitVec.ofNat_eq_ofNat]

end Sys2Proof.Machine
end

section
/-! SUPPORT. What a command reads and writes of the memories of R60: the observation commands write only the response
(10_state.md R69), OUT is appended to and never read (20_memory.md R66), and only the decode commands read IN (R67). -/

namespace Sys2Proof.Machine

variable {s t : State} {i : Instr}

/-! ### The block at another host -/

/-- The same block with another host's IN, OUT and response (R36, R37). -/
def State.withHost (s : State) (x out : List Byte) (r : Response) : State := { s with input := x, out := out, resp := r }

/-- The same block at another host: its IN is `x`, and in its OUT `pre` stands before what the block has written. -/
def State.rehost (s : State) (x pre : List Byte) : State := s.withHost x (pre ++ s.out) s.resp

/-- R60: the meaning answers at the host with IN `x` and `pre` before OUT as it does here. -/
def SameAtHost (f : State → Result) (s : State) (x pre : List Byte) : Prop :=
  ∃ t, f s = .next t ∧ f (s.rehost x pre) = .next (t.rehost x pre)

/-! ### Commands that write only the response -/

/-- R69: the meaning writes only the response, and reads neither it nor IN nor OUT. -/
def OnlyAnswers (f : State → Result) (s : State) : Prop :=
  ∃ r, ∀ x out before, f (s.withHost x out before) = .next (s.withHost x out r)

theorem OnlyAnswers.idempotent {f : State → Result} (h : OnlyAnswers f s) :
    ∃ r, f s = .next { s with resp := r } ∧ f { s with resp := r } = .next { s with resp := r } := by
  obtain ⟨r, hr⟩ := h
  exact ⟨r, hr s.input s.out s.resp, hr s.input s.out r⟩

theorem OnlyAnswers.sameAtHost {f : State → Result} (h : OnlyAnswers f s) (x pre : List Byte) : SameAtHost f s x pre := by
  obtain ⟨r, hr⟩ := h
  exact ⟨{ s with resp := r }, hr s.input s.out s.resp, hr x (pre ++ s.out) s.resp⟩

section
variable (s : State) (x out : List Byte) (before : Response)

theorem State.withHost_build : (s.withHost x out before).build = s.build := rfl
theorem State.withHost_init : (s.withHost x out before).init = s.init := rfl
theorem State.withHost_wsel : (s.withHost x out before).wsel = s.wsel := rfl
theorem State.withHost_dict : (s.withHost x out before).dict = s.dict := rfl
theorem State.withHost_hash (w : Word) : (s.withHost x out before).hash w = s.hash w := rfl
theorem bucketOk_withHost (b : BitVec 16) : bucketOk (s.withHost x out before) b = bucketOk s b := rfl
theorem rankOk_withHost (r : BitVec 8) : rankOk (s.withHost x out before) r = rankOk s r := rfl
theorem regValue_withHost (n : BitVec 8) : regValue (s.withHost x out before) n = regValue s n := rfl

theorem execNop_onlyAnswers : OnlyAnswers execNop s := ⟨⟨.ok, false, 0⟩, fun _ _ _ => rfl⟩

theorem execReadReg_onlyAnswers (n : BitVec 8) : OnlyAnswers (execReadReg n) s := by
  simp only [OnlyAnswers, execReadReg, regValue_withHost]
  cases regValue s n with
  | none => exact ⟨_, fun _ _ _ => rfl⟩
  | some v => exact ⟨_, fun _ _ _ => rfl⟩

theorem execHash_onlyAnswers (d : BitVec 64) : OnlyAnswers (execHash d) s := by
  simp only [OnlyAnswers, execHash, State.withHost_init, State.withHost_wsel, State.withHost_hash]
  cases firstError _ with
  | some e => exact ⟨_, fun _ _ _ => rfl⟩
  | none => exact ⟨_, fun _ _ _ => rfl⟩

theorem execDictRead_onlyAnswers (b : BitVec 16) (r : BitVec 8) : OnlyAnswers (execDictRead b r) s := by
  simp only [OnlyAnswers, execDictRead, State.withHost_init, State.withHost_dict, bucketOk_withHost, rankOk_withHost]
  cases firstError _ with
  | some e => exact ⟨_, fun _ _ _ => rfl⟩
  | none =>
    cases s.dict.ent b.toNat r.toNat with
    | some w => exact ⟨_, fun _ _ _ => rfl⟩
    | none => exact ⟨_, fun _ _ _ => rfl⟩

theorem execRankEnc_onlyAnswers (r : BitVec 8) : OnlyAnswers (execRankEnc r) s :=
  ⟨⟨.ok, true, rankEncResult (Build.code s.build r.toNat)⟩, fun _ _ _ => rfl⟩

theorem execRankDec_onlyAnswers (d : BitVec 64) : OnlyAnswers (execRankDec d) s := by
  simp only [OnlyAnswers, execRankDec, State.withHost_build]
  cases rankOfWindow s.build.codeTable (windowOperand d) with
  | none => exact ⟨_, fun _ _ _ => rfl⟩
  | some r => exact ⟨_, fun _ _ _ => rfl⟩

end

/-- Settles O55: none of the six reads the response it writes, so the second answer is the first. -/
theorem observationCommandsWriteOnlyTheResponse : Obligations.ObservationCommandsWriteOnlyTheResponse := by
  intro i s hi
  obtain rfl | ⟨n, rfl⟩ | ⟨d, rfl⟩ | ⟨b, r, rfl⟩ | ⟨r, rfl⟩ | ⟨d, rfl⟩ := hi
  · exact (execNop_onlyAnswers s).idempotent
  · exact (execReadReg_onlyAnswers s n).idempotent
  · exact (execHash_onlyAnswers s d).idempotent
  · exact (execDictRead_onlyAnswers s b r).idempotent
  · exact (execRankEnc_onlyAnswers s r).idempotent
  · exact (execRankDec_onlyAnswers s d).idempotent

/-! ### The operations at another host -/

section
variable (s : State) (x pre : List Byte)

/-! What the block computes from its state, but for its reads of IN, is the same at either host. -/

@[simp] theorem State.rehost_bstate : (s.rehost x pre).bstate = s.bstate := rfl
@[simp] theorem State.rehost_dict : (s.rehost x pre).dict = s.dict := rfl
@[simp] theorem State.rehost_hash (w : Word) : (s.rehost x pre).hash w = s.hash w := rfl
@[simp] theorem State.rehost_fits (n : Nat) : (s.rehost x pre).fits n = s.fits n := rfl
@[simp] theorem State.rehost_windowDue : (s.rehost x pre).windowDue = s.windowDue := rfl
@[simp] theorem State.rehost_gainTooSmall : (s.rehost x pre).gainTooSmall = s.gainTooSmall := rfl
@[simp] theorem State.rehost_serializeBlock : (s.rehost x pre).serializeBlock = s.serializeBlock := rfl
@[simp] theorem State.rehost_rebuild (p : ParsedBlock) : (s.rehost x pre).rebuild p = s.rebuild p := rfl

/-! With the same IN, so are its reads of IN. -/

@[simp] theorem State.rehost_cursor : (s.rehost s.input pre).cursor = s.cursor := rfl
@[simp] theorem State.rehost_parse : (s.rehost s.input pre).parse = s.parse := rfl

/-! Every operation commutes with the change of host. -/

@[simp] theorem State.rehost_respond (st : Status) (v : Bool) (r : BitVec 64) :
    (s.rehost x pre).respond st v r = (s.respond st v r).rehost x pre := rfl

@[simp] theorem State.rehost_declareEnd : (s.rehost x pre).declareEnd = s.declareEnd.rehost x pre := rfl

@[simp] theorem State.rehost_blockReset : (s.rehost x pre).blockReset = s.blockReset.rehost x pre := rfl

@[simp] theorem State.rehost_appendSignature (sig : Signature) :
    (s.rehost x pre).appendSignature sig = (s.appendSignature sig).rehost x pre := rfl

/-- R66: bytes appended behind OUT are appended behind any OUT that it continues. -/
@[simp] theorem State.rehost_outWrite (bytes : List Byte) :
    (s.rehost x pre).outWrite bytes = (s.outWrite bytes).rehost x pre := by
  simp only [State.outWrite, State.rehost, State.withHost, List.append_assoc]

@[simp] theorem State.rehost_writeTail (bytes : List Byte) :
    (s.rehost x pre).writeTail bytes = (s.writeTail bytes).rehost x pre := by
  rw [State.writeTail, State.rehost_outWrite]
  rfl

@[simp] theorem State.rehost_commit (p : ParsedBlock) (r : Replay) :
    (s.rehost s.input pre).commit p r = (s.commit p r).rehost s.input pre := by
  rw [State.commit, State.rehost_outWrite]
  rfl

@[simp] theorem State.rehost_copyTail (bytes : List Byte) :
    (s.rehost x pre).copyTail bytes = (s.copyTail bytes).rehost x pre := by
  rw [State.copyTail, State.rehost_outWrite]
  rfl

@[simp] theorem State.rehost_predict (w : Word) :
    (s.rehost x pre).predict w = ((s.predict w).1.rehost x pre, (s.predict w).2) := by
  simp only [State.predict, State.rehost_hash, State.rehost_dict]
  cases findRank (s.dict.list (s.hash w)) w <;> rfl

@[simp] theorem State.rehost_routeWord (w : Word) :
    (s.rehost x pre).routeWord w = ((s.routeWord w).1.rehost x pre, (s.routeWord w).2) := by
  simp only [State.routeWord, State.rehost_bstate, State.rehost_predict]
  cases s.bstate with
  | escaped => rfl
  | predicting =>
    obtain ⟨u, outcome⟩ := s.predict w
    cases outcome <;> rfl

@[simp] theorem State.rehost_windowCheck :
    (s.rehost x pre).windowCheck = (s.windowCheck.1.rehost x pre, s.windowCheck.2) := by
  unfold State.windowCheck
  rw [State.rehost_windowDue, State.rehost_gainTooSmall]
  cases s.windowDue && s.gainTooSmall <;> rfl

@[simp] theorem State.rehost_flushOrPend :
    (s.rehost x pre).flushOrPend = (s.flushOrPend.1.rehost x pre, s.flushOrPend.2) := by
  simp only [State.flushOrPend, State.rehost_serializeBlock, State.rehost_fits, State.rehost_outWrite,
    State.rehost_blockReset]
  split_ifs <;> rfl

@[simp] theorem State.rehost_closeWord (o : WordReport) (escNow : Bool) :
    (s.rehost x pre).closeWord o escNow = (s.closeWord o escNow).rehost x pre := by
  simp only [State.closeWord, State.rehost_flushOrPend, State.rehost_respond]
  unfold State.rehost State.withHost
  split_ifs <;> rfl

@[simp] theorem State.rehost_acceptWord (w : Word) :
    (s.rehost x pre).acceptWord w = (s.acceptWord w).rehost x pre := by
  simp only [State.acceptWord, State.rehost_routeWord, State.rehost_appendSignature, State.rehost_windowCheck,
    State.rehost_closeWord]

end

/-! ### A command at another host

In each meaning the change of host is carried outward, past what the meaning computes and past its operations; its
guards then read only what the two hosts share. -/

section
variable (s : State) (x pre : List Byte)

theorem execCtxInit_sameAtHost (m : Mode) (w : WordSel) (h : BitVec 5) (d : BitVec 64) :
    SameAtHost (execCtxInit m w h d) s x pre := by
  simp only [SameAtHost, execCtxInit]
  unfold State.rehost State.withHost
  cases firstError _ <;> exact ⟨_, rfl, rfl⟩

theorem execOutGrant_sameAtHost (d : BitVec 64) : SameAtHost (execOutGrant d) s x pre := by
  simp only [SameAtHost, execOutGrant]
  unfold State.rehost State.withHost
  cases firstError _ <;> exact ⟨_, rfl, rfl⟩

theorem execEncWord_sameAtHost (d : BitVec 64) : SameAtHost (execEncWord d) s x pre := by
  simp only [SameAtHost, execEncWord, State.rehost_acceptWord]
  unfold State.rehost State.withHost
  cases firstError _ <;> exact ⟨_, rfl, rfl⟩

theorem execEncFlush_sameAtHost : SameAtHost execEncFlush s x pre := by
  simp only [SameAtHost, execEncFlush, State.rehost_flushOrPend, State.rehost_serializeBlock]
  unfold State.rehost State.withHost
  cases firstError _ with
  | some e => exact ⟨_, rfl, rfl⟩
  | none => split_ifs <;> exact ⟨_, rfl, rfl⟩

theorem execEncFinish_sameAtHost : SameAtHost execEncFinish s x pre := by
  simp only [SameAtHost, execEncFinish, State.rehost_declareEnd, State.rehost_flushOrPend]
  unfold State.rehost State.withHost
  cases firstError _ with
  | some e => exact ⟨_, rfl, rfl⟩
  | none => split_ifs <;> exact ⟨_, rfl, rfl⟩

theorem execEncTail_sameAtHost (n : BitVec 3) (d : BitVec 64) : SameAtHost (execEncTail n d) s x pre := by
  simp only [SameAtHost, execEncTail, State.rehost_fits, State.rehost_writeTail]
  unfold State.rehost State.withHost
  cases firstError _ <;> exact ⟨_, rfl, rfl⟩

theorem execDecBlock_sameAtHost : SameAtHost execDecBlock s s.input pre := by
  simp only [SameAtHost, execDecBlock, State.rehost_parse, State.rehost_rebuild, State.rehost_fits,
    State.rehost_commit]
  unfold State.rehost State.withHost
  cases firstError _ with
  | some e => exact ⟨_, rfl, rfl⟩
  | none =>
    cases s.parse with
    | none => exact ⟨_, rfl, rfl⟩
    | some p =>
      dsimp only
      cases s.rebuild p with
      | none => exact ⟨_, rfl, rfl⟩
      | some r => dsimp only; split_ifs <;> exact ⟨_, rfl, rfl⟩

theorem execDecTail_sameAtHost : SameAtHost execDecTail s s.input pre := by
  simp only [SameAtHost, execDecTail, State.rehost_cursor, State.rehost_fits, State.rehost_copyTail]
  unfold State.rehost State.withHost
  cases firstError _ with
  | some e => exact ⟨_, rfl, rfl⟩
  | none =>
    cases takeBytes s.tailRem.toNat s.cursor.rest with
    | none => exact ⟨_, rfl, rfl⟩
    | some p => dsimp only; split_ifs <;> exact ⟨_, rfl, rfl⟩

/-- R60, R66, R67: a command answers the same at another host, where a decode command finds the same IN. -/
theorem exec_sameAtHost (i : Instr) (hin : i = .decBlock ∨ i = .decTail → x = s.input) :
    SameAtHost (exec i) s x pre := by
  cases i with
  | nop => exact (execNop_onlyAnswers s).sameAtHost x pre
  | ctxInit m w h d => exact execCtxInit_sameAtHost s x pre m w h d
  | outGrant d => exact execOutGrant_sameAtHost s x pre d
  | readReg n => exact (execReadReg_onlyAnswers s n).sameAtHost x pre
  | hash d => exact (execHash_onlyAnswers s d).sameAtHost x pre
  | dictRead b r => exact (execDictRead_onlyAnswers s b r).sameAtHost x pre
  | rankEnc r => exact (execRankEnc_onlyAnswers s r).sameAtHost x pre
  | rankDec d => exact (execRankDec_onlyAnswers s d).sameAtHost x pre
  | encWord d => exact execEncWord_sameAtHost s x pre d
  | encFlush => exact execEncFlush_sameAtHost s x pre
  | encFinish => exact execEncFinish_sameAtHost s x pre
  | encTail n d => exact execEncTail_sameAtHost s x pre n d
  | decBlock => exact hin (.inl rfl) ▸ execDecBlock_sameAtHost s pre
  | decTail => exact hin (.inr rfl) ▸ execDecTail_sameAtHost s pre

end

/-- Settles O56: the bytes are those the command writes where OUT is empty, and any other OUT stands before them. -/
theorem outIsAppendedAndNeverRead : Obligations.OutIsAppendedAndNeverRead := by
  intro i s
  obtain ⟨t, ht, -⟩ := exec_completes i { s with out := [] }
  refine ⟨{ t with input := s.input }, t.out, fun o => ?_⟩
  obtain ⟨u, hu, hexec⟩ := exec_sameAtHost { s with out := [] } s.input o i fun _ => rfl
  obtain rfl : u = t := Host.Outcome.next.inj (hu.symm.trans ht)
  simpa only [State.rehost, State.withHost, List.append_nil] using hexec

/-- R20, R35, R60: no command writes IN, the build, the port or the count of actions. -/
theorem Effect.host (e : Effect s i t) :
    t.input = s.input ∧ t.port = s.port ∧ t.tick = s.tick ∧ t.build = s.build := by
  have entered (w : Word) : (s.enterWord w).input = s.input ∧ (s.enterWord w).port = s.port ∧
      (s.enterWord w).tick = s.tick ∧ (s.enterWord w).build = s.build := by
    rw [enterWord_eq]
    exact ⟨rfl, rfl, rfl, rfl⟩
  cases e with
  | word _ _ _ _ _ _ eq | wordFlush _ _ _ _ _ _ eq | wordPend _ _ _ _ _ _ eq => exact eq ▸ entered _
  | _ => exact ⟨rfl, rfl, rfl, rfl⟩

/-- Settles O57: no effect writes the host's side, and a command that does not decode answers any IN as it answers this
one. -/
theorem onlyTheDecoderReadsInput : Obligations.OnlyTheDecoderReadsInput := by
  intro i s t h
  obtain ⟨hinput, hport, htick, hbuild⟩ := (exec_effect h).host
  refine ⟨hinput, hport, htick, hbuild, fun hblock htail x => ?_⟩
  obtain ⟨u, hu, hexec⟩ := exec_sameAtHost s x [] i fun hi => absurd hi (not_or.2 ⟨hblock, htail⟩)
  obtain rfl : u = t := Host.Outcome.next.inj (hu.symm.trans h)
  exact hexec

end Sys2Proof.Machine
end

section
/-! SUPPORT. The opcode map is a function of the command word (30_encoding.md R84), the decoder said once as the row a word
matches with that row's operands, and the fields of the formats (R82, R83). -/

namespace Sys2Proof

/-! ### The rows of the opcode map -/

theorem Mnemonic.mem_all (m : Mnemonic) : m ∈ Mnemonic.all := by
  cases m <;> decide

/-- R80, R84: the OPCODE of a row belongs to no other row. -/
theorem Mnemonic.eq_of_opcode_eq {m m' : Mnemonic} (h : opcodeOf m.pattern = opcodeOf m'.pattern) : m = m' := by
  have hnodup : (Mnemonic.all.map fun m => opcodeOf m.pattern).Nodup := by decide
  exact List.inj_on_of_nodup_map hnodup m.mem_all m'.mem_all h

/-- R84: every mask covers the whole OPCODE. -/
theorem opcodeOf_mask (m : Mnemonic) : opcodeOf m.mask = BitVec.allOnes 8 := by
  cases m <;> rfl

/-- R80, R84: a word that matches a row has the row's OPCODE. -/
theorem opcodeOf_of_matches {cmd : BitVec 32} {m : Mnemonic} (h : cmd &&& m.mask = m.pattern) :
    opcodeOf cmd = opcodeOf m.pattern :=
  calc opcodeOf cmd = opcodeOf cmd &&& opcodeOf m.mask := by rw [opcodeOf_mask, BitVec.and_allOnes]
    _ = opcodeOf (cmd &&& m.mask) := BitVec.extractLsb'_and.symm
    _ = opcodeOf m.pattern := by rw [h]

/-- R84: no two rows match one word. -/
theorem eq_of_matches {cmd : BitVec 32} {m m' : Mnemonic} (h : cmd &&& m.mask = m.pattern)
    (h' : cmd &&& m'.mask = m'.pattern) : m = m' :=
  Mnemonic.eq_of_opcode_eq ((opcodeOf_of_matches h).symm.trans (opcodeOf_of_matches h'))

/-! ### What the decoder answers -/

theorem Mnemonic.selects_iff (m : Mnemonic) (cmd : BitVec 32) : m.selects cmd = true ↔ cmd &&& m.mask = m.pattern :=
  decide_eq_true_iff

theorem matches_of_selectRow {cmd : BitVec 32} {m : Mnemonic} (h : selectRow cmd = some m) :
    cmd &&& m.mask = m.pattern := by
  have hsel := List.find?_some h
  exact (m.selects_iff cmd).1 hsel

/-- R84: the first row that matches is the one row that does. -/
theorem selectRow_eq_some_iff {cmd : BitVec 32} {m : Mnemonic} : selectRow cmd = some m ↔ cmd &&& m.mask = m.pattern := by
  refine ⟨matches_of_selectRow, fun h => ?_⟩
  cases hrow : selectRow cmd with
  | none => exact absurd ((m.selects_iff cmd).2 h) (List.find?_eq_none.1 hrow m m.mem_all)
  | some m' => rw [eq_of_matches (matches_of_selectRow hrow) h]

theorem selectRow_eq_none_iff {cmd : BitVec 32} : selectRow cmd = none ↔ ∀ m : Mnemonic, cmd &&& m.mask ≠ m.pattern := by
  simp only [Option.eq_none_iff_forall_ne_some, ne_eq, selectRow_eq_some_iff]

@[simp] theorem operandsOf_mnemonic (m : Mnemonic) (c : Command) : (operandsOf m c).mnemonic = m := by
  cases m <;> rfl

/-- R84: a word that matches a row decodes to the row's command with the operands it carries. -/
theorem decode_of_matches {c : Command} {m : Mnemonic} (h : c.cmd &&& m.mask = m.pattern) :
    decode c = .ok (operandsOf m c) := by
  rw [decode, selectRow_eq_some_iff.2 h]

/-- R86 (a), (b): a word that matches no row is rejected. -/
theorem decode_of_matches_no_row {c : Command} (h : ∀ m : Mnemonic, c.cmd &&& m.mask ≠ m.pattern) :
    decode c = .error (rejection c.cmd) := by
  rw [decode, selectRow_eq_none_iff.2 h]

/-- The inversion lemma of the decoder: the command is of the row its word matches, with the operands the word carries. -/
theorem decode_eq_ok_iff {c : Command} {i : Instr} :
    decode c = .ok i ↔ c.cmd &&& i.mnemonic.mask = i.mnemonic.pattern ∧ operandsOf i.mnemonic c = i := by
  constructor
  · intro h
    by_cases hrow : ∃ m : Mnemonic, c.cmd &&& m.mask = m.pattern
    · obtain ⟨m, hm⟩ := hrow
      obtain rfl : operandsOf m c = i := Except.ok.inj ((decode_of_matches hm).symm.trans h)
      exact ⟨by rwa [operandsOf_mnemonic], by rw [operandsOf_mnemonic]⟩
    · exact nomatch (decode_of_matches_no_row (not_exists.1 hrow)).symm.trans h
  · rintro ⟨hrow, hops⟩
    rw [decode_of_matches hrow, hops]

/-! ### The fields of the formats -/

/-- R82: MODE is ARG[9]. -/
theorem argMode_eq_iff {cmd : BitVec 32} {m : Mode} : argMode cmd = m ↔ m.bit = cmd.extractLsb' 9 1 := by
  rw [argMode, BitVec.getLsbD_eq_extractLsb']
  obtain h | h := BitVec.eq_zero_or_eq_one (cmd.extractLsb' 9 1) <;> rw [h] <;> cases m <;> decide

/-- R82: WSEL is ARG[8]. -/
theorem argWsel_eq_iff {cmd : BitVec 32} {w : WordSel} : argWsel cmd = w ↔ w.bit = cmd.extractLsb' 8 1 := by
  rw [argWsel, BitVec.getLsbD_eq_extractLsb']
  obtain h | h := BitVec.eq_zero_or_eq_one (cmd.extractLsb' 8 1) <;> rw [h] <;> cases w <;> decide

/-- R82, format C: MODE, WSEL and HBITS stand where the decoder reads them. -/
theorem encodeCmd_ctxInit_fields (m : Mode) (w : WordSel) (h : BitVec 5) (d : BitVec 64) :
    argMode (encodeCmd (.ctxInit m w h d)) = m ∧ argWsel (encodeCmd (.ctxInit m w h d)) = w ∧
    argHbits (encodeCmd (.ctxInit m w h d)) = h := by
  rw [argMode_eq_iff, argWsel_eq_iff, argHbits]
  refine ⟨?_, ?_, ?_⟩ <;>
  simp (disch := omega) only [encodeCmd, BitVec.extractLsb'_append_eq_of_le, BitVec.extractLsb'_append_eq_of_add_le,
    Nat.reduceSub, BitVec.extractLsb'_eq_self]

/-- R82, format D: BUCKET and RANK stand where the decoder reads them. -/
theorem encodeCmd_dictRead_fields (b : BitVec 16) (r : BitVec 8) :
    argBucket (encodeCmd (.dictRead b r)) = b ∧ argByte (encodeCmd (.dictRead b r)) = r := by
  rw [argBucket, argByte]
  refine ⟨?_, ?_⟩ <;>
  simp (disch := omega) only [encodeCmd, BitVec.extractLsb'_append_eq_of_le, BitVec.extractLsb'_append_eq_of_add_le,
    Nat.reduceSub, BitVec.extractLsb'_eq_self]

/-- R82, R83: the operands of an encoded command, read back from its words. -/
theorem operandsOf_encode (i : Instr) : operandsOf i.mnemonic (encode i) = i := by
  cases i with
  | ctxInit m w h d =>
    obtain ⟨hmode, hwsel, hhbits⟩ := encodeCmd_ctxInit_fields m w h d
    simp only [Instr.mnemonic, operandsOf, encode, encodeData, hmode, hwsel, hhbits]
  | dictRead b r =>
    obtain ⟨hbucket, hrank⟩ := encodeCmd_dictRead_fields b r
    exact congrArg₂ Instr.dictRead hbucket hrank
  | readReg n => exact congrArg Instr.readReg BitVec.extractLsb'_append_eq_right
  | rankEnc r => exact congrArg Instr.rankEnc BitVec.extractLsb'_append_eq_right
  | encTail n d => exact congrArg (Instr.encTail · d) BitVec.extractLsb'_append_eq_right
  | nop | outGrant | hash | rankDec | encWord | encFlush | encFinish | decBlock | decTail => rfl

/-- R84: every encoded command matches the row it belongs to. -/
theorem encodeCmd_matches (i : Instr) : encodeCmd i &&& i.mnemonic.mask = i.mnemonic.pattern :=
  match i with
  | .nop => Laws.EncodeSelectsRow.nop
  | .ctxInit m w h d => Laws.EncodeSelectsRow.ctxInit m w h d
  | .outGrant d => Laws.EncodeSelectsRow.outGrant d
  | .readReg n => Laws.EncodeSelectsRow.readReg n
  | .hash d => Laws.EncodeSelectsRow.hash d
  | .dictRead b r => Laws.EncodeSelectsRow.dictRead b r
  | .rankEnc r => Laws.EncodeSelectsRow.rankEnc r
  | .rankDec d => Laws.EncodeSelectsRow.rankDec d
  | .encWord d => Laws.EncodeSelectsRow.encWord d
  | .encFlush => Laws.EncodeSelectsRow.encFlush
  | .encFinish => Laws.EncodeSelectsRow.encFinish
  | .encTail n d => Laws.EncodeSelectsRow.encTail n d
  | .decBlock => Laws.EncodeSelectsRow.decBlock
  | .decTail => Laws.EncodeSelectsRow.decTail

/-! ### The statements about the encoding -/

/-- Settles O1: the encoded word matches the command's row, and its fields are the operands. -/
theorem decodeOfEncodedInstruction : Obligations.DecodeOfEncodedInstruction :=
  fun i => decode_eq_ok_iff.2 ⟨encodeCmd_matches i, operandsOf_encode i⟩

/-- Settles O2: the table is the model's by evaluation; the OPCODE tells the rows apart. -/
theorem commandWordSelectsItsRow : Obligations.CommandWordSelectsItsRow := by
  refine ⟨rfl, fun c m h => ?_, fun c i h => ?_, fun cmd m m' => eq_of_matches⟩
  · exact ⟨operandsOf m c, decode_of_matches h, operandsOf_mnemonic m c⟩
  · exact (decode_eq_ok_iff.1 h).1

/-- Settles O3: a decoded command carries its row's fields, format by format. -/
theorem operandsAreTheFieldsOfArg : Obligations.OperandsAreTheFieldsOfArg := by
  intro c i h
  have hops := (decode_eq_ok_iff.1 h).2
  refine ⟨?ctxInit, ?readReg, ?dictRead, ?rankEnc, ?encTail, ?data⟩
  case ctxInit =>
    rintro m w hb d rfl
    obtain ⟨hmode, hwsel, hhbits, hdata⟩ := Instr.ctxInit.inj hops
    exact ⟨argMode_eq_iff.1 hmode, argWsel_eq_iff.1 hwsel, hhbits.symm, hdata.symm⟩
  case readReg =>
    rintro n rfl
    exact (Instr.readReg.inj hops).symm
  case dictRead =>
    rintro b r rfl
    obtain ⟨hbucket, hrank⟩ := Instr.dictRead.inj hops
    exact ⟨hbucket.symm, hrank.symm⟩
  case rankEnc =>
    rintro r rfl
    exact (Instr.rankEnc.inj hops).symm
  case encTail =>
    rintro n d rfl
    obtain ⟨hn, hdata⟩ := Instr.encTail.inj hops
    exact ⟨hn.symm, hdata.symm⟩
  case data =>
    rintro d (rfl | rfl | rfl | rfl)
    · exact (Instr.outGrant.inj hops).symm
    · exact (Instr.hash.inj hops).symm
    · exact (Instr.rankDec.inj hops).symm
    · exact (Instr.encWord.inj hops).symm

end Sys2Proof
end

section
/-! SUPPORT. Every action of the host completes (30_encoding.md R81; 60_exceptions.md R261), and an illegal command word
completes with ILLEGAL_COMMAND (R86, R265 steps 1 and 3). -/

namespace Sys2Proof.Machine

variable {s : State} {c : Command} {i : Instr}

/-! ### A command word that decodes, and one that does not -/

theorem runCommand_of_ok (h : decode c = .ok i) (s : State) : runCommand c s = exec i s := by
  rw [runCommand, h]

theorem runCommand_of_error {e : DecodeError} (h : decode c = .error e) (s : State) :
    runCommand c s = .next (s.raise .illegalCommand) := by
  rw [runCommand, h]

theorem runAction_completes (a : HostAction) (s : State) : ∃ t, runAction a s = .next t := by
  cases a with
  | issue c =>
    cases hd : decode c with
    | error e => exact ⟨_, runCommand_of_error hd s⟩
    | ok i =>
      obtain ⟨t, ht, -⟩ := exec_completes i s
      exact ⟨t, (runCommand_of_ok hd s).trans ht⟩
  | present bytes => exact ⟨_, rfl⟩
  | hardReset => exact ⟨_, rfl⟩

/-- Settles O7: the block waits, or the action at the head of the port completes. -/
theorem everyStepCompletes : Obligations.EveryStepCompletes := by
  intro s
  cases hp : s.port with
  | nil => exact ⟨s, step_idle hp⟩
  | cons a rest =>
    obtain ⟨t, ht⟩ := runAction_completes a (s.taken rest)
    exact ⟨t, (step_of_port hp).trans ht⟩

/-! ### Fields out of range -/

/-- R38: a number above 0x0E names no register. -/
theorem regValue_eq_none {n : BitVec 8} (h : regnoOk n = false) (s : State) : regValue s n = none := by
  rw [regnoOk, decide_eq_false_iff_not] at h
  rw [regValue]
  split
  any_goals omega
  rfl

/-- R86 (c), R265 step 1: a field out of range for the command word alone is answered in every state. -/
theorem exec_of_not_wellFormed (h : i.wellFormed s.build = false) : exec i s = .next (s.raise .illegalCommand) := by
  cases i with
  | ctxInit m w hb d =>
    obtain ⟨-, e⟩ | ⟨low, high, -⟩ := execCtxInit_cases m w hb d s
    · exact e
    · exact absurd (by simpa [Instr.wellFormed, hbitsOk, high] using h) low
  | readReg n =>
    obtain ⟨-, e⟩ | ⟨v, hv, -⟩ := execReadReg_cases n s
    · exact e
    · exact nomatch hv.symm.trans (regValue_eq_none h s)
  | encTail n d =>
    have hn : n = 0 := by simpa [Instr.wellFormed, tailOk] using h
    simp [exec, execEncTail, hn]
  | nop | outGrant | hash | dictRead | rankEnc | rankDec | encWord | encFlush | encFinish | decBlock | decTail =>
    exact nomatch h

/-- R86 (c), R265 step 3: a field out of its range in the context is answered in a context, before the later checks. -/
theorem exec_of_outOfContext (hi : s.init = true) (h : i.outOfContext s = true) :
    exec i s = .next (s.raise .illegalCommand) := by
  cases i with
  | dictRead b r =>
    have hrange : (!bucketOk s b || !rankOk s r) = true := by
      simpa [Instr.outOfContext, bucketOk, rankOk] using h
    simp [exec, execDictRead, hi, hrange]
  | encTail n d =>
    have hn : wordBytes s.wsel ≤ n.toNat := of_decide_eq_true h
    simp [exec, execEncTail, hi, hn]
  | nop | ctxInit | outGrant | readReg | hash | rankEnc | rankDec | encWord | encFlush | encFinish | decBlock | decTail =>
    exact nomatch h

/-- Settles O4: each of the three conditions gives the one answer, in the state in which the command has left the port. -/
theorem illegalCommandWordIsAnswered : Obligations.IllegalCommandWordIsAnswered := by
  intro s c rest hp hillegal
  have hanswer : runCommand c (s.taken rest) = .next ((s.taken rest).raise .illegalCommand) := by
    obtain hrow | ⟨i, hd, hwf⟩ | ⟨i, hd, hi, hctx⟩ := hillegal
    · exact runCommand_of_error (decode_of_matches_no_row hrow) _
    · exact (runCommand_of_ok hd _).trans (exec_of_not_wellFormed hwf)
    · exact (runCommand_of_ok hd _).trans (exec_of_outOfContext hi hctx)
  exact (step_of_port hp).trans hanswer

end Sys2Proof.Machine
end

section
/-! SUPPORT. The hash engine (40_hash.md): the bucket as the top bits of the product (R110), what it depends on (R111), and
the answer of HASH (R112). -/

namespace Sys2Proof.Machine

variable {s : State} {b b' : Build}

/-! ### The hash function -/

/-- R110 for 4-byte words, as the spec writes it; the bits of the word above 31 are cut off first (R111). -/
theorem hashOf_w4 (b : Build) (hb x : Nat) :
    hashOf b .w4 hb x = (x % 2 ^ 32 * b.mult32.toNat % 2 ^ 32) >>> (32 - hb) :=
  calc hashOf b .w4 hb x
    _ = hashOf b .w4 hb (x % 2 ^ 32) := (hashOf_mod b .w4 hb x).symm
    _ = (x % 2 ^ 32 * b.mult32.toNat % 2 ^ 32) >>> (32 - hb) := (Nat.shiftRight_eq_div_pow _ _).symm

/-- R110 for 8-byte words, as the spec writes it. -/
theorem hashOf_w8 (b : Build) (hb x : Nat) :
    hashOf b .w8 hb x = (x * b.mult64.toNat % 2 ^ 64) >>> (64 - hb) :=
  (Nat.shiftRight_eq_div_pow _ _).symm

/-- R111: "hash(0) = 0 for every parameter". -/
@[simp] theorem hashOf_zero (b : Build) (w : WordSel) (hb : Nat) : hashOf b w hb 0 = 0 := by
  rw [hashOf, Nat.zero_mul, Nat.zero_mod, Nat.zero_div]

/-- R110: HB is at most 16, and a word has at least 32 bits. -/
theorem le_wordBits_of_le_sixteen {hb : Nat} (h : hb ≤ 16) (w : WordSel) : hb ≤ wordBits w := by
  have hW : 16 ≤ wordBits w := by cases w <;> decide
  exact h.trans hW

theorem multiplier_congr (h32 : b.mult32 = b'.mult32) (h64 : b.mult64 = b'.mult64) (w : WordSel) :
    multiplier b w = multiplier b' w := by
  cases w with
  | w4 => exact congrArg BitVec.toNat h32
  | w8 => exact congrArg BitVec.toNat h64

/-- R111: of the build, the hash reads only the multipliers. -/
theorem hashOf_congr (h32 : b.mult32 = b'.mult32) (h64 : b.mult64 = b'.mult64) (w : WordSel) (hb x : Nat) :
    hashOf b w hb x = hashOf b' w hb x := by
  rw [hashOf, hashOf, multiplier_congr h32 h64]

/-- Settles O18: range, zero, high bits and purity are each a fact about `hashOf`. -/
theorem hashIsPureAndStaysInTheTable : Obligations.HashIsPureAndStaysInTheTable := by
  refine ⟨fun b w hb x hle => ?range, fun s s' x hw hh h32 h64 => ?pure⟩
  case range =>
    exact ⟨hashOf_lt b w hb x (le_wordBits_of_le_sixteen hle w), hashOf_zero b w hb, hashOf_mod b w hb x⟩
  case pure =>
    rw [State.hash, State.hash, hw, hh]
    exact hashOf_congr h32 h64 _ _ _

/-! ### The command HASH -/

/-- R111, R112: cutting DATA to the word operand does not change its bucket. -/
theorem State.hash_wordOperand (s : State) (d : BitVec 64) :
    s.hash (wordOperand s.wsel d) = hashOf s.build s.wsel s.hbits.toNat d.toNat := by
  rw [State.hash, wordOperand_toNat, hashOf_mod]

theorem exec_hash_of_not_init (hi : s.init = false) (d : BitVec 64) :
    exec (.hash d) s = .next (s.raise .wrongState) := by
  obtain ⟨-, hanswer⟩ | ⟨hi', -⟩ := execHash_cases d s
  · exact hanswer
  · exact absurd hi' (by simp [hi])

theorem exec_hash_of_init (hi : s.init = true) (d : BitVec 64) :
    exec (.hash d) s =
      .next (s.respond .ok true (BitVec.ofNat 64 (hashOf s.build s.wsel s.hbits.toNat d.toNat))) := by
  obtain ⟨hi', -⟩ | ⟨-, hanswer⟩ := execHash_cases d s
  · exact absurd hi' (by simp [hi])
  · rw [← s.hash_wordOperand d]
    exact hanswer

/-- Settles O17: the bucket of DATA with W and MULT of the word width; for 4-byte words DATA[63:32] is cut off. -/
theorem hashAnswersTheBucket : Obligations.HashAnswersTheBucket := by
  intro s d
  refine ⟨fun hi hw => ?w4, fun hi hw => ?w8, fun hi => exec_hash_of_not_init hi d⟩
  case w4 =>
    have hanswer := exec_hash_of_init hi d
    rw [hw, hashOf_w4] at hanswer
    exact hanswer
  case w8 =>
    have hanswer := exec_hash_of_init hi d
    rw [hw, hashOf_w8] at hanswer
    exact hanswer

end Sys2Proof.Machine
end

section
/-! SUPPORT. The dictionary (41_dictionary.md): the entries by rank after a promotion (R122) and an insertion (R123), the
replay of a prediction (R125), and the answer of DICT_READ (R128). -/

namespace Sys2Proof.Machine

variable {s : State} {m : Memory} {l : List Word} {b r i depth : Nat} {w : Word}

/-! ### The entry at a rank -/

theorem Memory.ent_eq_none_iff : m.ent b r = none ↔ m.occ b ≤ r := List.getElem?_eq_none_iff

theorem Memory.lt_occ_of_ent (h : m.ent b r = some w) : r < m.occ b := (List.getElem?_eq_some_iff.1 h).1

/-! ### Promotion -/

theorem promoteList_getElem?_zero (h : r < l.length) : (promoteList l r)[0]? = l[r]? := by
  rw [promoteList_of_get l r _ (List.getElem?_eq_getElem h), List.getElem?_cons_zero, List.getElem?_eq_getElem h]

/-- R122: the other ranks are those of the list without the promoted entry, one further back. -/
theorem promoteList_getElem?_succ (h : r < l.length) (i : Nat) : (promoteList l r)[i + 1]? = (l.eraseIdx r)[i]? := by
  rw [promoteList_of_get l r _ (List.getElem?_eq_getElem h), List.getElem?_cons_succ]

theorem Memory.occ_promote (hm : m.wf) (b r : Nat) : (m.promote b r).occ b = m.occ b :=
  (Memory.list_promote_perm hm b r b).length_eq

theorem Memory.ent_promote_zero (hm : m.wf) (hr : r < m.occ b) : (m.promote b r).ent b 0 = m.ent b r := by
  rw [Memory.ent, m.list_promote_same b r hm]
  exact promoteList_getElem?_zero hr

/-- R122: a rank that the promoted entry was behind holds the entry of the rank before it. -/
theorem Memory.ent_promote_succ_of_lt (hm : m.wf) (hr : r < m.occ b) (hi : i < r) :
    (m.promote b r).ent b (i + 1) = m.ent b i := by
  rw [Memory.ent, m.list_promote_same b r hm, promoteList_getElem?_succ hr, List.getElem?_eraseIdx_of_lt hi, Memory.ent]

/-- R122: a rank behind that of the promoted entry keeps its own. -/
theorem Memory.ent_promote_succ_of_ge (hm : m.wf) (hr : r < m.occ b) (hi : r ≤ i) :
    (m.promote b r).ent b (i + 1) = m.ent b (i + 1) := by
  rw [Memory.ent, m.list_promote_same b r hm, promoteList_getElem?_succ hr, List.getElem?_eraseIdx_of_ge hi, Memory.ent]

/-- Settles O19: the ranks 1 and up are split at r, where the list without the promoted entry closes its gap. -/
theorem promotionMovesToFront : Obligations.PromotionMovesToFront := by
  intro m b r hm hr
  refine ⟨Memory.ent_promote_zero hm hr, ?ahead, ?behind, Memory.occ_promote hm b r,
    m.list_promote_other b r, m.wf_promote b r hm⟩
  case ahead =>
    intro i hi hir
    obtain ⟨j, rfl⟩ := Nat.exists_eq_add_of_le' hi
    exact Memory.ent_promote_succ_of_lt hm hr hir
  case behind =>
    intro i hri
    obtain ⟨j, rfl⟩ := Nat.exists_eq_add_of_le' (Nat.one_le_of_lt hri)
    exact Memory.ent_promote_succ_of_ge hm hr (Nat.le_of_lt_succ hri)

/-! ### Insertion -/

theorem Memory.ent_insert_zero (m : Memory) (depth b : Nat) (w : Word) : (m.insert depth b w).ent b 0 = some w := by
  rw [Memory.ent, m.list_insert_same, insertList, List.getElem?_cons_zero]

/-- R123: a rank that the bucket has room for holds the entry of the rank before it. -/
theorem Memory.ent_insert_succ (hi : i + 1 < depth) : (m.insert depth b w).ent b (i + 1) = m.ent b i := by
  rw [Memory.ent, m.list_insert_same, insertList, List.getElem?_cons_succ,
    List.getElem?_take_of_lt (Nat.lt_sub_of_add_lt hi), Memory.ent]

/-- R123: a full bucket keeps its occupancy, since its oldest entry is not among the older ones kept. -/
theorem Memory.occ_insert (hd : 1 ≤ depth) : (m.insert depth b w).occ b = min (m.occ b + 1) depth := by
  rw [Memory.occ, m.list_insert_same, insertList_length, Memory.occ]
  omega

/-- Settles O20: the list is the word and then the first DEPTH - 1 entries that were there. -/
theorem insertionEvictsTheOldest : Obligations.InsertionEvictsTheOldest := by
  intro m depth b w hm hd _
  refine ⟨m.ent_insert_zero depth b w, ?older, Memory.occ_insert hd, m.list_insert_other depth b w,
    m.wf_insert depth b w hm⟩
  intro i hi hid
  obtain ⟨j, rfl⟩ := Nat.exists_eq_add_of_le' hi
  exact Memory.ent_insert_succ hid

/-! ### The replay of a prediction -/

theorem replayHit_of_ent (h : m.ent b r = some w) : m.replayHit b r = some (w, m.promote b r) := by
  rw [Memory.replayHit, h]

/-- Settles O22: `predict` hits at the rank that `find` gives, where the bucket holds the word that `replay_hit` then
reads, and it misses only a word that `find` does not see. -/
theorem replayMirrorsPrediction : Obligations.ReplayMirrorsPrediction := by
  intro s t w _
  obtain ⟨r, hfind, hpredict⟩ | ⟨hfind, hpredict⟩ := predict_cases s w
  case inl =>
    rw [hpredict]
    refine ⟨fun b r' h => ?_, fun b h => (nomatch h)⟩
    obtain ⟨rfl, houtcome⟩ := Prod.mk.inj h
    obtain ⟨rfl, rfl⟩ := Prediction.hit.inj houtcome
    exact ⟨rfl, replayHit_of_ent (findRank_some _ w r hfind), rfl⟩
  case inr =>
    rw [hpredict]
    refine ⟨fun b r h => (nomatch h), fun b h => ?_⟩
    obtain ⟨rfl, houtcome⟩ := Prod.mk.inj h
    obtain rfl := Prediction.miss.inj houtcome
    exact ⟨rfl, (findRank_none _ w).1 hfind, rfl, rfl⟩

/-! ### The command DICT_READ -/

section
variable {bucket : BitVec 16} {rank : BitVec 8}

theorem exec_dictRead_of_not_init (hi : s.init = false) (bucket : BitVec 16) (rank : BitVec 8) :
    exec (.dictRead bucket rank) s = .next (s.raise .wrongState) := by
  simp [exec, execDictRead, hi]

/-- R83, R128: a bucket and a rank that are both in range raise no error in a context. -/
theorem exec_dictRead_of_inRange (hi : s.init = true) (hb : bucket.toNat < 2 ^ s.hbits.toNat)
    (hr : rank.toNat < s.build.depth.toNat) :
    (∃ w, s.dict.ent bucket.toNat rank.toNat = some w ∧
      exec (.dictRead bucket rank) s = .next (s.respond .ok true w)) ∨
    (s.dict.ent bucket.toNat rank.toNat = none ∧
      exec (.dictRead bucket rank) s = .next (s.respond .ok false (BitVec.ofNat 64 (s.dict.occ bucket.toNat)))) := by
  have hbucket : bucketOk s bucket = true := decide_eq_true hb
  have hrank : rankOk s rank = true := decide_eq_true hr
  cases hent : s.dict.ent bucket.toNat rank.toNat with
  | some w => exact .inl ⟨w, rfl, by simp [exec, execDictRead, hi, hbucket, hrank, hent]⟩
  | none => exact .inr ⟨rfl, by simp [exec, execDictRead, hi, hbucket, hrank, hent]⟩

end

/-- Settles O21: outside its range DICT_READ is answered by step 3 of R265; inside it, whether the rank holds an entry is
whether it is below OCC. -/
theorem dictReadAnswersTheEntry : Obligations.DictReadAnswersTheEntry := by
  intro s b r
  refine ⟨fun hi => exec_dictRead_of_not_init hi b r, fun hi hout => ?outOfRange, fun hi hb hr => ?inRange⟩
  case outOfRange =>
    have hctx : (Instr.dictRead b r).outOfContext s = true := by simpa [Instr.outOfContext] using hout
    exact exec_of_outOfContext hi hctx
  case inRange =>
    obtain ⟨w, hent, hanswer⟩ | ⟨hent, hanswer⟩ := exec_dictRead_of_inRange hi hb hr
    · have hocc : r.toNat < s.dict.occ b.toNat := Memory.lt_occ_of_ent hent
      exact ⟨fun _ => ⟨w, hent, hanswer⟩, fun hle => absurd hocc (Nat.not_lt.2 hle)⟩
    · have hocc : s.dict.occ b.toNat ≤ r.toNat := Memory.ent_eq_none_iff.1 hent
      exact ⟨fun hlt => absurd hlt (Nat.not_lt.2 hocc), fun _ => hanswer⟩

end Sys2Proof.Machine
end

section
/-! SUPPORT. The rank codec (42_rank_codec.md): the answers of RANK_ENC (R146) and RANK_DEC (R147), a code read back bit by bit
(R144, R145), and the Kraft inequality of a table with T2 and T3 (R142). -/

namespace Sys2Proof.Machine

variable {s : State} {t : List Code} {c d : Code} {r v : Nat}

/-! ### The layout of the results -/

theorem toNat_append_eq_add {m n : Nat} (x : BitVec m) (y : BitVec n) : (x ++ y).toNat = x.toNat * 2 ^ n + y.toNat := by
  rw [BitVec.toNat_append, ← Nat.shiftLeft_add_eq_or_of_lt y.isLt, Nat.shiftLeft_eq]

/-- R146: the fields lie side by side, so their concatenation is the sum the rule's bit positions give. -/
theorem rankEncResult_eq (c : Code) :
    rankEncResult c = BitVec.ofNat 64 (c.length.toNat * 2 ^ 16 + c.pattern.toNat) := by
  have hlength := c.length.isLt
  have hpattern := c.pattern.isLt
  apply BitVec.eq_of_toNat_eq
  simp only [rankEncResult, toNat_append_eq_add, BitVec.toNat_ofNat]
  omega

/-- R147: the same for a rank of 8 bits. -/
theorem rankDecResult_eq (c : Code) (hr : r < 256) :
    rankDecResult c r = BitVec.ofNat 64 (c.length.toNat * 2 ^ 16 + r) := by
  have hlength := c.length.isLt
  apply BitVec.eq_of_toNat_eq
  simp only [rankDecResult, toNat_append_eq_add, BitVec.toNat_ofNat]
  omega

/-! ### RANK_ENC -/

/-- Settles O25: by T1 the table has an entry at every 8-bit rank, and the answer is that entry's. -/
theorem rankEncAnswersTheCode : Obligations.RankEncAnswersTheCode := by
  intro s r ht
  have hr : r.toNat < s.build.codeTable.length := ht ▸ r.isLt
  refine ⟨s.build.codeTable[r.toNat], List.getElem?_eq_getElem hr, ?_⟩
  rw [← rankEncResult_eq, ← code_eq_getElem s.build r.toNat hr]
  exact execRankEnc_eq r s

/-! ### A code read back -/

/-- Every cursor within its byte is a position of the bytes it holds. -/
theorem Cursor.posAt_rest_bit (c : Cursor) (hc : c.bit < 8) : posAt c.rest c.bit = c := by
  rw [posAt, Nat.div_eq_of_lt hc, Nat.mod_eq_of_lt hc, List.drop_zero]

/-- Where a bit is left to read, the position is not past the end. -/
theorem Cursor.bit_le_of_bits_ne_nil (c : Cursor) (h : c.bits ≠ []) : c.bit ≤ 8 * c.rest.length := by
  rw [c.bits_eq, Ne, List.drop_eq_nil_iff, bitsOf_length] at h
  omega

/-- R141 T2: a code has at least 3 bits. -/
theorem rankBits_ne_nil (b : Build) (ht : tableLegal b.codeTable) (hr : r < 256) : rankBits b r ≠ [] := by
  obtain ⟨hT1, hT2, -⟩ := ht
  have hr' : r < b.codeTable.length := hT1 ▸ hr
  obtain ⟨hmin, -⟩ := hT2 _ (List.getElem_mem hr')
  rw [← code_eq_getElem b r hr', ← rankBits_length] at hmin
  exact List.ne_nil_of_length_pos (Nat.lt_of_lt_of_le (by decide) hmin)

/-- Settles O27: the cursor is a position of its own bytes, where `decodeRank_posAt` says what the decoder reads. -/
theorem rankCodeReadsBack : Obligations.RankCodeReadsBack := by
  intro b r c more ht hr hc hbits
  have hne : c.bits ≠ [] := by simp [hbits, rankBits_ne_nil b ht hr]
  have hcode : BitsAt c.rest c.bit (rankBits b r) := ⟨more, hbits.symm⟩
  have hread := (decodeRank_posAt b ht c.rest c.bit (c.bit_le_of_bits_ne_nil hne) r _).2 ⟨hr, hcode, rfl⟩
  rw [c.posAt_rest_bit hc] at hread
  refine ⟨_, hread, ?_, Nat.mod_lt _ (by decide)⟩
  rw [posAt_bits, ← List.drop_drop, ← c.bits_eq, hbits, List.drop_left]

/-! ### The windows that a code begins -/

/-- R147: the code of `c` is the first bits of the 11-bit window v. -/
abbrev BeginsWindow (c : Code) (v : Nat) : Prop := v / 2 ^ (Config.maxCodeLen - c.length.toNat) = c.pattern.toNat

theorem rankOfWindow_eq_none_iff {v : BitVec 11} : rankOfWindow t v = none ↔ ∀ c ∈ t, ¬BeginsWindow c v.toNat := by
  simp [rankOfWindow, List.findIdx?_eq_none_iff]

/-- R141 T3: of two codes that begin one window, the shorter is the initial part of the longer. -/
theorem startsWith_of_beginsWindow (hle : c.length.toNat ≤ d.length.toNat) (hd : d.length.toNat ≤ Config.maxCodeLen)
    (hcv : BeginsWindow c v) (hdv : BeginsWindow d v) : startsWith c d = true := by
  have hsplit : Config.maxCodeLen - c.length.toNat =
      (Config.maxCodeLen - d.length.toNat) + (d.length.toNat - c.length.toNat) := by omega
  have hpattern : d.pattern.toNat / 2 ^ (d.length.toNat - c.length.toNat) = c.pattern.toNat := by
    rw [← hdv, ← hcv, Nat.div_div_eq_div_mul, ← Nat.pow_add, ← hsplit]
  simp [startsWith, hle, hpattern]

/-- R145: no window is begun by two codes of which neither is the initial part of the other. -/
theorem not_beginsWindow_of_apart (hapart : startsWith c d = false ∧ startsWith d c = false)
    (hc : c.length.toNat ≤ Config.maxCodeLen) (hd : d.length.toNat ≤ Config.maxCodeLen) (hcv : BeginsWindow c v) :
    ¬BeginsWindow d v := by
  intro hdv
  obtain ⟨hcd, hdc⟩ := hapart
  rcases Nat.le_total c.length.toNat d.length.toNat with hle | hle
  · exact Bool.false_ne_true (hcd ▸ startsWith_of_beginsWindow hle hd hcv hdv)
  · exact Bool.false_ne_true (hdc ▸ startsWith_of_beginsWindow hle hc hdv hcv)

/-- R147: "exists r" of the rule has at most one answer, so the first entry that matches is the one given. -/
theorem rankOfWindow_eq_some (hT2 : tableT2 t) (hT3 : tableT3 t) {v : BitVec 11} (hr : t[r]? = some c)
    (hcv : BeginsWindow c v.toNat) : rankOfWindow t v = some r := by
  obtain ⟨hlt, rfl⟩ := List.getElem?_eq_some_iff.1 hr
  have hlen : ∀ k (hk : k < t.length), t[k].length.toNat ≤ Config.maxCodeLen :=
    fun k hk => (hT2 _ (List.getElem_mem hk)).2.1
  refine List.findIdx?_eq_some_iff_getElem.2 ⟨hlt, decide_eq_true hcv, fun k hk hkv => ?_⟩
  have hk' : k < t.length := hk.trans hlt
  have hapart := List.pairwise_iff_getElem.1 hT3 k r hk' hlt hk
  exact not_beginsWindow_of_apart hapart (hlen k hk') (hlen r hlt) (of_decide_eq_true hkv) hcv

/-! ### RANK_DEC -/

theorem windowOperand_toNat (data : BitVec 64) : (windowOperand data).toNat = data.toNat % 2 ^ 11 := by
  simp [windowOperand]

/-- R147 writes the window's first bits as a right shift. -/
theorem beginsWindow_windowOperand_iff (c : Code) (data : BitVec 64) :
    BeginsWindow c (windowOperand data).toNat ↔ (data.toNat % 2 ^ 11) >>> (11 - c.length.toNat) = c.pattern.toNat := by
  rw [BeginsWindow, windowOperand_toNat, Nat.shiftRight_eq_div_pow]

theorem exec_rankDec_of_some {data : BitVec 64} (h : rankOfWindow s.build.codeTable (windowOperand data) = some r) :
    exec (.rankDec data) s = .next (s.respond .ok true (rankDecResult (Build.code s.build r) r)) := by
  obtain ⟨hnone, -⟩ | ⟨r', hsome, hanswer⟩ := execRankDec_cases data s
  · exact absurd (h.symm.trans hnone) nofun
  · obtain rfl : r' = r := Option.some.inj (hsome.symm.trans h)
    exact hanswer

theorem exec_rankDec_of_none {data : BitVec 64} (h : rankOfWindow s.build.codeTable (windowOperand data) = none) :
    exec (.rankDec data) s = .next (s.raise .corruptStream) := by
  obtain ⟨-, hanswer⟩ | ⟨_, hsome, -⟩ := execRankDec_cases data s
  · exact hanswer
  · exact absurd (h.symm.trans hsome) nofun

/-- Settles O26: the entry that begins the window is the one found, and where none does, none is found. -/
theorem rankDecAnswersTheRank : Obligations.RankDecAnswersTheRank := by
  rintro s data ⟨hT1, hT2, hT3, -⟩
  refine ⟨fun r c hr hv => ?found, fun hv => ?noMatch⟩
  case found =>
    obtain ⟨hlt, rfl⟩ := List.getElem?_eq_some_iff.1 hr
    have hfound := rankOfWindow_eq_some hT2 hT3 hr ((beginsWindow_windowOperand_iff _ data).2 hv)
    rw [exec_rankDec_of_some hfound, code_eq_getElem s.build r hlt, rankDecResult_eq _ (hlt.trans_eq hT1)]
    rfl
  case noMatch =>
    refine exec_rankDec_of_none (rankOfWindow_eq_none_iff.2 fun c hc hcv => ?_)
    exact hv c hc ((beginsWindow_windowOperand_iff c data).1 hcv)

/-! ### The Kraft inequality -/

/-- The 11-bit windows that some code of the table begins. -/
def coveredWindows (t : List Code) : Finset Nat :=
  (Finset.range (2 ^ Config.maxCodeLen)).filter fun v => ∃ c ∈ t, BeginsWindow c v

theorem card_coveredWindows_le (t : List Code) : (coveredWindows t).card ≤ 2 ^ Config.maxCodeLen :=
  (Finset.card_filter_le _ _).trans_eq (Finset.card_range _)

/-- R142: a code of length L begins the 2^(11 - L) windows that fill it up to 11 bits. -/
theorem card_coveredWindows_singleton (hlen : c.length.toNat ≤ Config.maxCodeLen)
    (hpattern : c.pattern.toNat < 2 ^ c.length.toNat) :
    (coveredWindows [c]).card = 2 ^ (Config.maxCodeLen - c.length.toNat) := by
  have hpos : 0 < 2 ^ (Config.maxCodeLen - c.length.toNat) := Nat.two_pow_pos _
  have hfit : (c.pattern.toNat + 1) * 2 ^ (Config.maxCodeLen - c.length.toNat) ≤ 2 ^ Config.maxCodeLen :=
    calc (c.pattern.toNat + 1) * 2 ^ (Config.maxCodeLen - c.length.toNat)
      _ ≤ 2 ^ c.length.toNat * 2 ^ (Config.maxCodeLen - c.length.toNat) := Nat.mul_le_mul_right _ hpattern
      _ = 2 ^ Config.maxCodeLen := by rw [← Nat.pow_add, Nat.add_sub_cancel' hlen]
  have hrange : coveredWindows [c] = Finset.Ico (c.pattern.toNat * 2 ^ (Config.maxCodeLen - c.length.toNat))
      ((c.pattern.toNat + 1) * 2 ^ (Config.maxCodeLen - c.length.toNat)) := by
    ext v
    rw [Nat.succ_mul] at hfit ⊢
    simp only [coveredWindows, Finset.mem_filter, Finset.mem_range, List.mem_singleton, exists_eq_left, BeginsWindow,
      Nat.div_eq_iff hpos, Finset.mem_Ico]
    omega
  rw [hrange, Nat.card_Ico, Nat.succ_mul, Nat.add_sub_cancel_left]

theorem coveredWindows_cons (c : Code) (t : List Code) : coveredWindows (c :: t) = coveredWindows [c] ∪ coveredWindows t := by
  simp [coveredWindows, Finset.filter_or]

/-- R142: by T3 the windows that the codes of a table begin are disjoint, so their numbers add up to the Kraft sum. -/
theorem card_coveredWindows (hT2 : tableT2 t) (hT3 : tableT3 t) :
    (coveredWindows t).card = (t.map fun c => 2 ^ (Config.maxCodeLen - c.length.toNat)).sum := by
  induction t with
  | nil => simp [coveredWindows]
  | cons c t ih =>
    obtain ⟨⟨-, hlen, hpattern⟩, hT2'⟩ := List.forall_mem_cons.1 hT2
    obtain ⟨hapart, hT3'⟩ := List.pairwise_cons.1 hT3
    have hdisjoint : Disjoint (coveredWindows [c]) (coveredWindows t) := by
      refine Finset.disjoint_filter.2 fun v _ hcv ⟨d, hd, hdv⟩ => ?_
      obtain ⟨-, hlend, -⟩ := hT2' d hd
      simp only [List.mem_singleton, exists_eq_left] at hcv
      exact not_beginsWindow_of_apart (hapart d hd) hlen hlend hcv hdv
    rw [coveredWindows_cons, Finset.card_union_of_disjoint hdisjoint, card_coveredWindows_singleton hlen hpattern,
      ih hT2' hT3', List.map_cons, List.sum_cons]

/-- R142: where every window has an entry, every window is covered. -/
theorem coveredWindows_eq_range (h : ∀ v : BitVec 11, rankOfWindow t v ≠ none) :
    coveredWindows t = Finset.range (2 ^ Config.maxCodeLen) := by
  refine Finset.filter_true_of_mem fun v hv => ?_
  have hlt : v < 2 ^ 11 := Finset.mem_range.1 hv
  have hsome := h (BitVec.ofNat 11 v)
  rw [Ne, rankOfWindow_eq_none_iff, BitVec.toNat_ofNat, Nat.mod_eq_of_lt hlt] at hsome
  push Not at hsome
  exact hsome

/-- Settles O28: the Kraft sum counts the covered windows, of which there are at most 2048; if none is left over, the count
is 2048. -/
theorem prefixFreeTableMeetsKraft : Obligations.PrefixFreeTableMeetsKraft := by
  intro t hT2 hT3
  rw [← card_coveredWindows hT2 hT3]
  refine ⟨card_coveredWindows_le t, ?_⟩
  by_cases hnone : ∃ v : BitVec 11, rankOfWindow t v = none
  · exact .inl hnone
  · rw [coveredWindows_eq_range (not_exists.1 hnone), Finset.card_range]
    exact .inr rfl

end Sys2Proof.Machine
end

section
/-! SUPPORT. The signature and block manager (43_block_manager.md): an accepted word up to its signature (R161 to R163), the
window check (R164 to R166), the end of a word and the flush (R168 to R173), and the answers of ENC_WORD, ENC_FLUSH (R174),
ENC_FINISH (R175) and ENC_TAIL (R176). -/

namespace Sys2Proof.Machine

variable {s t u : State} {i : Instr} {w : Word} {d : BitVec 64} {r : Nat} {o : WordReport}

/-! ### The result word -/

/-- Settles O34: each field is cut out of the concatenation. -/
theorem resultWordFields : Obligations.ResultWordFields := by
  intro o escNow flushed
  refine ⟨?accepted, ?signature, ?escNow, ?flushed, ?reserved, ?rank, ?bucket, ?high⟩
  case accepted | escNow | flushed =>
    simp only [resultWord, BitVec.getLsbD_append]
    simp
  case signature =>
    have hcode : (resultWord o escNow flushed).extractLsb' 1 2 = o.sig.code := by
      simp (disch := omega) only [resultWord, BitVec.extractLsb'_append_eq_of_le,
        BitVec.extractLsb'_append_eq_of_add_le, Nat.reduceSub, BitVec.extractLsb'_eq_self]
    rw [hcode]
    cases o.sig <;> rfl
  case reserved | rank | bucket | high =>
    simp (disch := omega) only [resultWord, BitVec.extractLsb'_append_eq_of_le, BitVec.extractLsb'_append_eq_of_add_le,
      Nat.reduceSub, BitVec.extractLsb'_eq_self, BitVec.ofNat_eq_ofNat]

/-- R177: the fields lie side by side, so their concatenation is the sum the rule's bit positions give. -/
theorem resultWord_eq (hbucket : o.bucket < 2 ^ 16) (hrank : o.rank < 2 ^ 8) (escNow flushed : Bool) :
    resultWord o escNow flushed = BitVec.ofNat 64 (o.bucket * 2 ^ 16 + o.rank * 2 ^ 8 + flushed.toNat * 2 ^ 4 +
      escNow.toNat * 2 ^ 3 + o.sig.code.toNat * 2 + 1) := by
  have hcode := o.sig.code.isLt
  have hesc := escNow.toNat_lt
  have hflushed := flushed.toNat_lt
  apply BitVec.eq_of_toNat_eq
  simp only [resultWord, toNat_append_eq_add, BitVec.toNat_ofNat, BitVec.toNat_ofBool]
  omega

theorem resultWord_hit {b : Nat} (hbucket : b < 2 ^ 16) (hrank : r < 2 ^ 8) :
    resultWord ⟨.hit, r, b⟩ false false = BitVec.ofNat 64 (b * 2 ^ 16 + r * 2 ^ 8 + 3) := by
  rw [resultWord_eq hbucket hrank]
  simp [Signature.code]

theorem resultWord_miss {b : Nat} (hbucket : b < 2 ^ 16) :
    resultWord ⟨.miss, 0, b⟩ false false = BitVec.ofNat 64 (b * 2 ^ 16 + 1) := by
  rw [resultWord_eq hbucket (Nat.two_pow_pos 8)]
  simp [Signature.code]

theorem resultWord_esc : resultWord ⟨.esc, 0, 0⟩ false false = 5 := by decide

/-! ### The bucket, bytes and counters of a word -/

/-- R110, R177: a bucket fits RESULT's field. -/
theorem hash_lt_of_hbits_le_sixteen (hhb : s.hbits.toNat ≤ 16) (w : Word) : s.hash w < 2 ^ 16 :=
  (hashOf_lt _ _ _ _ (le_wordBits_of_le_sixteen hhb s.wsel)).trans_le (Nat.pow_le_pow_right Nat.two_pos hhb)

/-- R62: the n bytes of a value depend only on its 8n low bits. -/
theorem leBytes_mod (n v : Nat) : leBytes n (v % 256 ^ n) = leBytes n v := by
  rw [← leValue_leBytes]
  simpa using leBytes_leValue (leBytes n v)

/-- R83, R91: the literal of a word is the WB low bytes of DATA. -/
theorem wordLe_wordOperand (w : WordSel) (d : BitVec 64) :
    wordLe w (wordOperand w d) = leBytes (wordBytes w) d.toNat := by
  rw [wordLe, wordOperand_toNat, wordBits_eq, leBytes_mod]

/-- R62: byte i of a value is its bits from 8i on. -/
theorem leBytes_eq_map_shiftRight (n v : Nat) :
    leBytes n v = (List.range n).map fun i => BitVec.ofNat 8 (v >>> (8 * i)) := by
  induction n generalizing v with
  | zero => rfl
  | succ n ih =>
    have hshift (i : Nat) : v >>> (8 * (i + 1)) = (v / 256) >>> (8 * i) := by
      rw [Nat.mul_succ, Nat.add_comm, Nat.shiftRight_add, Nat.shiftRight_eq_div_pow v 8]
    simp only [leBytes, ih, List.range_succ_eq_map, List.map_cons, List.map_map, Function.comp_def, Nat.succ_eq_add_one,
      hshift]
    rfl

/-- R83, R176: byte i of the tail is DATA[8i+7:8i]. -/
theorem tailOperand_eq_map (n : BitVec 3) (d : BitVec 64) :
    tailOperand n d = (List.range n.toNat).map fun i => d.extractLsb' (8 * i) 8 := leBytes_eq_map_shiftRight _ _

/-- R29: a counter below its maximum is counted up by one. -/
theorem satAdd_one_of_lt {n : Nat} {x : BitVec n} (h : x.toNat + 1 < 2 ^ n) : satAdd x 1 = x + 1 := by
  rw [satAdd, if_pos h, BitVec.ofNat_add, BitVec.ofNat_toNat, BitVec.setWidth_eq]
  rfl

/-! ### An accepted word up to its signature -/

theorem routeWord_of_escaped (hb : s.bstate = .escaped) (w : Word) :
    s.routeWord w = (s.appendEscaped w, ⟨.esc, 0, 0⟩) := by
  simp only [State.routeWord, hb]

theorem routeWord_of_hit (hb : s.bstate = .predicting) (hr : findRank (s.dict.list (s.hash w)) w = some r) :
    s.routeWord w = ({ s with
        dict := s.dict.promote (s.hash w) r
        lastb := BitVec.ofNat 16 (s.hash w)
        predBuf := s.predBuf ++ hitMarker s.hbits.toNat (s.hash w) s.lastb.toNat
        rankBuf := s.rankBuf ++ rankBits s.build r }, ⟨.hit, r, s.hash w⟩) := by
  simp only [State.routeWord, State.predict, State.appendHit, hb, hr]

theorem routeWord_of_miss (hb : s.bstate = .predicting) (hw : w ∉ s.dict.list (s.hash w)) :
    s.routeWord w = ({ s with
        dict := s.dict.insert s.build.depth.toNat (s.hash w) w
        lastb := BitVec.ofNat 16 (s.hash w)
        dictBuf := s.dictBuf ++ bitsMsb s.hbits.toNat (s.hash w)
        encBuf := s.encBuf ++ wordLe s.wsel w }, ⟨.miss, 0, s.hash w⟩) := by
  simp only [State.routeWord, State.predict, State.appendMiss, hb, (findRank_none _ w).2 hw]

/-- R87, R163: the code 01. -/
theorem appendSignature_hit (s : State) : s.appendSignature .hit =
    { s with
      sigBuf := s.sigBuf ++ [false, true], sigCount := satAdd s.sigCount 1, blkHits := satAdd s.blkHits 1
      wordCnt := satAdd s.wordCnt 1 } := rfl

/-- R87, R163: the code 00. -/
theorem appendSignature_miss (s : State) : s.appendSignature .miss =
    { s with
      sigBuf := s.sigBuf ++ [false, false], sigCount := satAdd s.sigCount 1, blkMisses := satAdd s.blkMisses 1
      wordCnt := satAdd s.wordCnt 1 } := rfl

/-- R87, R163: the code 10. -/
theorem appendSignature_esc (s : State) : s.appendSignature .esc =
    { s with
      sigBuf := s.sigBuf ++ [true, false], sigCount := satAdd s.sigCount 1, blkEscs := satAdd s.blkEscs 1
      wordCnt := satAdd s.wordCnt 1 } := rfl

/-- R161 to R163: the word has gone to the streams and its signature is appended; the window check and the end of the
word are still to come. -/
def State.signWord (s : State) (w : Word) : State := (s.routeWord w).1.appendSignature (s.routeWord w).2.sig

/-- R161: after the signature come the window check and the end of the word. -/
theorem acceptWord_of_windowCheck {escNow : Bool} (h : (s.signWord w).windowCheck = (u, escNow)) :
    s.acceptWord w = u.closeWord (s.routeWord w).2 escNow := by
  rw [acceptWord_eq, State.enterWord, ← State.signWord, h]

theorem enterWord_eq_signWord (s : State) (w : Word) : s.enterWord w = (s.signWord w).windowCheck.1 := rfl

@[simp] theorem signWord_build (s : State) (w : Word) : (s.signWord w).build = s.build := by
  rw [State.signWord, routeWord_eq]; rfl
@[simp] theorem signWord_wsel (s : State) (w : Word) : (s.signWord w).wsel = s.wsel := by
  rw [State.signWord, routeWord_eq]; rfl
@[simp] theorem signWord_bstate (s : State) (w : Word) : (s.signWord w).bstate = s.bstate := by
  rw [State.signWord, routeWord_eq]; rfl
@[simp] theorem signWord_sigCount (s : State) (w : Word) : (s.signWord w).sigCount = satAdd s.sigCount 1 := by
  rw [State.signWord, routeWord_eq]; rfl
@[simp] theorem signWord_escEvents (s : State) (w : Word) : (s.signWord w).escEvents = s.escEvents := by
  rw [State.signWord, routeWord_eq]; rfl
@[simp] theorem signWord_blkCnt (s : State) (w : Word) : (s.signWord w).blkCnt = s.blkCnt := by
  rw [State.signWord, routeWord_eq]; rfl
@[simp] theorem signWord_out (s : State) (w : Word) : (s.signWord w).out = s.out := by
  rw [State.signWord, routeWord_eq]; rfl
@[simp] theorem signWord_outPos (s : State) (w : Word) : (s.signWord w).outPos = s.outPos := by
  rw [State.signWord, routeWord_eq]; rfl
@[simp] theorem signWord_outAvail (s : State) (w : Word) : (s.signWord w).outAvail = s.outAvail := by
  rw [State.signWord, routeWord_eq]; rfl

theorem signWord_sigCount_toNat (h : s.sigCount.toNat ≤ 4095) (w : Word) :
    (s.signWord w).sigCount.toNat = s.sigCount.toNat + 1 := by
  rw [signWord_sigCount, satAdd_toNat_of_lt _ _ (by omega)]

/-! ### The window check -/

theorem windowDue_iff (s : State) : s.windowDue = true ↔
    s.bstate = .predicting ∧ s.sigCount.toNat % 256 = 0 ∧ s.sigCount.toNat < 4096 := by
  simp only [State.windowDue, Bool.and_eq_true, decide_eq_true_eq, and_assoc]

/-- R165, R166: consumed and produced, counted with the word that is signed. -/
theorem signWord_gainTooSmall_iff (h : s.sigCount.toNat ≤ 4095) (w : Word) : (s.signWord w).gainTooSmall = true ↔
    s.build.escNum.toNat * (8 * wordBytes s.wsel * (s.sigCount.toNat + 1)) ≤
      s.build.escDen.toNat * (s.signWord w).prodBits := by
  rw [State.gainTooSmall, decide_eq_true_iff, signWord_build, signWord_wsel, signWord_sigCount_toNat h]

theorem windowCheck_of_escape (hdue : s.windowDue = true) (hgain : s.gainTooSmall = true) :
    s.windowCheck = ({ s with bstate := .escaped, escEvents := satAdd s.escEvents 1 }, true) := by
  simp [State.windowCheck, hdue, hgain]

theorem windowCheck_of_not_due (hdue : ¬s.windowDue = true) : s.windowCheck = (s, false) := by
  simp [State.windowCheck, hdue]

theorem windowCheck_of_gain (hgain : ¬s.gainTooSmall = true) : s.windowCheck = (s, false) := by
  simp [State.windowCheck, hgain]

/-- R164: the signature that brings the block to 4096 is followed by no window check. -/
theorem signWord_windowCheck_of_full (hc : s.sigCount.toNat = 4095) (w : Word) :
    (s.signWord w).windowCheck = (s.signWord w, false) := by
  refine windowCheck_of_not_due fun hdue => ?_
  obtain ⟨-, -, hlt⟩ := (windowDue_iff _).1 hdue
  rw [signWord_sigCount_toNat hc.le] at hlt
  omega

/-- R167: no window check ends the escape. -/
theorem enterWord_bstate_of_escaped (hb : s.bstate = .escaped) (w : Word) : (s.enterWord w).bstate = .escaped := by
  rw [enterWord_eq_signWord]
  obtain ⟨-, -, e⟩ | ⟨-, e⟩ := windowCheck_cases (s.signWord w) <;> rw [e]
  exact (signWord_bstate s w).trans hb

/-! ### The flush and the end of a word -/

theorem flushOrPend_of_fits (h : s.serializeBlock.length ≤ s.outAvail.toNat) :
    s.flushOrPend = ((s.outWrite s.serializeBlock).blockReset, true) := by
  simp [State.flushOrPend, State.fits, h]

theorem flushOrPend_of_overflow (h : s.outAvail.toNat < s.serializeBlock.length) :
    s.flushOrPend = ({ s with flushPending := true }, false) := by
  simp [State.flushOrPend, State.fits, Nat.not_le.2 h]

/-- R196, R197: a serialized block has its header at least. -/
theorem State.serializeBlock_length_pos (s : State) : 0 < s.serializeBlock.length := by
  rw [serializeBlock_length]
  omega

theorem closeWord_of_room (h : s.sigCount.toNat ≠ 4096) (o : WordReport) (escNow : Bool) :
    s.closeWord o escNow = s.respond .ok true (resultWord o escNow false) := by
  simp [State.closeWord, h]

theorem closeWord_of_full (h : s.sigCount.toNat = 4096) (o : WordReport) (escNow : Bool) :
    s.closeWord o escNow = if s.flushOrPend.2 then s.flushOrPend.1.respond .ok true (resultWord o escNow true)
      else s.flushOrPend.1.respond .outputOverflow true (resultWord o escNow false) := by
  simp only [State.closeWord, h, if_true]

/-- R161: an accepted word after which the block is not full. -/
theorem acceptWord_of_room {escNow : Bool} (h : (s.signWord w).windowCheck = (u, escNow))
    (hroom : u.sigCount.toNat ≠ 4096) :
    s.acceptWord w = u.respond .ok true (resultWord (s.routeWord w).2 escNow false) :=
  (acceptWord_of_windowCheck h).trans (closeWord_of_room hroom _ _)

/-! ### ENC_WORD -/

theorem exec_encWord_of_ready (ready : EncReady s) (d : BitVec 64) :
    exec (.encWord d) s = .next (s.acceptWord (wordOperand s.wsel d)) := by
  obtain ⟨hi, hf, hm, hfin, hp⟩ := ready
  simp [exec, execEncWord, hi, hf, hm, hfin, hp]

/-- R161: a word that neither has a window check nor completes the block ends with its signature and the answer. -/
theorem exec_encWord_of_not_due (ready : EncReady s) (hc : s.sigCount.toNat < 4095)
    (hdue : ¬(s.bstate = .predicting ∧ (s.sigCount.toNat + 1) % 256 = 0))
    (hroute : s.routeWord (wordOperand s.wsel d) = (u, o)) :
    exec (.encWord d) s = .next ((u.appendSignature o.sig).respond .ok true (resultWord o false false)) := by
  have hcount := signWord_sigCount_toNat hc.le (wordOperand s.wsel d)
  have hno : ¬(s.signWord (wordOperand s.wsel d)).windowDue = true := by
    rw [windowDue_iff, signWord_bstate, hcount]
    exact fun ⟨hb, hmod, _⟩ => hdue ⟨hb, hmod⟩
  rw [exec_encWord_of_ready ready, acceptWord_of_room (windowCheck_of_not_due hno) (by omega),
    State.signWord, hroute]

/-- Settles O29: the word's bucket is below 2^16, so that RESULT is the sum of its fields. -/
theorem encWordHit : Obligations.EncWordHit := by
  intro s d r ready hb hhb hr hfind hmod hc
  have hbucket := hash_lt_of_hbits_le_sixteen hhb (wordOperand s.wsel d)
  rw [exec_encWord_of_not_due ready hc (fun h => hmod h.2) (routeWord_of_hit hb hfind),
    appendSignature_hit, resultWord_hit hbucket hr, ← satAdd_one_of_lt (by omega)]
  rfl

/-- Settles O30: the word's bucket is below 2^16, and its literal is the low bytes of DATA. -/
theorem encWordMiss : Obligations.EncWordMiss := by
  intro s d ready hb hhb hw hmod hc
  have hbucket := hash_lt_of_hbits_le_sixteen hhb (wordOperand s.wsel d)
  rw [exec_encWord_of_not_due ready hc (fun h => hmod h.2) (routeWord_of_miss hb hw),
    appendSignature_miss, resultWord_miss hbucket, ← satAdd_one_of_lt (by omega), ← wordLe_wordOperand]
  rfl

/-- Settles O31: an escaped word has no window check. -/
theorem encWordEscaped : Obligations.EncWordEscaped := by
  intro s d ready hb hc
  rw [exec_encWord_of_not_due ready hc (fun h => nomatch hb.symm.trans h.1) (routeWord_of_escaped hb _),
    appendSignature_esc, resultWord_esc, ← satAdd_one_of_lt (by omega), ← wordLe_wordOperand]
  rfl

/-- Settles O32: at the boundary the check is due, and it sets ESCAPED exactly where the gain is too small. -/
theorem encWordAtWindowBoundary : Obligations.EncWordAtWindowBoundary := by
  intro s u d ready hb hmod hc hu
  obtain rfl : u = s.signWord (wordOperand s.wsel d) := hu
  have hcount := signWord_sigCount_toNat hc.le (wordOperand s.wsel d)
  have hroom : (s.signWord (wordOperand s.wsel d)).sigCount.toNat ≠ 4096 := by omega
  have hdue : (s.signWord (wordOperand s.wsel d)).windowDue = true := by
    rw [windowDue_iff, signWord_bstate, hcount]
    exact ⟨hb, hmod, by omega⟩
  have hgain := signWord_gainTooSmall_iff hc.le (wordOperand s.wsel d)
  rw [exec_encWord_of_ready ready]
  refine ⟨fun hle => ?escapes, fun hlt => ?predicts⟩
  case escapes =>
    rw [acceptWord_of_room (windowCheck_of_escape hdue (hgain.2 hle)) hroom, signWord_escEvents]
    rfl
  case predicts =>
    have hno : ¬(s.signWord (wordOperand s.wsel d)).gainTooSmall = true := fun h => Nat.not_le.2 hlt (hgain.1 h)
    rw [acceptWord_of_room (windowCheck_of_gain hno) hroom]
    rfl

/-- Settles O33: a full block has no window check, and the flush answers for both sides of the capacity. -/
theorem encWordCompletesBlock : Obligations.EncWordCompletesBlock := by
  intro s u d ready hc hu
  obtain rfl : u = s.signWord (wordOperand s.wsel d) := hu
  have hfull : (s.signWord (wordOperand s.wsel d)).sigCount.toNat = 4096 := by
    rw [signWord_sigCount_toNat hc.le, hc]
  rw [exec_encWord_of_ready ready, acceptWord_of_windowCheck (signWord_windowCheck_of_full hc _),
    closeWord_of_full hfull, ← signWord_outAvail s (wordOperand s.wsel d), ← signWord_out s (wordOperand s.wsel d),
    ← signWord_outPos s (wordOperand s.wsel d), ← signWord_blkCnt s (wordOperand s.wsel d)]
  refine ⟨fun hfits => ?flushed, fun hover => ?pended⟩
  case flushed =>
    rw [flushOrPend_of_fits hfits]
    rfl
  case pended =>
    rw [flushOrPend_of_overflow hover]
    rfl

/-! ### The escape -/

@[simp] theorem enterWord_blkCnt (s : State) (w : Word) : (s.enterWord w).blkCnt = s.blkCnt := by rw [enterWord_eq]
@[simp] theorem enterWord_out (s : State) (w : Word) : (s.enterWord w).out = s.out := by rw [enterWord_eq]

/-- R170: what a flush leaves of the block and of OUT. -/
theorem flushed_block (s : State) {bytes : List Byte} (hbytes : 0 < bytes.length) :
    (s.outWrite bytes).blockReset.sigCount = 0 ∧ (s.outWrite bytes).blockReset.flushPending = false ∧
    (s.outWrite bytes).blockReset.blkCnt = satAdd s.blkCnt 1 ∧
    s.out.length < (s.outWrite bytes).blockReset.out.length := by
  simpa using hbytes

/-- Settles O39: of the effects on an escaped block only a new context and a flush set BSTATE to PREDICTING. -/
theorem escapedIsLeftOnlyByAFlush : Obligations.EscapedIsLeftOnlyByAFlush := by
  intro i s t hs h ht
  cases exec_effect h with
  | context => exact .inl rfl
  | word d u _ _ _ _ entered | wordPend d u _ _ _ _ entered =>
    have hu : u.bstate = .escaped := entered ▸ enterWord_bstate_of_escaped hs _
    exact nomatch hu.symm.trans ht
  | wordFlush d u _ _ _ _ entered =>
    have hflushed := flushed_block u u.serializeBlock_length_pos
    rw [entered, enterWord_blkCnt, enterWord_out, ← entered] at hflushed
    exact .inr hflushed
  | flush => exact .inr (flushed_block s s.serializeBlock_length_pos)
  | finishFlush => exact .inr (flushed_block s.declareEnd s.serializeBlock_length_pos)
  | _ => exact nomatch hs.symm.trans ht

/-- Settles O40: the literals alone are as long as the words consumed. -/
theorem allMissesEscape : Obligations.AllMissesEscape := by
  intro s t d hreg hblk ready hb hc hmisses hw h
  have hconsumed : 8 * wordBytes s.wsel * (s.sigCount.toNat + 1) ≤ (s.signWord (wordOperand s.wsel d)).prodBits := by
    have hlits : (s.signWord (wordOperand s.wsel d)).encBuf.length = s.encBuf.length + wordBytes s.wsel := by
      rw [State.signWord, routeWord_of_miss hb hw, State.appendSignature_encBuf, List.length_append, wordLe_length]
    have hesc : s.blkEscs.toNat = 0 := by rw [hblk.noEscape ready.mode hb]; rfl
    rw [State.prodBits, hlits, hblk.encBuf ready.mode, hc, hmisses, hesc]
    omega
  obtain ⟨escapes, -⟩ := encWordAtWindowBoundary s _ d ready hb (by omega) (by omega) rfl
  obtain rfl := Host.Outcome.next.inj ((escapes (Nat.mul_le_mul hreg.legal.escape.2 hconsumed)).symm.trans h)
  exact ⟨rfl, rfl⟩

/-! ### A pending flush -/

section
variable (hi : s.init = true) (hf : s.fault = false) (hm : s.mode = .enc) (hp : s.flushPending = true)
include hi hf hm hp

theorem exec_encWord_of_pending (hfin : s.finished = false) (d : BitVec 64) :
    exec (.encWord d) s = .next (s.raise .outputOverflow) := by
  simp [exec, execEncWord, hi, hf, hm, hp, hfin]

theorem exec_encFinish_of_pending (hfin : s.finished = false) :
    exec .encFinish s = .next (s.raise .outputOverflow) := by
  simp [exec, execEncFinish, hi, hf, hm, hp, hfin]

theorem exec_encFlush_of_pending : exec .encFlush s =
    .next (if s.flushOrPend.2 then s.flushOrPend.1.respond .ok true (BitVec.ofNat 64 s.serializeBlock.length)
      else s.flushOrPend.1.respond .outputOverflow false (BitVec.ofNat 64 s.serializeBlock.length)) := by
  cases hflushed : s.flushOrPend.2 <;> simp [exec, execEncFlush, hi, hf, hm, hp, hflushed]

end

/-- R176, R265: the checks of ENC_TAIL up to the last two, on the pending flush and on the capacity. -/
theorem exec_encTail_of_finished {n : BitVec 3} (hn : n ≠ 0) (hwb : n.toNat < wordBytes s.wsel) (hi : s.init = true)
    (hf : s.fault = false) (hm : s.mode = .enc) (hfin : s.finished = true) (htail : s.tailDone = false)
    (d : BitVec 64) : exec (.encTail n d) s = if s.flushPending || !s.fits n.toNat then .next (s.raise .outputOverflow)
      else .next ((s.writeTail (tailOperand n d)).respond .ok true (BitVec.ofNat 64 n.toNat)) := by
  have hn' : n ≠ 0#3 := hn
  cases hp : s.flushPending <;> cases hfits : s.fits n.toNat <;>
    simp [exec, execEncTail, hn', Nat.not_le.2 hwb, hi, hf, hm, hfin, htail, hp, hfits]

/-- Settles O35: the refusals are step 6 of R265, and of the writers of FLUSH_PENDING only these two clear it. -/
theorem pendingFlushRefusesTheEncoder : Obligations.PendingFlushRefusesTheEncoder := by
  refine ⟨fun s d hi hf hm hp => ⟨fun hfin => ⟨?word, ?finish⟩, fun n hfin htail hn hwb => ?tail⟩,
    fun i s t hs h ht => ?cleared⟩
  case word => exact exec_encWord_of_pending hi hf hm hp hfin d
  case finish => exact exec_encFinish_of_pending hi hf hm hp hfin
  case tail =>
    rw [exec_encTail_of_finished hn hwb hi hf hm hfin htail, if_pos (by rw [hp, Bool.true_or])]
    rfl
  case cleared =>
    cases hctx : i.isCtxInit with
    | true => exact .inr rfl
    | false =>
      obtain hkept | ⟨hset, -⟩ | ⟨-, hflush⟩ := (exec_effect h).flushPending hctx
      · exact nomatch ht.symm.trans (hkept.trans hs)
      · exact nomatch ht.symm.trans hset
      · exact .inl hflush

/-! ### ENC_FLUSH -/

theorem exec_encFlush_of_not_init (hi : s.init = false) : exec .encFlush s = .next (s.raise .wrongState) := by
  simp [exec, execEncFlush, hi]

theorem exec_encFlush_of_fault (hi : s.init = true) (hf : s.fault = true) :
    exec .encFlush s = .next (s.raise .faulted) := by
  simp [exec, execEncFlush, hi, hf]

theorem exec_encFlush_of_dec (hi : s.init = true) (hf : s.fault = false) (hm : s.mode = .dec) :
    exec .encFlush s = .next (s.raise .wrongState) := by
  simp [exec, execEncFlush, hi, hf, hm]

theorem exec_encFlush_of_not_pending (hi : s.init = true) (hf : s.fault = false) (hm : s.mode = .enc)
    (hp : s.flushPending = false) : exec .encFlush s = .next (s.respond .ok false 0) := by
  simp [exec, execEncFlush, hi, hf, hm, hp]

/-- Settles O36: pending again a flush that is pending changes nothing. -/
theorem encFlushRetriesThePendingBlock : Obligations.EncFlushRetriesThePendingBlock := by
  refine fun s => ⟨exec_encFlush_of_not_init, exec_encFlush_of_fault, exec_encFlush_of_dec, fun hi hf hm =>
    ⟨exec_encFlush_of_not_pending hi hf hm, fun hp hfits => ?flushed, fun hp hover => ?pended⟩⟩
  case flushed =>
    rw [exec_encFlush_of_pending hi hf hm hp, flushOrPend_of_fits hfits]
    rfl
  case pended =>
    rw [exec_encFlush_of_pending hi hf hm hp, flushOrPend_of_overflow hover, pend_of_pending s hp]
    rfl

/-! ### ENC_FINISH -/

theorem exec_encFinish_of_empty (ready : EncReady s) (hc : s.sigCount = 0) :
    exec .encFinish s = .next (s.declareEnd.respond .ok true 1) := by
  obtain ⟨hi, hf, hm, hfin, hp⟩ := ready
  simp [exec, execEncFinish, hi, hf, hm, hfin, hp, hc]

theorem exec_encFinish_of_partial (ready : EncReady s) (hc : s.sigCount ≠ 0) : exec .encFinish s =
    .next (if s.declareEnd.flushOrPend.2 then s.declareEnd.flushOrPend.1.respond .ok true 3
      else s.declareEnd.flushOrPend.1.respond .outputOverflow true 3) := by
  obtain ⟨hi, hf, hm, hfin, hp⟩ := ready
  have hc' : s.sigCount ≠ 0#13 := hc
  cases hflushed : s.declareEnd.flushOrPend.2 <;> simp [exec, execEncFinish, hi, hf, hm, hfin, hp, hc', hflushed]

/-- Settles O37: declaring the end of the input writes neither the block nor OUT_AVAIL, on which the flush depends. -/
theorem encFinishFlushesThePartialBlock : Obligations.EncFinishFlushesThePartialBlock := by
  refine fun s ready => ⟨exec_encFinish_of_empty ready, fun hc hfits => ?flushed, fun hc hover => ?pended⟩
  case flushed =>
    rw [exec_encFinish_of_partial ready hc, flushOrPend_of_fits (s := s.declareEnd) hfits]
    rfl
  case pended =>
    rw [exec_encFinish_of_partial ready hc, flushOrPend_of_overflow (s := s.declareEnd) hover]
    rfl

/-! ### ENC_TAIL -/

/-- Settles O38: the illegal N are answered by steps 1 and 3 of R265, and the capacity by the last check. -/
theorem encTailWritesTheTail : Obligations.EncTailWritesTheTail := by
  refine fun s n d => ⟨fun hn => ?zero, fun _ hi hwb => ?tooLong, fun hn hwb hi hf hm hfin htail hp => ?inRange⟩
  case zero =>
    subst hn
    exact exec_of_not_wellFormed rfl
  case tooLong => exact exec_of_outOfContext hi (decide_eq_true hwb)
  case inRange =>
    rw [exec_encTail_of_finished hn hwb hi hf hm hfin htail]
    refine ⟨fun hfits => ?written, fun hover => ?overflow⟩
    case written =>
      have hlength : (tailOperand n d).length = n.toNat := leBytes_length _ _
      rw [if_neg (by simp [hp, State.fits, hfits]), ← tailOperand_eq_map, State.writeTail, State.outWrite, hlength]
      rfl
    case overflow =>
      rw [if_pos (by simp [State.fits, hover])]
      rfl

end Sys2Proof.Machine
end

section
/-! SUPPORT. What routing and signing add to PRODBITS (44_multiplexer.md R190 to R195), what packing and the header put in
the block's bytes, and the bound of the size (R196 to R198; 43_block_manager.md R169). -/

namespace Sys2Proof.Machine

variable {s : State} {w : Word} {r : Nat}

/-! ### The bit cost of a word -/

/-- R34, R163: a signature is two bits of the block. -/
@[simp] theorem appendSignature_prodBits (s : State) (g : Signature) :
    (s.appendSignature g).prodBits = s.prodBits + 2 := by
  simp only [State.prodBits, State.appendSignature_sigBuf, State.appendSignature_predBuf, State.appendSignature_rankBuf,
    State.appendSignature_dictBuf, State.appendSignature_encBuf, List.length_append, bitsMsb_length]
  omega

/-- R194: an escaped word is its literal. -/
theorem routeWord_prodBits_of_escaped (hb : s.bstate = .escaped) (w : Word) :
    (s.routeWord w).1.prodBits = s.prodBits + 8 * wordBytes s.wsel := by
  simp only [routeWord_of_escaped hb, State.prodBits, State.appendEscaped, List.length_append, wordLe_length]
  omega

/-- R193: a missed word is its bucket reference and its literal. -/
theorem routeWord_prodBits_of_miss (hb : s.bstate = .predicting) (hw : w ∉ s.dict.list (s.hash w)) :
    (s.routeWord w).1.prodBits = s.prodBits + (s.hbits.toNat + 8 * wordBytes s.wsel) := by
  simp only [routeWord_of_miss hb hw, State.prodBits, List.length_append, bitsMsb_length, wordLe_length]
  omega

/-- R191, R192: a hit is its marker and its rank code. -/
theorem routeWord_prodBits_of_hit (hb : s.bstate = .predicting) (hr : findRank (s.dict.list (s.hash w)) w = some r) :
    (s.routeWord w).1.prodBits = s.prodBits + ((if s.hash w = s.lastb.toNat then 1 else 1 + s.hbits.toNat) +
      (Build.code s.build r).length.toNat) := by
  simp only [routeWord_of_hit hb hr, State.prodBits, List.length_append, hitMarker_length, rankBits_length]
  omega

/-- Settles O41: two bits for the signature on top of what each of the three routes adds. -/
theorem wordCostInBits : Obligations.WordCostInBits := by
  rintro s _ w rfl
  simp only [appendSignature_prodBits]
  refine ⟨fun hb => ?escaped, fun hb hw => ?miss, fun r hb hr => ?hit⟩
  case escaped => rw [routeWord_prodBits_of_escaped hb]; omega
  case miss => rw [routeWord_prodBits_of_miss hb hw]; omega
  case hit => rw [routeWord_prodBits_of_hit hb hr]; omega

/-! ### The bytes of a block -/

/-- R64: an n-bit value goes in as its bits n-1 down to 0. -/
theorem bitsMsb_eq_map_testBit (n v : Nat) : bitsMsb n v = (List.range n).map fun i => v.testBit (n - 1 - i) :=
  List.ext_getElem (by simp) fun k hk _ => by rw [bitsMsb_getElem _ _ _ hk, List.getElem_map, List.getElem_range]

/-- R64, R65: the writer packs a stream from its first bit on and fills its last byte up with 0. -/
theorem pad_packs (l : List Bool) : Packs (pad l) l := by
  refine ⟨⟨pad_length l, fun k hk => ?bit⟩, fun k hk => ?padding⟩ <;> rw [bitAt_eq, bitsOf_pad]
  case bit => exact List.getD_append _ _ _ _ hk
  case padding =>
    rw [List.getD_append_right _ _ _ _ hk, List.getD_eq_getElem?_getD, List.getElem?_replicate]
    split <;> rfl

/-- R196: the header is SIGCOUNT in two bytes, the low one first. -/
theorem blockHeader_toNat (c : BitVec 13) :
    blockHeader c.toNat = [c.extractLsb' 0 8, (c.setWidth 16).extractLsb' 8 8] := by
  have hlow : BitVec.ofNat 8 c.toNat = c.extractLsb' 0 8 := rfl
  have hhigh : BitVec.ofNat 8 (c.toNat / 256) = (c.setWidth 16).extractLsb' 8 8 := by
    have hc := c.isLt
    apply BitVec.eq_of_toNat_eq
    simp only [BitVec.toNat_ofNat, BitVec.extractLsb'_toNat, BitVec.toNat_setWidth, Nat.shiftRight_eq_div_pow]
    omega
  rw [blockHeader, leBytes, leBytes, leBytes, hlow, hhigh]

/-! ### The size of a block -/

theorem four_le_wordBytes (w : WordSel) : 4 ≤ wordBytes w := by cases w <;> decide

/-- R198: the size of a block in ENC mode, by its counters. -/
theorem BlockInv.serializeBlock_length (h : BlockInv s) (hm : s.mode = .enc) :
    s.serializeBlock.length = 2 + ceil8 (2 * s.sigCount.toNat) + ceil8 s.predBuf.length + ceil8 s.rankBuf.length +
      ceil8 (s.blkMisses.toNat * s.hbits.toNat) + wordBytes s.wsel * (s.blkMisses.toNat + s.blkEscs.toNat) := by
  rw [Machine.serializeBlock_length, h.sigBuf, h.dictBuf hm, h.encBuf hm, Nat.mul_comm (wordBytes s.wsel)]

/-- R65, R169: padding adds less than one byte to each of four streams, so at most 4 bytes to what n + 8k bits occupy. -/
theorem ceil8_add_four_le {a b c d n k : Nat} (h : a + b + c + d ≤ n + 8 * k) :
    ceil8 a + ceil8 b + ceil8 c + ceil8 d ≤ ceil8 n + k + 4 := by
  unfold ceil8
  omega

/-- R169: a hit's marker and rank code have 12 bits at most beyond a miss's bucket reference, fewer than the literal. -/
theorem BlockInv.stream_bits_le (h : BlockInv s) (hm : s.mode = .enc) :
    2 * s.sigCount.toNat + s.predBuf.length + s.rankBuf.length + s.blkMisses.toNat * s.hbits.toNat ≤
      s.sigCount.toNat * (2 + s.hbits.toNat) + 8 * (s.blkHits.toNat * wordBytes s.wsel) := by
  have hrank : s.rankBuf.length ≤ s.blkHits.toNat * 11 := h.rankBuf hm
  have hlit : s.blkHits.toNat * 4 ≤ s.blkHits.toNat * wordBytes s.wsel :=
    Nat.mul_le_mul_left _ (four_le_wordBytes s.wsel)
  have hpred := h.predBuf hm
  rw [← h.counts hm]
  simp only [Nat.add_mul, Nat.mul_add] at hpred ⊢
  omega

/-- R169: the input plus a fixed overhead bounds the block. -/
theorem BlockInv.serializeBlock_length_le (h : BlockInv s) (hm : s.mode = .enc) :
    s.serializeBlock.length ≤ s.sigCount.toNat * wordBytes s.wsel + 2 +
      ceil8 (s.sigCount.toNat * (2 + s.hbits.toNat)) + 4 := by
  have hstreams := ceil8_add_four_le (h.stream_bits_le hm)
  have hwords : s.sigCount.toNat * wordBytes s.wsel = s.blkHits.toNat * wordBytes s.wsel +
      wordBytes s.wsel * (s.blkMisses.toNat + s.blkEscs.toNat) := by
    rw [← h.counts hm, Nat.add_assoc, Nat.add_mul, Nat.mul_comm (wordBytes s.wsel)]
  rw [h.serializeBlock_length hm, hwords]
  omega

/-- Settles O42: the streams are the padded buffers. -/
theorem serializedBlockSize : Obligations.SerializedBlockSize := by
  refine ⟨fun s => ?bytes, fun n v => ⟨bitsMsb_eq_map_testBit n v, leBytes_eq_map_shiftRight n v⟩,
    fun s _ hblk hm => ⟨hblk.serializeBlock_length hm, hblk.serializeBlock_length_le hm⟩⟩
  case bytes =>
    refine ⟨pad s.sigBuf, pad s.predBuf, pad s.rankBuf, pad s.dictBuf, ?_, pad_packs _, pad_packs _, pad_packs _,
      pad_packs _⟩
    rw [State.serializeBlock, blockHeader_toNat]

end Sys2Proof.Machine
end

section
/-! SUPPORT. The decode commands (45_decoder.md): the answers of DEC_BLOCK (R210, R217, R218) and DEC_TAIL (R222), the length
of what a block reconstructs to, and the words at which a reconstruction fails (R268). -/

namespace Sys2Proof.Machine

variable {s t u : State} {p : ParsedBlock} {x : Replay}

/-! ### DEC_BLOCK -/

theorem exec_decBlock_of_parse_none (ready : DecReady s) (hp : s.parse = none) :
    exec .decBlock s = .next (s.decodeFault .corruptStream .corruptStream) := by
  obtain ⟨hi, hf, hm, hr⟩ := ready
  have hr' : s.decRemain ≠ 0#64 := hr
  simp [exec, execDecBlock, hi, hf, hm, hr', hp]

theorem exec_decBlock_of_rebuild_none (ready : DecReady s) (hp : s.parse = some p) (hx : s.rebuild p = none) :
    exec .decBlock s = .next (s.decodeFault .invalidCode .invalidCode) := by
  obtain ⟨hi, hf, hm, hr⟩ := ready
  have hr' : s.decRemain ≠ 0#64 := hr
  simp [exec, execDecBlock, hi, hf, hm, hr', hp, hx]

/-- R217: the capacity is checked last. -/
theorem exec_decBlock_of_rebuild (ready : DecReady s) (hp : s.parse = some p) (hx : s.rebuild p = some x) :
    exec .decBlock s = if p.sigs.length * wordBytes s.wsel ≤ s.outAvail.toNat then
      .next ((s.commit p x).respond .ok true (BitVec.ofNat 64 p.sigs.length)) else .next (s.raise .outputOverflow) := by
  obtain ⟨hi, hf, hm, hr⟩ := ready
  have hr' : s.decRemain ≠ 0#64 := hr
  simp [exec, execDecBlock, hi, hf, hm, hr', hp, hx, State.fits]

/-- R211: a block that parses has the word count of its header. -/
theorem State.parse_sigs_length (hp : s.parse = some p) : p.sigs.length = s.expectedCount :=
  (parseBlock_some _ _ _ _ _ _ hp).1

/-- R214 to R216: every signature emits one word. -/
theorem reconstruct_bytes_length {b : Build} {w : WordSel} {hb : Nat} {sigs : List Signature}
    {markers : List (Option Nat)} {ranks drefs : List Nat} {lits : List Word} {m : Memory} {l : BitVec 16}
    (h : reconstruct b w hb sigs markers ranks drefs lits m l = some x) :
    x.bytes.length = sigs.length * wordBytes w := by
  fun_induction reconstruct b w hb sigs markers ranks drefs lits m l generalizing x with
  | case1 => simp [← Option.some.inj h]
  | case3 | case4 | case6 =>
    rename_i ih
    obtain ⟨y, hy, rfl⟩ := Option.map_eq_some_iff.1 h
    simp only [Replay.emit, List.length_append, wordLe_length, ih hy, List.length_cons, Nat.succ_mul, Nat.add_comm]
  | case2 | case5 | case7 => exact nomatch h

theorem State.rebuild_bytes_length (hx : s.rebuild p = some x) :
    x.bytes.length = p.sigs.length * wordBytes s.wsel := reconstruct_bytes_length hx

/-- Settles O43: the whole next state is what `commit` and the response write. -/
theorem decBlockCommits : Obligations.DecBlockCommits := by
  intro s p x ready hp hx hfits
  refine ⟨State.parse_sigs_length hp, State.rebuild_bytes_length hx, ?_⟩
  rw [exec_decBlock_of_rebuild ready hp hx, if_pos hfits]
  rfl

/-! ### DEC_TAIL -/

theorem exec_decTail_of_ready (ready : TailReady s) : exec .decTail s =
    if s.cursor.rest.length < s.tailRem.toNat then .next (s.decodeFault .corruptStream .corruptStream)
    else if s.tailRem.toNat ≤ s.outAvail.toNat then
      .next ((s.copyTail (s.cursor.rest.take s.tailRem.toNat)).respond .ok true (s.tailRem.setWidth 64))
    else .next (s.raise .outputOverflow) := by
  obtain ⟨hi, hf, hm, hr, ht, hd⟩ := ready
  have ht' : s.tailRem ≠ 0#3 := ht
  cases hbytes : takeBytes s.tailRem.toNat s.cursor.rest with
  | none =>
    rw [if_pos ((takeBytes_none _ _).1 hbytes)]
    simp [exec, execDecTail, hi, hf, hm, hr, ht', hd, hbytes]
  | some q =>
    obtain ⟨front, back⟩ := q
    obtain ⟨hrest, hlen⟩ := takeBytes_some _ _ _ _ hbytes
    have hfront : s.cursor.rest.take s.tailRem.toNat = front := by rw [hrest, List.take_left' hlen]
    have hle : ¬s.cursor.rest.length < s.tailRem.toNat := by rw [hrest, List.length_append]; omega
    rw [if_neg hle, hfront]
    simp [exec, execDecTail, hi, hf, hm, hr, ht', hd, hbytes, State.fits]

/-- Settles O47: the three cases are the branches of DEC_TAIL's meaning, past its checks. -/
theorem decTailCopiesTheTail : Obligations.DecTailCopiesTheTail := by
  intro s ready
  have hcursor : s.cursor.rest = s.inputView.drop s.inPos.toNat := rfl
  rw [exec_decTail_of_ready ready, hcursor]
  refine ⟨fun hshort => ?short, fun hlong hfits => ?copied, fun hlong hover => ?overflow⟩
  case short =>
    rw [if_pos hshort]
    rfl
  case copied =>
    have hlen : ((s.inputView.drop s.inPos.toNat).take s.tailRem.toNat).length = s.tailRem.toNat := by
      rw [List.length_take, Nat.min_eq_left hlong]
    rw [if_neg (Nat.not_lt.2 hlong), if_pos hfits, State.copyTail, State.outWrite, hlen]
    rfl
  case overflow =>
    rw [if_neg (Nat.not_lt.2 hlong), if_neg (Nat.not_le.2 hover)]
    rfl

/-! ### The words at which a reconstruction fails -/

/-- R214, R215: a reconstruction whose lists last as long as its signatures fails exactly at a rejected word. -/
theorem reconstruct_eq_none_iff (s : State) (sigs : List Signature) (markers : List (Option Nat)) (ranks drefs : List Nat)
    (lits : List Word) (m : Memory) (l : BitVec 16) (hmarkers : markers.length = sigs.count .hit)
    (hranks : ranks.length = sigs.count .hit) (hdrefs : drefs.length = sigs.count .miss)
    (hlits : lits.length = sigs.count .miss + sigs.count .esc) :
    reconstruct s.build s.wsel s.hbits.toNat sigs markers ranks drefs lits m l = none ↔
      ∃ q ∈ Machine.replayPoints s.build.depth.toNat sigs markers ranks drefs lits m l, s.rejects q := by
  fun_induction reconstruct s.build s.wsel s.hbits.toNat sigs markers ranks drefs lits m l with
  | case1 => simp [Machine.replayPoints]
  | case2 sigs marker markers r ranks drefs lits m l bucket hreplay =>
    obtain ⟨-, hocc⟩ | ⟨v, hv, -, -⟩ := replayHit_cases m bucket r
    · refine iff_of_true rfl ?_
      rw [Machine.replayPoints]
      exact ⟨_, List.mem_cons_self, .inl ⟨rfl, hocc⟩⟩
    · exact nomatch hv.symm.trans hreplay
  | case3 sigs marker markers r ranks drefs lits m l bucket y m1 hreplay ih =>
    obtain ⟨hn, -⟩ | ⟨v, hv, -, hocc⟩ := replayHit_cases m bucket r
    · exact nomatch hn.symm.trans hreplay
    · obtain ⟨-, rfl⟩ := Prod.mk.inj (Option.some.inj (hv.symm.trans hreplay))
      have hkeeps : ¬s.rejects ⟨.hit, bucket, r, 0, m⟩ := by simpa [State.rejects] using hocc
      rw [Option.map_eq_none_iff, ih (by simpa using hmarkers) (by simpa using hranks) (by simpa using hdrefs)
        (by simpa using hlits), Machine.replayPoints, List.exists_mem_cons_iff, or_iff_right hkeeps]
  | case4 sigs markers ranks drefs y lits m l ih =>
    have hkeeps : ¬s.rejects ⟨.miss, s.hash y, 0, y, m⟩ := by simp [State.rejects]
    rw [Option.map_eq_none_iff, ih (by simpa using hmarkers) (by simpa using hranks) (by simpa using hdrefs)
      (by simp at hlits; omega), Machine.replayPoints, List.exists_mem_cons_iff]
    exact (or_iff_right hkeeps).symm
  | case5 sigs markers ranks bucket drefs y lits m l hne =>
    refine iff_of_true rfl ?_
    rw [Machine.replayPoints]
    exact ⟨_, List.mem_cons_self, .inr ⟨rfl, hne⟩⟩
  | case6 sigs markers ranks drefs y lits m l ih =>
    have hkeeps : ¬s.rejects ⟨.esc, 0, 0, y, m⟩ := by simp [State.rejects]
    rw [Option.map_eq_none_iff, ih (by simpa using hmarkers) (by simpa using hranks) (by simpa using hdrefs)
      (by simp at hlits; omega), Machine.replayPoints, List.exists_mem_cons_iff, or_iff_right hkeeps]
  | case7 sigs markers ranks drefs lits m l hnil hhit hmiss hesc =>
    exfalso
    cases sigs with
    | nil => exact hnil rfl
    | cons g sigs =>
      cases g with
      | hit =>
        rw [List.count_cons_self] at hmarkers hranks
        obtain ⟨k, markers, rfl⟩ := List.exists_cons_of_length_eq_add_one hmarkers
        obtain ⟨r, ranks, rfl⟩ := List.exists_cons_of_length_eq_add_one hranks
        exact hhit sigs k markers r ranks rfl rfl rfl
      | miss =>
        rw [List.count_cons_self] at hdrefs hlits
        obtain ⟨d, drefs, rfl⟩ := List.exists_cons_of_length_eq_add_one hdrefs
        obtain ⟨y, lits, rfl⟩ := List.exists_cons_of_length_pos (l := lits) (by omega)
        exact hmiss sigs d drefs y lits rfl rfl rfl
      | esc =>
        rw [List.count_cons_self] at hlits
        obtain ⟨y, lits, rfl⟩ := List.exists_cons_of_length_pos (l := lits) (by omega)
        exact hesc sigs y lits rfl rfl

/-- R268: of the blocks that parse, those that do not reconstruct. -/
theorem State.rebuild_eq_none_iff (hp : s.parse = some p) :
    s.rebuild p = none ↔ ∃ q ∈ s.replayPoints p, s.rejects q := by
  obtain ⟨-, hmarkers, hranks, hdrefs, hlits, -, -, -⟩ := parseBlock_some _ _ _ _ _ _ hp
  exact reconstruct_eq_none_iff s _ _ _ _ _ _ _ hmarkers hranks hdrefs hlits

/-! ### A literal that its bucket holds already -/

/-- A DEC context over the block of one MISS, the word 0x64636261 in bucket 6, which bucket 6 holds. -/
def heldMissDecoder : State :=
  { (State.resetOf referenceBuild).newContext .dec .w4 4 4 with
    input := [0x01, 0x00, 0x00, 0x60, 0x61, 0x62, 0x63, 0x64], outAvail := 4, dict := ⟨[(6, [0x64636261])]⟩ }

/-- What that block parses to. -/
def heldMiss : ParsedBlock := ⟨[.miss], [], [], [6], [0x64636261], []⟩

theorem heldMissDecoder_list (b : Nat) :
    heldMissDecoder.dict.list b = if 6 = b then [0x64636261] else [] := rfl

/-- Settles O24: DEC_BLOCK finds the reference to be the literal's hash and inserts the literal before its own copy. -/
theorem decoderMayDuplicateAWord : Obligations.DecoderMayDuplicateAWord := by
  have hreg : RegInv heldMissDecoder := by
    constructor
    case legal => exact referenceBuild_legal
    all_goals decide
  have hblk : BlockInv heldMissDecoder := by
    constructor
    case legal => exact referenceBuild_legal
    all_goals decide
  have hnodup (b : Nat) : (heldMissDecoder.dict.list b).Nodup := by
    rw [heldMissDecoder_list]
    split <;> simp
  have hdict : DictInv heldMissDecoder := by
    refine .of_sound referenceBuild_legal ⟨by decide, fun b => ?occ, fun b y hy => ?home, fun b y hy => ?width⟩ fun _ => hnodup
    case occ =>
      rw [Memory.occ, heldMissDecoder_list]
      split <;> decide
    case home =>
      rw [heldMissDecoder_list] at hy
      split at hy
      · rename_i hb
        rw [List.mem_singleton] at hy
        subst hb hy
        decide +kernel
      · exact absurd hy List.not_mem_nil
    case width =>
      rw [heldMissDecoder_list] at hy
      split at hy
      · rw [List.mem_singleton] at hy
        subst hy
        decide
      · exact absurd hy List.not_mem_nil
  have hparse : heldMissDecoder.parse = some heldMiss := by decide +kernel
  have hrebuild : heldMissDecoder.rebuild heldMiss =
      some ⟨⟨[(6, [0x64636261, 0x64636261])]⟩, 6, [0x61, 0x62, 0x63, 0x64]⟩ := by decide +kernel
  have hready : DecReady heldMissDecoder := ⟨rfl, rfl, rfl, by decide⟩
  refine ⟨heldMissDecoder, _, hreg, hblk, hdict, rfl, hnodup,
    (exec_decBlock_of_rebuild hready hparse hrebuild).trans (if_pos (by decide)), rfl, 6, ?_⟩
  decide

end Sys2Proof.Machine
end

section
/-! SUPPORT. Parsing is the inverse of the wire format (45_decoder.md R211 to R213; 44_multiplexer.md R196, R197): from a byte
boundary, each stream is read exactly where its bytes carry its bits, up to the next byte boundary. With it, the causes of
CORRUPT_STREAM (60_exceptions.md R267). -/

namespace Sys2Proof.Machine

variable {s t : State} {p : ParsedBlock} {l rest : List Byte} {n wb hb : Nat}

/-! ### A stream from a byte boundary -/

/-- R64, R65: bytes carry a bit stream where they are as many as it occupies and begin with it. -/
theorem carries_iff (bytes : List Byte) (bits : List Bool) :
    Carries bytes bits ↔ bytes.length = ceil8 bits.length ∧ bits <+: bitsOf bytes := by
  constructor
  · rintro ⟨hlen, hbit⟩
    refine ⟨hlen, List.prefix_iff_eq_take.2 (List.ext_getElem ?_ fun k hk _ => ?_)⟩
    · rw [List.length_take, bitsOf_length, hlen]
      unfold ceil8
      omega
    · have hget := hbit k hk
      rw [List.getD_eq_getElem _ _ hk, bitAt_eq, List.getD_eq_getElem _ _ (by
        rw [bitsOf_length, hlen]; unfold ceil8; omega)] at hget
      rw [List.getElem_take, hget]
  · rintro ⟨hlen, more, hbits⟩
    exact ⟨hlen, fun k hk => by rw [bitAt_eq, ← hbits, List.getD_append _ _ _ _ hk]⟩

/-- R65: a bit stream stands at the start of the bytes exactly where the first of them carry it. -/
theorem bitsAt_zero_iff (l : List Byte) (bits : List Bool) :
    BitsAt l 0 bits ↔ Carries (l.take (ceil8 bits.length)) bits := by
  rw [BitsAt, List.drop_zero, carries_iff]
  constructor
  · intro h
    have hle := h.length_le
    rw [bitsOf_length] at hle
    have hlen : (l.take (ceil8 bits.length)).length = ceil8 bits.length := by
      rw [List.length_take]
      unfold ceil8
      omega
    have htake : bitsOf (l.take (ceil8 bits.length)) <+: bitsOf l :=
      ⟨bitsOf (l.drop (ceil8 bits.length)), by rw [← bitsOf_append, List.take_append_drop]⟩
    refine ⟨hlen, List.prefix_of_prefix_length_le h htake ?_⟩
    rw [bitsOf_length, hlen]
    unfold ceil8
    omega
  · rintro ⟨-, h⟩
    refine h.trans ⟨bitsOf (l.drop (ceil8 bits.length)), ?_⟩
    rw [← bitsOf_append, List.take_append_drop]

theorem posAt_zero (l : List Byte) : posAt l 0 = ⟨l, 0⟩ := rfl

theorem posAt_byte (l : List Byte) (j : Nat) : posAt l (8 * j) = ⟨l.drop j, 0⟩ := by simp [posAt]

/-- R67, R212, R213: n reads of one kind from a byte boundary, and the cursor moved on to the next one. -/
theorem readMany_stream_iff {α : Type} {read : Cursor → Option (α × Cursor)} {valid : α → Prop} {code : α → List Bool}
    (hr : ∀ l, ReadsAt read valid code l) {n : Nat} {l : List Byte} {xs : List α} {c' : Cursor} :
    (∃ c, readMany read n ⟨l, 0⟩ = some (xs, c) ∧ align c = c') ↔
      (xs.length = n ∧ ∀ x ∈ xs, valid x) ∧
        ∃ bytes rest, l = bytes ++ rest ∧ Carries bytes (xs.flatMap code) ∧ c' = ⟨rest, 0⟩ := by
  simp only [← posAt_zero l, readMany_posAt (hr l) n 0 (Nat.zero_le _) xs, bitsAt_zero_iff, Nat.zero_add]
  constructor
  · rintro ⟨c, ⟨hvalid, hbits, rfl⟩, rfl⟩
    exact ⟨hvalid, _, _, (List.take_append_drop _ l).symm, hbits, by rw [align_posAt, posAt_byte]⟩
  · rintro ⟨hvalid, bytes, rest, rfl, hbits, rfl⟩
    refine ⟨_, ⟨hvalid, ?_, rfl⟩, ?_⟩
    · rwa [List.take_left' hbits.length]
    · rw [align_posAt, posAt_byte, List.drop_left' hbits.length]

/-- R196, R211: the header. -/
theorem parseHeader_iff (hn : n < 2 ^ 16) {c : Cursor} :
    parseHeader n ⟨l, 0⟩ = some c ↔
      ∃ rest, l = [BitVec.ofNat 8 n, BitVec.ofNat 8 (n / 256)] ++ rest ∧ c = ⟨rest, 0⟩ := by
  have hvalue : leValue (leBytes 2 n) = n := by
    rw [leValue_leBytes]
    exact Nat.mod_eq_of_lt (by omega)
  constructor
  · intro h
    cases ht : takeBytes 2 l with
    | none => simp [parseHeader, readBytes, ht] at h
    | some q =>
      obtain ⟨front, back⟩ := q
      obtain ⟨rfl, hlen⟩ := takeBytes_some _ _ _ _ ht
      simp only [parseHeader, readBytes, ht, Option.ite_none_right_eq_some, Option.some.injEq] at h
      obtain ⟨hfront, rfl⟩ := h
      refine ⟨back, ?_, rfl⟩
      rw [← leBytes_leValue front, hlen, hfront]
      rfl
  · rintro ⟨rest, rfl, rfl⟩
    have ht : takeBytes 2 (leBytes 2 n ++ rest) = some (leBytes 2 n, rest) := by
      simpa using takeBytes_append (leBytes 2 n) rest
    change parseHeader n ⟨leBytes 2 n ++ rest, 0⟩ = _
    simp only [parseHeader, readBytes, ht, hvalue, if_true]

/-- R91, R213: the literals. -/
theorem readLiterals_iff (hw : wb ≤ 8) {xs : List Word} {c : Cursor} :
    readMany (readLiteral wb) n ⟨l, 0⟩ = some (xs, c) ↔
      (xs.length = n ∧ ∀ w ∈ xs, w.toNat < 2 ^ (8 * wb)) ∧
        ∃ rest, l = xs.flatMap (fun w => leBytes wb w.toNat) ++ rest ∧ c = ⟨rest, 0⟩ := by
  have hread := readLiterals_posAt l wb hw n 0 xs c
  rw [Nat.mul_zero, posAt_zero, List.drop_zero, posAt_byte, Nat.zero_add] at hread
  rw [hread]
  refine and_congr_right fun ⟨hn, _⟩ => ?_
  have hlen : (xs.flatMap fun w => leBytes wb w.toNat).length = wb * n := by
    simp [List.length_flatMap, hn, Nat.mul_comm]
  constructor
  · rintro ⟨⟨rest, rfl⟩, rfl⟩
    exact ⟨rest, rfl, by rw [List.drop_left' hlen]⟩
  · rintro ⟨rest, rfl, rfl⟩
    exact ⟨⟨rest, rfl⟩, by rw [List.drop_left' hlen]⟩

/-! ### A block -/

/-- R211 to R213: the reads that a parse is made of. -/
theorem parseBlock_eq_some_iff {t : List Code} {c : Cursor} :
    parseBlock t wb hb n c = some p ↔ ∃ c0 c1 c2 c3 c4 c5, parseHeader n c = some c0 ∧
      readMany readSignature n c0 = some (p.sigs, c1) ∧
      readMany (readMarker hb) (p.sigs.count .hit) (align c1) = some (p.markers, c2) ∧
      readMany (decodeRank t) (p.sigs.count .hit) (align c2) = some (p.ranks, c3) ∧
      readMany (readBits hb) (p.sigs.count .miss) (align c3) = some (p.drefs, c4) ∧
      readMany (readLiteral wb) (p.sigs.count .miss + p.sigs.count .esc) (align c4) = some (p.lits, c5) ∧
      c5.rest = p.rest := by
  constructor
  · intro h
    unfold parseBlock at h
    split at h
    · exact nomatch h
    rename_i c0 h0
    split at h
    · exact nomatch h
    rename_i sigs c1 h1
    split at h
    · exact nomatch h
    rename_i markers c2 h2
    split at h
    · exact nomatch h
    rename_i ranks c3 h3
    split at h
    · exact nomatch h
    rename_i drefs c4 h4
    split at h
    · exact nomatch h
    rename_i lits c5 h5
    obtain rfl := Option.some.inj h
    exact ⟨c0, c1, c2, c3, c4, c5, h0, h1, h2, h3, h4, h5, rfl⟩
  · rintro ⟨c0, c1, c2, c3, c4, c5, h0, h1, h2, h3, h4, h5, hrest⟩
    simp only [parseBlock, h0, h1, h2, h3, h4, h5, hrest]

/-- R211 to R213: the parser accepts exactly the wire format. -/
theorem parseBlock_iff_onWire (b : Build) (ht : tableLegal b.codeTable) (hw : wb ≤ 8) (hn : n < 2 ^ 16) :
    parseBlock b.codeTable wb hb n ⟨l, 0⟩ = some p ↔ ∃ sg pr rk dc, OnWire b wb hb n p sg pr rk dc l := by
  rw [parseBlock_eq_some_iff]
  constructor
  · rintro ⟨c0, c1, c2, c3, c4, c5, h0, h1, h2, h3, h4, h5, hrest⟩
    obtain ⟨l0, rfl, rfl⟩ := (parseHeader_iff hn).1 h0
    obtain ⟨⟨hsigs, -⟩, sg, l1, rfl, hsg, e1⟩ := (readMany_stream_iff readSignature_posAt).1 ⟨c1, h1, rfl⟩
    rw [e1] at h2
    obtain ⟨⟨hmarkers, hmr⟩, pr, l2, rfl, hpr, e2⟩ := (readMany_stream_iff (readMarker_posAt · hb)).1 ⟨c2, h2, rfl⟩
    rw [e2] at h3
    obtain ⟨⟨hranks, hrr⟩, rk, l3, rfl, hrk, e3⟩ := (readMany_stream_iff (decodeRank_posAt b ht)).1 ⟨c3, h3, rfl⟩
    rw [e3] at h4
    obtain ⟨⟨hdrefs, hdr⟩, dc, l4, rfl, hdc, e4⟩ := (readMany_stream_iff (readBits_posAt · hb)).1 ⟨c4, h4, rfl⟩
    rw [e4] at h5
    obtain ⟨⟨hlits, hlr⟩, l5, rfl, rfl⟩ := (readLiterals_iff hw).1 h5
    exact ⟨sg, pr, rk, dc,
      { order := by simp only [← hrest, List.append_assoc]
        count := hsigs
        entries := ⟨hmarkers, hranks, hdrefs, hlits⟩
        ranges := ⟨hmr, hrr, hdr, hlr⟩
        signatures := signatureRun_eq p.sigs ▸ hsg
        predictions := markerRun_eq hb p.markers ▸ hpr
        ranks := hrk
        dictionary := hdc }⟩
  · rintro ⟨sg, pr, rk, dc, horder, hsigs, ⟨hmarkers, hranks, hdrefs, hlits⟩, ⟨hmr, hrr, hdr, hlr⟩, hsg, hpr, hrk, hdc⟩
    rw [signatureRun_eq] at hsg
    rw [markerRun_eq] at hpr
    simp only [List.append_assoc] at horder
    have h0 := (parseHeader_iff (l := l) hn).2 ⟨_, horder, rfl⟩
    obtain ⟨c1, h1, e1⟩ := (readMany_stream_iff readSignature_posAt).2 ⟨⟨hsigs, fun _ _ => trivial⟩, sg, _, rfl, hsg, rfl⟩
    obtain ⟨c2, h2, e2⟩ := (readMany_stream_iff (readMarker_posAt · hb)).2 ⟨⟨hmarkers, hmr⟩, pr, _, rfl, hpr, rfl⟩
    obtain ⟨c3, h3, e3⟩ := (readMany_stream_iff (decodeRank_posAt b ht)).2 ⟨⟨hranks, hrr⟩, rk, _, rfl, hrk, rfl⟩
    obtain ⟨c4, h4, e4⟩ := (readMany_stream_iff (readBits_posAt · hb)).2 ⟨⟨hdrefs, hdr⟩, dc, _, rfl, hdc, rfl⟩
    have h5 := (readLiterals_iff hw).2 ⟨⟨hlits, hlr⟩, p.rest, rfl, rfl⟩
    exact ⟨_, c1, c2, c3, c4, _, h0, h1, e1 ▸ h2, e2 ▸ h3, e3 ▸ h4, e4 ▸ h5, rfl⟩

/-! ### What is left of IN -/

theorem State.expectedCount_le (s : State) : s.expectedCount ≤ 4096 := Nat.min_le_left _ _

theorem wordBytes_le_eight (w : WordSel) : wordBytes w ≤ 8 := by cases w <;> decide

/-- R67, R210: the cursor stands before what is left of IN. -/
theorem State.cursor_eq (s : State) : s.cursor = ⟨s.remaining, 0⟩ := rfl

/-- R210 to R213: the block at IN_POS parses to `p` exactly where it is `p` on the wire. -/
theorem State.parse_eq_some_iff_holdsBlock (ht : tableLegal s.build.codeTable) :
    s.parse = some p ↔ s.holdsBlock p :=
  parseBlock_iff_onWire s.build ht (wordBytes_le_eight s.wsel) (Nat.lt_of_le_of_lt s.expectedCount_le (by decide))

/-- R211, R212: a block that parses begins with its header and its signatures, whatever the code table. -/
theorem State.remaining_of_parse (hp : s.parse = some p) : ∃ sg rest,
    s.remaining = [BitVec.ofNat 8 s.expectedCount, BitVec.ofNat 8 (s.expectedCount / 256)] ++ (sg ++ rest) ∧
    Carries sg (signatureRun p.sigs) := by
  have hn : s.expectedCount < 2 ^ 16 := Nat.lt_of_le_of_lt s.expectedCount_le (by decide)
  obtain ⟨c0, c1, -, -, -, -, h0, h1, -⟩ := parseBlock_eq_some_iff.1 hp
  rw [State.cursor_eq] at h0
  obtain ⟨l0, hrest, rfl⟩ := (parseHeader_iff hn).1 h0
  obtain ⟨-, sg, l1, rfl, hsg, -⟩ := (readMany_stream_iff readSignature_posAt).1 ⟨c1, h1, rfl⟩
  exact ⟨sg, l1, hrest, signatureRun_eq p.sigs ▸ hsg⟩

/-- R87: no signature is the reserved code 0b11. -/
theorem signatureRun_not_reserved (sigs : List Signature) {i : Nat} (hi : i < sigs.length) :
    ¬((signatureRun sigs).getD (2 * i) false = true ∧ (signatureRun sigs).getD (2 * i + 1) false = true) := by
  simp only [signatureRun_eq]
  induction sigs generalizing i with
  | nil => exact absurd hi (Nat.not_lt_zero i)
  | cons g sigs ih =>
    cases i with
    | zero => cases g <;> simp [Signature.bits]
    | succ i =>
      have := ih (Nat.lt_of_succ_lt_succ hi)
      cases g <;> simpa [Signature.bits, Nat.mul_succ] using this

/-- R67: a read within the first of two byte sequences does not see the second. -/
theorem bitAt_append_left {bytes : List Byte} (more : List Byte) {k : Nat} (hk : k < 8 * bytes.length) :
    bitAt (bytes ++ more) k = bitAt bytes k := by
  rw [bitAt_eq, bitAt_eq, bitsOf_append, List.getD_append _ _ _ _ (by rwa [bitsOf_length])]

/-! ### The causes of CORRUPT_STREAM -/

/-- R267 (a): the header is cut off. -/
theorem State.parse_of_short (h : s.remaining.length < 2) : s.parse = none := by
  by_contra hne
  obtain ⟨p, hp⟩ := Option.ne_none_iff_exists'.1 hne
  obtain ⟨sg, rest, hrem, -⟩ := State.remaining_of_parse hp
  rw [hrem] at h
  simp at h

/-- R267 (b): the header holds another count. -/
theorem State.parse_of_other_count
    (h : (s.remaining.getD 0 0).toNat + 256 * (s.remaining.getD 1 0).toNat ≠ s.expectedCount) : s.parse = none := by
  by_contra hne
  obtain ⟨p, hp⟩ := Option.ne_none_iff_exists'.1 hne
  obtain ⟨sg, rest, hrem, -⟩ := State.remaining_of_parse hp
  have hle := s.expectedCount_le
  refine h ?_
  rw [hrem]
  simp only [List.cons_append, List.getD_cons_zero, List.getD_cons_succ, BitVec.toNat_ofNat]
  omega

/-- R267 (c): a signature is the reserved code. -/
theorem State.parse_of_reserved {i : Nat} (hi : i < s.expectedCount) (h0 : bitAt (s.remaining.drop 2) (2 * i) = true)
    (h1 : bitAt (s.remaining.drop 2) (2 * i + 1) = true) : s.parse = none := by
  by_contra hne
  obtain ⟨p, hp⟩ := Option.ne_none_iff_exists'.1 hne
  obtain ⟨sg, rest, hrem, hcarries⟩ := State.remaining_of_parse hp
  have hsigs := State.parse_sigs_length hp
  have hlen := hcarries.length
  rw [signatureRun_length] at hlen
  have hfits : 2 * i + 1 < 8 * sg.length := by
    rw [hlen, hsigs]
    unfold ceil8
    omega
  have hdrop : s.remaining.drop 2 = sg ++ rest := by rw [hrem]; rfl
  rw [hdrop] at h0 h1
  rw [bitAt_append_left _ (by omega), hcarries.bit _ (by rw [signatureRun_length]; omega)] at h0
  rw [bitAt_append_left _ hfits, hcarries.bit _ (by rw [signatureRun_length]; omega)] at h1
  exact signatureRun_not_reserved p.sigs (hsigs ▸ hi) ⟨h0, h1⟩

/-- R223: what stands behind a block is no part of it. -/
theorem OnWire.append {b : Build} {sg pr rk dc bytes : List Byte} (h : OnWire b wb hb n p sg pr rk dc bytes)
    (more : List Byte) : OnWire b wb hb n { p with rest := p.rest ++ more } sg pr rk dc (bytes ++ more) :=
  { h with order := by rw [h.order]; simp only [List.append_assoc] }

/-- R223: where more of IN stands behind a block that parses, the block parses as before. -/
theorem State.parse_append (ht : tableLegal s.build.codeTable) (hb : t.build = s.build) (hw : t.wsel = s.wsel)
    (hh : t.hbits = s.hbits) (hr : t.decRemain = s.decRemain) {more : List Byte}
    (hrem : s.remaining = t.remaining ++ more) (hp : t.parse = some p) :
    s.parse = some { p with rest := p.rest ++ more } := by
  rw [State.parse_eq_some_iff_holdsBlock (hb ▸ ht)] at hp
  rw [State.parse_eq_some_iff_holdsBlock ht]
  obtain ⟨sg, pr, rk, dc, hwire⟩ := hp
  have hcount : t.expectedCount = s.expectedCount := by rw [State.expectedCount, hr]; rfl
  rw [hb, hw, hh, hcount] at hwire
  exact ⟨sg, pr, rk, dc, hrem ▸ hwire.append more⟩

/-- R267 (f): a block cut short at any byte does not parse, since with the bytes cut off it would be a longer remainder
of the same parse. -/
theorem State.parse_of_cut (ht : tableLegal s.build.codeTable) (hp : s.parse = some p) (hb : t.build = s.build)
    (hw : t.wsel = s.wsel) (hh : t.hbits = s.hbits) (hr : t.decRemain = s.decRemain) {k : Nat}
    (hrem : t.remaining = s.remaining.take k) (hk : k + p.rest.length < s.remaining.length) : t.parse = none := by
  by_contra hne
  obtain ⟨q, hq⟩ := Option.ne_none_iff_exists'.1 hne
  have hsplit : s.remaining = t.remaining ++ s.remaining.drop k := by rw [hrem, List.take_append_drop]
  obtain rfl := Option.some.inj (hp.symm.trans (State.parse_append ht hb hw hh hr hsplit hq))
  simp only [List.length_append, List.length_drop] at hk
  omega

/-- Settles O44: the three failures of DEC_BLOCK, the wire format as what parses, each cause of CORRUPT_STREAM, and the
rejected words. -/
theorem decBlockFailsWhole : Obligations.DecBlockFailsWhole := by
  refine ⟨fun s ready => ⟨exec_decBlock_of_parse_none ready, fun p hp hx => ?invalid, fun p x hp hx hover => ?overflow⟩,
    fun s ht p => State.parse_eq_some_iff_holdsBlock ht,
    fun s => ⟨State.parse_of_short, State.parse_of_other_count, fun i => State.parse_of_reserved⟩,
    fun s t p k ht hp hb hw hh hr => State.parse_of_cut ht hp hb hw hh hr, fun s p => State.rebuild_eq_none_iff⟩
  case invalid => exact exec_decBlock_of_rebuild_none ready hp hx
  case overflow =>
    rw [exec_decBlock_of_rebuild ready hp hx, if_neg (Nat.not_le.2 hover)]
    rfl

end Sys2Proof.Machine
end

section
/-! SUPPORT. The encoder and the decoder in step (45_decoder.md R221, for one block): a word entered at the encoder adds to the
streams what one step of the decoder reads, and both leave the same dictionary and LASTB behind. -/

namespace Sys2Proof.Machine

variable {s t u d : State} {w : Word} {ws : List Word} {p : ParsedBlock} {r : Nat}

/-! ### Words fed to the block -/

@[simp] theorem enterWord_build (s : State) (w : Word) : (s.enterWord w).build = s.build := by rw [enterWord_eq]

@[simp] theorem feed_nil (s : State) : s.feed [] = s := rfl

@[simp] theorem feed_cons (s : State) (w : Word) (ws : List Word) : s.feed (w :: ws) = (s.enterWord w).feed ws := rfl

/-- R163: each word is counted. -/
theorem enterWord_sigCount_toNat (h : s.sigCount.toNat ≤ 4095) (w : Word) :
    (s.enterWord w).sigCount.toNat = s.sigCount.toNat + 1 := by
  rw [enterWord_eq_signWord]
  obtain ⟨-, -, e⟩ | ⟨-, e⟩ := windowCheck_cases (s.signWord w) <;> rw [e]
  all_goals exact signWord_sigCount_toNat h w

theorem feed_sigCount_toNat (h : s.sigCount.toNat + ws.length ≤ 4096) :
    (s.feed ws).sigCount.toNat = s.sigCount.toNat + ws.length := by
  induction ws generalizing s with
  | nil => rfl
  | cons w ws ih =>
    rw [List.length_cons] at h
    have hw := enterWord_sigCount_toNat (s := s) (by omega) w
    rw [feed_cons, ih (by omega), hw, List.length_cons]
    omega

theorem feed_sigCount_of_empty (h : s.sigCount = 0) (hlen : ws.length ≤ 4096) :
    (s.feed ws).sigCount.toNat = ws.length := by
  have hzero : s.sigCount.toNat = 0 := by rw [h]; rfl
  rw [feed_sigCount_toNat (by omega), hzero, Nat.zero_add]

/-! ### What a word adds to the block -/

/-- The streams from a state `s` to a state `u` of one block, as the entities of `p`, and the decoder's replay of them: from
the dictionary and LASTB of `s` it gives the words `ws` and those of `u`. -/
structure Emits (s u : State) (ws : List Word) (p : ParsedBlock) : Prop where
  sigBuf : u.sigBuf = s.sigBuf ++ signatureRun p.sigs
  predBuf : u.predBuf = s.predBuf ++ markerRun s.hbits.toNat p.markers
  rankBuf : u.rankBuf = s.rankBuf ++ p.ranks.flatMap (rankBits s.build)
  dictBuf : u.dictBuf = s.dictBuf ++ p.drefs.flatMap (bitsMsb s.hbits.toNat)
  encBuf : u.encBuf = s.encBuf ++ p.lits.flatMap (wordLe s.wsel)
  /-- R87: one signature a word. -/
  count : p.sigs.length = ws.length
  entries : p.markers.length = p.sigs.count .hit ∧ p.ranks.length = p.sigs.count .hit ∧
    p.drefs.length = p.sigs.count .miss ∧ p.lits.length = p.sigs.count .miss + p.sigs.count .esc
  ranges : (∀ k ∈ p.markers, ∀ b ∈ k, b < 2 ^ s.hbits.toNat) ∧ (∀ k ∈ p.ranks, k < 256) ∧
    (∀ k ∈ p.drefs, k < 2 ^ s.hbits.toNat) ∧ ∀ x ∈ p.lits, x.toNat < 2 ^ wordBits s.wsel
  replay : reconstruct s.build s.wsel s.hbits.toNat p.sigs p.markers p.ranks p.drefs p.lits s.dict s.lastb =
    some ⟨u.dict, u.lastb, ws.flatMap (wordLe s.wsel)⟩

theorem Emits.nil (s : State) : Emits s s [] ⟨[], [], [], [], [], []⟩ := by
  constructor <;> simp [signatureRun, markerRun, reconstruct]

/-- R88, R191: the marker of a hit in bucket b after a word in bucket prev. -/
def markerOf (b prev : Nat) : Option Nat := if b = prev then none else some b

theorem markerBits_markerOf (hb b prev : Nat) : markerBits hb (markerOf b prev) = hitMarker hb b prev := by
  unfold markerOf hitMarker
  split <;> rfl

/-- R212, R214: the decoder takes from the marker the bucket that the encoder hit. -/
theorem markerOf_getD (b prev : Nat) : (markerOf b prev).getD prev = b := by
  unfold markerOf
  split
  · rename_i h
    exact h.symm
  · rfl

/-- R125: the decoder's hit is the encoder's. -/
theorem replayHit_of_findRank {m : Memory} {b : Nat} (h : findRank (m.list b) w = some r) :
    m.replayHit b r = some (w, m.promote b r) := by
  have hent : m.ent b r = some w := findRank_some _ _ _ h
  rw [Memory.replayHit, hent]

/-- R214 to R216: a reconstruction that uses its lists up goes on with the lists that follow. -/
theorem reconstruct_append {b : Build} {wsel : WordSel} {hb : Nat} {sigs sigs' : List Signature}
    {markers markers' : List (Option Nat)} {ranks ranks' drefs drefs' : List Nat} {lits lits' : List Word} {m : Memory}
    {l : BitVec 16} {x y : Replay} (h : reconstruct b wsel hb sigs markers ranks drefs lits m l = some x)
    (h' : reconstruct b wsel hb sigs' markers' ranks' drefs' lits' x.dict x.lastb = some y)
    (hmarkers : markers.length = sigs.count .hit) (hranks : ranks.length = sigs.count .hit)
    (hdrefs : drefs.length = sigs.count .miss) (hlits : lits.length = sigs.count .miss + sigs.count .esc) :
    reconstruct b wsel hb (sigs ++ sigs') (markers ++ markers') (ranks ++ ranks') (drefs ++ drefs') (lits ++ lits') m l =
      some (y.emit x.bytes) := by
  fun_induction reconstruct b wsel hb sigs markers ranks drefs lits m l generalizing x with
  | case1 markers ranks drefs lits m l =>
    obtain rfl := Option.some.inj h
    obtain rfl := List.length_eq_zero_iff.1 hmarkers
    obtain rfl := List.length_eq_zero_iff.1 hranks
    obtain rfl := List.length_eq_zero_iff.1 hdrefs
    obtain rfl := List.length_eq_zero_iff.1 hlits
    exact h'
  | case3 sigs k markers r ranks drefs lits m l bucket v m1 hreplay =>
    rename_i ih
    obtain ⟨z, hz, rfl⟩ := Option.map_eq_some_iff.1 h
    have hrest := ih hz h' (by simpa using hmarkers) (by simpa using hranks) (by simpa using hdrefs) (by simpa using hlits)
    simp only [List.cons_append, reconstruct]
    simp only [bucket] at hreplay hrest
    simp [hreplay, hrest, Replay.emit]
  | case4 sigs markers ranks drefs v lits m l ih =>
    obtain ⟨z, hz, rfl⟩ := Option.map_eq_some_iff.1 h
    have hrest := ih hz h' (by simpa using hmarkers) (by simpa using hranks) (by simpa using hdrefs)
      (by simp at hlits; omega)
    simp [reconstruct, hrest, Replay.emit]
  | case6 sigs markers ranks drefs v lits m l ih =>
    obtain ⟨z, hz, rfl⟩ := Option.map_eq_some_iff.1 h
    have hrest := ih hz h' (by simpa using hmarkers) (by simpa using hranks) (by simpa using hdrefs)
      (by simp at hlits; omega)
    simp [reconstruct, hrest, Replay.emit]
  | case2 | case5 | case7 => exact nomatch h

theorem signatureRun_append (sigs sigs' : List Signature) :
    signatureRun (sigs ++ sigs') = signatureRun sigs ++ signatureRun sigs' := List.flatMap_append

theorem markerRun_append (hb : Nat) (markers markers' : List (Option Nat)) :
    markerRun hb (markers ++ markers') = markerRun hb markers ++ markerRun hb markers' := List.flatMap_append

/-- The entities of two runs of words, one after the other. -/
def ParsedBlock.append (p q : ParsedBlock) : ParsedBlock :=
  ⟨p.sigs ++ q.sigs, p.markers ++ q.markers, p.ranks ++ q.ranks, p.drefs ++ q.drefs, p.lits ++ q.lits, q.rest⟩

theorem Emits.trans {ws' : List Word} {q : ParsedBlock} (h : Emits s t ws p) (h' : Emits t u ws' q)
    (hb : t.build = s.build) (hw : t.wsel = s.wsel) (hh : t.hbits = s.hbits) : Emits s u (ws ++ ws') (p.append q) := by
  obtain ⟨hsig, hpred, hrank, hdict, henc, hcount, hentries, hranges, hreplay⟩ := h
  obtain ⟨hsig', hpred', hrank', hdict', henc', hcount', hentries', hranges', hreplay'⟩ := h'
  rw [hb, hw, hh] at *
  constructor
  case sigBuf => rw [hsig', hsig, List.append_assoc, ParsedBlock.append, signatureRun_append]
  case predBuf => rw [hpred', hpred, List.append_assoc, ParsedBlock.append, markerRun_append]
  case rankBuf => rw [hrank', hrank, List.append_assoc, ParsedBlock.append, List.flatMap_append]
  case dictBuf => rw [hdict', hdict, List.append_assoc, ParsedBlock.append, List.flatMap_append]
  case encBuf => rw [henc', henc, List.append_assoc, ParsedBlock.append, List.flatMap_append]
  case count => simp only [ParsedBlock.append, List.length_append, hcount, hcount']
  case entries =>
    simp only [ParsedBlock.append, List.length_append, List.count_append]
    omega
  case ranges =>
    simp only [ParsedBlock.append, List.forall_mem_append]
    obtain ⟨hm, hr, hd, hl⟩ := hranges
    obtain ⟨hm', hr', hd', hl'⟩ := hranges'
    exact ⟨⟨hm, hm'⟩, ⟨hr, hr'⟩, ⟨hd, hd'⟩, ⟨hl, hl'⟩⟩
  case replay =>
    obtain ⟨hm, hr, hd, hl⟩ := hentries
    rw [List.flatMap_append]
    exact reconstruct_append hreplay hreplay' hm hr hd hl

/-! ### The three kinds of word -/

/-- R194, R216. -/
theorem signWord_emits_escaped (hb : s.bstate = .escaped) (hw : w.toNat < 2 ^ wordBits s.wsel) :
    Emits s (s.signWord w) [w] ⟨[.esc], [], [], [], [w], []⟩ := by
  rw [State.signWord, routeWord_of_escaped hb, appendSignature_esc]
  constructor <;>
  simp [signatureRun, markerRun, reconstruct, Replay.emit, State.appendEscaped, hw]

/-- R193, R215: the reference is the literal's hash. -/
theorem signWord_emits_miss (hb : s.bstate = .predicting) (hhb : s.hbits.toNat ≤ 16)
    (hmiss : w ∉ s.dict.list (s.hash w)) (hw : w.toNat < 2 ^ wordBits s.wsel) :
    Emits s (s.signWord w) [w] ⟨[.miss], [], [], [s.hash w], [w], []⟩ := by
  have hbucket : s.hash w < 2 ^ s.hbits.toNat := hashOf_lt _ _ _ _ (le_wordBits_of_le_sixteen hhb s.wsel)
  rw [State.signWord, routeWord_of_miss hb hmiss, appendSignature_miss]
  constructor
  case replay => simp [reconstruct, Replay.emit, State.hash]
  all_goals simp [signatureRun, markerRun, hw, hbucket]

/-- R191, R214: the rank is below the occupancy, so that it names a rank of the code table. -/
theorem signWord_emits_hit (hb : s.bstate = .predicting) (hhb : s.hbits.toNat ≤ 16)
    (hr : findRank (s.dict.list (s.hash w)) w = some r) (hocc : s.dict.occ (s.hash w) ≤ 256) :
    Emits s (s.signWord w) [w] ⟨[.hit], [markerOf (s.hash w) s.lastb.toNat], [r], [], [], []⟩ := by
  have hbucket : s.hash w < 2 ^ s.hbits.toNat := hashOf_lt _ _ _ _ (le_wordBits_of_le_sixteen hhb s.wsel)
  have hrank : r < 256 := (findRank_lt _ _ _ hr).trans_le hocc
  rw [State.signWord, routeWord_of_hit hb hr, appendSignature_hit]
  constructor
  case predBuf => simp [markerRun_eq, markerBits_markerOf]
  case ranges =>
    refine ⟨fun k hk b hkb => ?_, by simpa using hrank, by simp, by simp⟩
    rw [List.mem_singleton.1 hk, markerOf] at hkb
    split at hkb
    · exact nomatch hkb
    · exact Option.some.inj hkb ▸ hbucket
  case replay => simp [reconstruct, markerOf_getD, replayHit_of_findRank hr, Replay.emit]
  all_goals simp [signatureRun]

/-- What holds of an encoder while words are fed to it, whatever its flags: the build is legal, a bucket has at most 16 bits
and the dictionary is sound. -/
structure Feedable (s : State) : Prop where
  legal : BuildLegal s.build
  hbits : s.hbits.toNat ≤ 16
  sound : s.dict.Sound s.build s.wsel s.hbits.toNat

/-- R166: the window check writes no stream. -/
theorem Emits.enterWord (h : Emits s (s.signWord w) ws p) : Emits s (s.enterWord w) ws p := by
  rw [enterWord_eq_signWord]
  obtain ⟨-, -, e⟩ | ⟨-, e⟩ := windowCheck_cases (s.signWord w) <;> rw [e]
  · exact { h with }
  · exact h

theorem enterWord_emits (h : Feedable s) (hw : w.toNat < 2 ^ wordBits s.wsel) : ∃ p, Emits s (s.enterWord w) [w] p := by
  obtain ⟨hb, -⟩ | ⟨hb, r, hr, -⟩ | ⟨hb, hr, -⟩ := routeWord_cases s w
  · exact ⟨_, (signWord_emits_escaped hb hw).enterWord⟩
  · have hocc : s.dict.occ (s.hash w) ≤ 256 := (h.sound.occ _).trans h.legal.depth.2
    exact ⟨_, (signWord_emits_hit hb h.hbits hr hocc).enterWord⟩
  · exact ⟨_, (signWord_emits_miss hb h.hbits ((findRank_none _ w).1 hr) hw).enterWord⟩

/-- R83: a value that fits the word width is the operand it is read as. -/
theorem wordOperand_of_lt {wsel : WordSel} (h : w.toNat < 2 ^ wordBits wsel) : wordOperand wsel w = w :=
  BitVec.eq_of_toNat_eq (by rw [wordOperand_toNat, Nat.mod_eq_of_lt h])

theorem Feedable.enterWord (h : Feedable s) (hw : w.toNat < 2 ^ wordBits s.wsel) : Feedable (s.enterWord w) where
  legal := by rw [enterWord_build]; exact h.legal
  hbits := by rw [enterWord_hbits]; exact h.hbits
  sound := by
    have hsound := sound_enterWord h.legal h.sound w
    rwa [wordOperand_of_lt hw, ← enterWord_build s w, ← enterWord_wsel w, ← enterWord_hbits w] at hsound

/-- R221: the words of a block as its entities. -/
theorem feed_emits (h : Feedable s) (hws : ∀ w ∈ ws, w.toNat < 2 ^ wordBits s.wsel) : ∃ p, Emits s (s.feed ws) ws p := by
  induction ws generalizing s with
  | nil => exact ⟨_, Emits.nil s⟩
  | cons w ws ih =>
    obtain ⟨hw, hws⟩ := List.forall_mem_cons.1 hws
    obtain ⟨p, hp⟩ := enterWord_emits h hw
    obtain ⟨q, hq⟩ := ih (h.enterWord hw) (by rwa [enterWord_wsel])
    exact ⟨_, hp.trans hq (enterWord_build s w) (enterWord_wsel w) (enterWord_hbits w)⟩

/-! ### The block at the decoder -/

/-- R170, R240: nothing is in the block yet. -/
structure BlockStart (s : State) : Prop where
  sigCount : s.sigCount = 0
  buffers : s.sigBuf = [] ∧ s.predBuf = [] ∧ s.rankBuf = [] ∧ s.dictBuf = [] ∧ s.encBuf = []

/-- R221: the decoder `d` stands where the encoder `s` stands: the same configuration, dictionary and LASTB. -/
structure InStep (s d : State) : Prop where
  build : d.build = s.build
  wsel : d.wsel = s.wsel
  hbits : d.hbits = s.hbits
  dict : d.dict = s.dict
  lastb : d.lastb = s.lastb

/-- R197, R210 to R213: the serialized block parses to its entities. -/
theorem parse_of_emits (start : BlockStart s) (h : Emits s u ws p) (hcount : u.sigCount.toNat = ws.length)
    (ht : tableLegal s.build.codeTable) (step : InStep s d) (hexp : d.expectedCount = ws.length) {more : List Byte}
    (hrem : d.remaining = u.serializeBlock ++ more) : d.parse = some { p with rest := more } := by
  obtain ⟨-, hsig, hpred, hrank, hdict, henc⟩ := start
  obtain ⟨hsig', hpred', hrank', hdict', henc', hlen, hentries, hranges, -⟩ := h
  rw [State.parse_eq_some_iff_holdsBlock (step.build ▸ ht), State.holdsBlock, step.build, step.wsel, step.hbits, hexp, hrem]
  simp only [hsig, hpred, hrank, hdict, henc, List.nil_append] at hsig' hpred' hrank' hdict' henc'
  refine ⟨pad u.sigBuf, pad u.predBuf, pad u.rankBuf, pad u.dictBuf, ?_, hlen, hentries, hranges, ?_, ?_, ?_, ?_⟩
  · rw [State.serializeBlock, hcount, henc']
    rfl
  · exact hsig' ▸ (pad_packs _).carries
  · exact hpred' ▸ (pad_packs _).carries
  · exact hrank' ▸ (pad_packs _).carries
  · exact hdict' ▸ (pad_packs _).carries

/-- R214 to R216: its entities reconstruct to the words, and to the encoder's dictionary and LASTB. -/
theorem rebuild_of_emits (h : Emits s u ws p) (step : InStep s d) (more : List Byte) :
    d.rebuild { p with rest := more } = some ⟨u.dict, u.lastb, ws.flatMap (wordLe s.wsel)⟩ := by
  rw [State.rebuild, step.build, step.wsel, step.hbits, step.dict, step.lastb]
  exact h.replay

theorem flatMap_wordLe_length (w : WordSel) (ws : List Word) : (ws.flatMap (wordLe w)).length = ws.length * wordBytes w := by
  simp [List.length_flatMap]

/-- R221, R218: DEC_BLOCK on the serialized block of the words `ws`, but for the BLK_* counters. -/
theorem exec_decBlock_of_feed (h : Feedable s) (start : BlockStart s) (hws : ∀ w ∈ ws, w.toNat < 2 ^ wordBits s.wsel)
    (hlen : ws.length ≤ 4096) (ready : DecReady d) (step : InStep s d) (hexp : d.expectedCount = ws.length)
    (hfits : ws.length * wordBytes s.wsel ≤ d.outAvail.toNat) {more : List Byte}
    (hrem : d.remaining = (s.feed ws).serializeBlock ++ more) :
    ∃ t, exec .decBlock d = .next t ∧ t =
      { d with
        dict := (s.feed ws).dict
        lastb := (s.feed ws).lastb
        inPos := satAdd d.inPos (s.feed ws).serializeBlock.length
        out := d.out ++ ws.flatMap (wordLe s.wsel)
        outPos := satAdd d.outPos (ws.length * wordBytes s.wsel)
        outAvail := d.outAvail - BitVec.ofNat 64 (ws.length * wordBytes s.wsel)
        decRemain := d.decRemain - BitVec.ofNat 64 ws.length
        blkCnt := satAdd d.blkCnt 1
        wordCnt := satAdd d.wordCnt ws.length
        blkHits := t.blkHits
        blkMisses := t.blkMisses
        blkEscs := t.blkEscs
        resp := ⟨.ok, true, BitVec.ofNat 64 ws.length⟩ } := by
  have hcount := feed_sigCount_of_empty start.sigCount hlen
  obtain ⟨p, hp⟩ := feed_emits h hws
  have hparse := parse_of_emits start hp hcount h.legal.table step hexp hrem
  have hrebuild := rebuild_of_emits hp step more
  have hread : d.cursor.rest.length - more.length = (s.feed ws).serializeBlock.length := by
    rw [State.cursor_eq, hrem, List.length_append, Nat.add_sub_cancel]
  have hexec := exec_decBlock_of_rebuild ready hparse hrebuild
  rw [if_pos (by rw [hp.count, step.wsel]; exact hfits)] at hexec
  refine ⟨_, hexec, ?_⟩
  simp only [State.commit, State.respond, State.outWrite, flatMap_wordLe_length, hread, hp.count]

theorem DictInv.feedable (h : DictInv s) (hr : RegInv s) (hi : s.init = true) : Feedable s :=
  ⟨h.legal, (hr.hbits hi).2.trans h.legal.hashBits.2, h.sound hi⟩

theorem sub_ofNat_toNat {n : Nat} {x : BitVec 64} (h : n ≤ x.toNat) : (x - BitVec.ofNat 64 n).toNat = x.toNat - n := by
  have := x.isLt
  rw [BitVec.toNat_sub, BitVec.toNat_ofNat]
  omega

theorem ne_zero_of_toNat_pos {n : Nat} {x : BitVec n} (h : 0 < x.toNat) : x ≠ 0 := fun h0 => by simp [h0] at h

/-- Settles O45: the streams that the words leave parse to entities whose replay is the encoder's own predictions. -/
theorem blockDecodesToItsWords : Obligations.BlockDecodesToItsWords := by
  rintro s u d ws more hreg hdict hi - hcount hsig hpred hrank hdictBuf henc - hlen hws rfl ready hbuild hwsel hhbits
    hd hl hin hinput hpos hrem hfits
  have hremaining : d.remaining = (s.feed ws).serializeBlock ++ more := by
    rw [State.remaining, State.inputView, hin, ← hinput]
    rfl
  obtain ⟨t, hexec, ht⟩ := exec_decBlock_of_feed (hdict.feedable hreg hi) ⟨hcount, hsig, hpred, hrank, hdictBuf, henc⟩
    hws hlen ready ⟨hbuild, hwsel, hhbits, hd, hl⟩ hrem hfits hremaining
  refine ⟨t, hexec, ?_⟩
  rw [ht]
  dsimp only
  exact ⟨rfl, rfl, rfl, satAdd_toNat_of_lt _ _ hpos, sub_ofNat_toNat (by omega), rfl⟩

end Sys2Proof.Machine
end

section
/-! SUPPORT. The encoder's command sequence (00_scope.md R13; 30_encoding.md R93): what each command of it does to a block
that is ready, whatever the time and the last response, and the blocks that the words of a buffer leave in OUT. -/

namespace Sys2Proof.Machine

variable {s t u : State} {w : Word} {ws : List Word} {i : Instr}

/-! ### The block at a later time -/

/-- The same block after other actions of the host, with another response. -/
def State.later (s : State) (n : Nat) (r : Response) : State := { s with tick := n, resp := r }

section
variable (s : State) (n : Nat) (r : Response)

@[simp] theorem State.later_bstate : (s.later n r).bstate = s.bstate := rfl
@[simp] theorem State.later_dict : (s.later n r).dict = s.dict := rfl
@[simp] theorem State.later_sigCount : (s.later n r).sigCount = s.sigCount := rfl
@[simp] theorem State.later_outAvail : (s.later n r).outAvail = s.outAvail := rfl
@[simp] theorem State.later_tailRem : (s.later n r).tailRem = s.tailRem := rfl
@[simp] theorem State.later_wsel : (s.later n r).wsel = s.wsel := rfl
@[simp] theorem State.later_hash (w : Word) : (s.later n r).hash w = s.hash w := rfl
@[simp] theorem State.later_windowDue : (s.later n r).windowDue = s.windowDue := rfl
@[simp] theorem State.later_gainTooSmall : (s.later n r).gainTooSmall = s.gainTooSmall := rfl
@[simp] theorem State.later_serializeBlock : (s.later n r).serializeBlock = s.serializeBlock := rfl

theorem State.later_later (m : Nat) (q : Response) : (s.later m q).later n r = s.later n r := rfl

theorem State.later_appendSignature (g : Signature) :
    (s.later n r).appendSignature g = (s.appendSignature g).later n r := rfl

theorem State.later_predict (w : Word) : (s.later n r).predict w = ((s.predict w).1.later n r, (s.predict w).2) := by
  simp only [State.predict, State.later_hash, State.later_dict]
  cases findRank (s.dict.list (s.hash w)) w <;> rfl

theorem State.later_routeWord (w : Word) :
    (s.later n r).routeWord w = ((s.routeWord w).1.later n r, (s.routeWord w).2) := by
  simp only [State.routeWord, State.later_bstate, State.later_predict]
  cases s.bstate with
  | escaped => rfl
  | predicting =>
    obtain ⟨u, outcome⟩ := s.predict w
    cases outcome <;> rfl

theorem State.later_windowCheck : (s.later n r).windowCheck = (s.windowCheck.1.later n r, s.windowCheck.2) := by
  unfold State.windowCheck
  rw [State.later_windowDue, State.later_gainTooSmall]
  cases s.windowDue && s.gainTooSmall <;> rfl

@[simp] theorem State.later_enterWord (w : Word) : (s.later n r).enterWord w = (s.enterWord w).later n r := by
  simp only [State.enterWord, State.later_routeWord, State.later_appendSignature, State.later_windowCheck]

@[simp] theorem State.later_feed (ws : List Word) : (s.later n r).feed ws = (s.feed ws).later n r := by
  induction ws generalizing s with
  | nil => rfl
  | cons w ws ih => rw [feed_cons, feed_cons, State.later_enterWord, ih]

end

/-! ### One command, and a sequence of them -/

/-- R20: the host's action is one step, which leaves the rest of the port alone. -/
theorem act_of_runAction {a : HostAction} (h : runAction a (s.later (s.tick + 1) s.resp) = .next t) : s.act a = t := by
  have hstep : step { s with port := a :: s.port } = .next t := (step_of_port rfl).trans h
  rw [State.act, hstep]

theorem issue_of_exec (h : exec i (s.later (s.tick + 1) s.resp) = .next t) : s.issue i = t :=
  act_of_runAction ((runCommand_of_ok (decodeOfEncodedInstruction i) _).trans h)

theorem issueAll_cons_of_ok (h : s.issue i = t) (ht : t.resp.status = .ok) (is : List Instr) :
    s.issueAll (i :: is) = t.issueAll is := by
  rw [State.issueAll, h, firstFailure, if_pos ht]

theorem issueAll_append_of_ok {is : List Instr} (h : s.issueAll is = (t, .ok)) (is' : List Instr) :
    s.issueAll (is ++ is') = t.issueAll is' := by
  induction is generalizing s with
  | nil =>
    obtain ⟨rfl, -⟩ := Prod.mk.inj h
    rfl
  | cons i is ih =>
    rw [State.issueAll] at h
    obtain ⟨h1, h2⟩ := Prod.mk.inj h
    rw [firstFailure] at h2
    split at h2
    · rename_i hok
      rw [List.cons_append, issueAll_cons_of_ok rfl hok]
      exact ih (Prod.ext h1 h2)
    · rename_i hne
      exact absurd h2 hne

theorem issueAll_singleton_of_ok (h : s.issue i = t) (ht : t.resp.status = .ok) : s.issueAll [i] = (t, .ok) :=
  issueAll_cons_of_ok h ht []

/-! ### ENC_WORD and ENC_FINISH on a ready block -/

/-- R170: the block goes to OUT and a new one begins. -/
def State.flushBlock (s : State) : State := (s.outWrite s.serializeBlock).blockReset

theorem EncReady.later (ready : EncReady s) (n : Nat) (r : Response) : EncReady (s.later n r) := { ready with }

theorem EncReady.enterWord (ready : EncReady s) (w : Word) : EncReady (s.enterWord w) where
  init := by rw [enterWord_init]; exact ready.init
  fault := by rw [enterWord_fault]; exact ready.fault
  mode := by rw [enterWord_mode]; exact ready.mode
  finished := by rw [enterWord_finished]; exact ready.finished
  pending := by rw [enterWord_flushPending]; exact ready.pending

@[simp] theorem enterWord_outAvail (s : State) (w : Word) : (s.enterWord w).outAvail = s.outAvail := by rw [enterWord_eq]

/-- R161, R93: a word of its width, entered at a ready block. -/
theorem issue_encWord (ready : EncReady s) (hw : w.toNat < 2 ^ wordBits s.wsel) : ∃ n r o escNow,
    s.issue (.encWord w) = ((s.enterWord w).later n r).closeWord o escNow := by
  have hexec := exec_encWord_of_ready (ready.later (s.tick + 1) s.resp) w
  rw [State.later_wsel, wordOperand_of_lt hw, acceptWord_eq, State.later_enterWord] at hexec
  exact ⟨_, _, _, _, issue_of_exec hexec⟩

theorem issue_encWord_of_room (ready : EncReady s) (hw : w.toNat < 2 ^ wordBits s.wsel)
    (room : (s.enterWord w).sigCount.toNat ≠ 4096) :
    ∃ n r, r.status = .ok ∧ s.issue (.encWord w) = (s.enterWord w).later n r := by
  obtain ⟨n, r, o, escNow, h⟩ := issue_encWord ready hw
  rw [closeWord_of_room (s := (s.enterWord w).later n r) room] at h
  exact ⟨n, _, rfl, h⟩

theorem issue_encWord_of_full (ready : EncReady s) (hw : w.toNat < 2 ^ wordBits s.wsel)
    (full : (s.enterWord w).sigCount.toNat = 4096)
    (hfits : (s.enterWord w).serializeBlock.length ≤ s.outAvail.toNat) :
    ∃ n r, r.status = .ok ∧ s.issue (.encWord w) = (s.enterWord w).flushBlock.later n r := by
  obtain ⟨n, r, o, escNow, h⟩ := issue_encWord ready hw
  have hfits' : ((s.enterWord w).later n r).serializeBlock.length ≤ ((s.enterWord w).later n r).outAvail.toNat := by
    simpa using hfits
  rw [closeWord_of_full (s := (s.enterWord w).later n r) full, flushOrPend_of_fits hfits', if_pos rfl] at h
  exact ⟨n, _, rfl, h⟩

/-- R175: the last block is flushed where there is one. -/
theorem issue_encFinish (ready : EncReady s) (hfits : s.sigCount ≠ 0 → s.serializeBlock.length ≤ s.outAvail.toNat) :
    ∃ n r, r.status = .ok ∧ s.issue .encFinish =
      (if s.sigCount = 0 then s.declareEnd else s.declareEnd.flushBlock).later n r := by
  have ready' := ready.later (s.tick + 1) s.resp
  by_cases hc : s.sigCount = 0
  · rw [if_pos hc]
    exact ⟨_, _, rfl, issue_of_exec (exec_encFinish_of_empty ready' hc)⟩
  · rw [if_neg hc]
    have hfits' : (s.later (s.tick + 1) s.resp).declareEnd.serializeBlock.length ≤
        (s.later (s.tick + 1) s.resp).declareEnd.outAvail.toNat := hfits hc
    have hexec := exec_encFinish_of_partial ready' hc
    rw [flushOrPend_of_fits hfits', if_pos rfl] at hexec
    exact ⟨_, _, rfl, issue_of_exec hexec⟩

/-! ### The words of one block -/

/-- The commands that enter the words (R93). -/
def encWords (ws : List Word) : List Instr := ws.map .encWord

theorem encWords_append (ws ws' : List Word) : encWords (ws ++ ws') = encWords ws ++ encWords ws' := List.map_append

theorem feed_append (s : State) (ws ws' : List Word) : s.feed (ws ++ ws') = (s.feed ws).feed ws' := by
  induction ws generalizing s with
  | nil => rfl
  | cons w ws ih => exact ih _

/-- What every entered word leaves as it is, feeding words leaves as it is. -/
theorem feed_keeps {α : Type} (f : State → α) (h : ∀ s w, f (s.enterWord w) = f s) (s : State) (ws : List Word) :
    f (s.feed ws) = f s := by
  induction ws generalizing s with
  | nil => rfl
  | cons w ws ih => exact (ih (s.enterWord w)).trans (h s w)

@[simp] theorem feed_build (s : State) (ws : List Word) : (s.feed ws).build = s.build :=
  feed_keeps State.build enterWord_build s ws
@[simp] theorem feed_wsel (s : State) (ws : List Word) : (s.feed ws).wsel = s.wsel :=
  feed_keeps State.wsel (fun _ w => enterWord_wsel w) s ws
@[simp] theorem feed_hbits (s : State) (ws : List Word) : (s.feed ws).hbits = s.hbits :=
  feed_keeps State.hbits (fun _ w => enterWord_hbits w) s ws
@[simp] theorem feed_out (s : State) (ws : List Word) : (s.feed ws).out = s.out :=
  feed_keeps State.out enterWord_out s ws
@[simp] theorem feed_outAvail (s : State) (ws : List Word) : (s.feed ws).outAvail = s.outAvail :=
  feed_keeps State.outAvail enterWord_outAvail s ws
@[simp] theorem feed_tailDone (s : State) (ws : List Word) : (s.feed ws).tailDone = s.tailDone :=
  feed_keeps State.tailDone (fun _ w => enterWord_tailDone w) s ws

theorem EncReady.feed (ready : EncReady s) (ws : List Word) : EncReady (s.feed ws) := by
  induction ws generalizing s with
  | nil => exact ready
  | cons w ws ih => exact ih (ready.enterWord w)

theorem Feedable.feed (h : Feedable s) (hws : ∀ w ∈ ws, w.toNat < 2 ^ wordBits s.wsel) : Feedable (s.feed ws) := by
  induction ws generalizing s with
  | nil => exact h
  | cons w ws ih =>
    obtain ⟨hw, hws⟩ := List.forall_mem_cons.1 hws
    rw [← enterWord_wsel w] at hws
    exact ih (h.enterWord hw) hws

/-- R161, R93: the words of a block that they do not fill. -/
theorem issueAll_encWords_of_room (ready : EncReady s) (hws : ∀ w ∈ ws, w.toNat < 2 ^ wordBits s.wsel)
    (room : s.sigCount.toNat + ws.length < 4096) : ∃ n r, s.issueAll (encWords ws) = ((s.feed ws).later n r, .ok) := by
  induction ws generalizing s with
  | nil => exact ⟨s.tick, s.resp, rfl⟩
  | cons w ws ih =>
    obtain ⟨hw, hws⟩ := List.forall_mem_cons.1 hws
    rw [List.length_cons] at room
    have hcount := enterWord_sigCount_toNat (s := s) (by omega) w
    obtain ⟨n, r, hr, hissue⟩ := issue_encWord_of_room ready hw (by omega)
    obtain ⟨n', r', hall⟩ := ih (s := (s.enterWord w).later n r) ((ready.enterWord w).later n r)
      (by simpa using hws) (by simp only [State.later_sigCount]; omega)
    refine ⟨n', r', ?_⟩
    rw [State.later_feed, State.later_later] at hall
    exact (issueAll_cons_of_ok hissue hr _).trans hall

/-- R161, R168, R93: the words that fill a block. -/
theorem issueAll_encWords_of_full (ready : EncReady s) (hws : ∀ w ∈ ws, w.toNat < 2 ^ wordBits s.wsel)
    (hcount : s.sigCount = 0) (full : ws.length = 4096)
    (hfits : (s.feed ws).serializeBlock.length ≤ s.outAvail.toNat) :
    ∃ n r, s.issueAll (encWords ws) = ((s.feed ws).flushBlock.later n r, .ok) := by
  obtain rfl | ⟨ws, w, rfl⟩ := List.eq_nil_or_concat ws
  · exact nomatch full
  rw [List.length_concat] at full
  have hzero : s.sigCount.toNat = 0 := by rw [hcount]; rfl
  rw [List.concat_eq_append, List.forall_mem_append, List.forall_mem_singleton] at hws
  obtain ⟨hws, hw⟩ := hws
  rw [List.concat_eq_append, feed_append, feed_cons, feed_nil] at hfits ⊢
  obtain ⟨n, r, hinit⟩ := issueAll_encWords_of_room ready hws (by omega)
  have hlast := feed_sigCount_of_empty (ws := ws) hcount (by omega)
  obtain ⟨n', r', hr, hissue⟩ := issue_encWord_of_full (s := (s.feed ws).later n r) (w := w)
    ((ready.feed ws).later n r) (by simpa using hw)
    (by rw [State.later_enterWord, State.later_sigCount, enterWord_sigCount_toNat (by omega)]; omega)
    (by simpa using hfits)
  refine ⟨n', r', ?_⟩
  rw [encWords_append, issueAll_append_of_ok hinit]
  rw [State.later_enterWord] at hissue
  exact issueAll_singleton_of_ok hissue hr

/-! ### The size of a block -/

/-- R161: what holds of the block of an encoder that has entered at least one word, its flush taken as pending. -/
theorem BlockInv.feed (h : BlockInv s) (ready : EncReady s) (hne : ws ≠ [])
    (hlen : s.sigCount.toNat + ws.length ≤ 4096) : BlockInv { s.feed ws with flushPending := true } := by
  induction ws generalizing s with
  | nil => exact absurd rfl hne
  | cons w ws ih =>
    have hw := h.enterWord ready w
    cases ws with
    | nil => exact hw
    | cons w' ws =>
      rw [List.length_cons, List.length_cons] at hlen
      have hcount := enterWord_sigCount_toNat (s := s) (by omega) w
      have ready' := ready.enterWord w
      have hroom : (s.enterWord w).sigCount.toNat ≠ 4096 := by omega
      have hrest : (s.enterWord w).sigCount.toNat + (w' :: ws).length ≤ 4096 := by rw [List.length_cons]; omega
      rw [feed_cons]
      exact ih (hw.of_pended hroom ready'.mode ready'.pending ready'.finished) ready' (List.cons_ne_nil _ _) hrest

/-- R169: a block of n words of at most 8 bytes and buckets of at most 16 bits has at most 18n bytes. -/
theorem feed_serializeBlock_length_le (h : BlockInv s) (ready : EncReady s) (hcount : s.sigCount = 0)
    (hhb : s.hbits.toNat ≤ 16) (hne : ws ≠ []) (hlen : ws.length ≤ 4096) :
    (s.feed ws).serializeBlock.length ≤ 18 * ws.length := by
  have hzero : s.sigCount.toNat = 0 := by rw [hcount]; rfl
  have hn := feed_sigCount_of_empty hcount hlen
  have hpos := List.length_pos_iff.2 hne
  have hbound := (h.feed ready hne (by omega)).serializeBlock_length_le (ready.feed ws).mode
  change (s.feed ws).serializeBlock.length ≤ (s.feed ws).sigCount.toNat * wordBytes (s.feed ws).wsel + 2 +
    ceil8 ((s.feed ws).sigCount.toNat * (2 + (s.feed ws).hbits.toNat)) + 4 at hbound
  rw [hn, feed_wsel, feed_hbits] at hbound
  have hwords : ws.length * wordBytes s.wsel ≤ ws.length * 8 := Nat.mul_le_mul_left _ (wordBytes_le_eight s.wsel)
  have hbits : ws.length * (2 + s.hbits.toNat) ≤ ws.length * 18 := Nat.mul_le_mul_left _ (by omega)
  unfold ceil8 at hbound
  omega

end Sys2Proof.Machine
end

section
/-! SUPPORT. The round trip (45_decoder.md R221; 00_scope.md R13): the blocks that the words of a buffer leave in OUT are what
`dec.all` turns back into the words, block by block, and the tail follows them on both sides. -/

namespace Sys2Proof.Machine

variable {s t u d : State} {ws block rest : List Word} {blocks more : List Byte}

/-! ### Decoding blocks -/

/-- The decoder `d` is ready for `n` words: it stands where the encoder `s` stood, before the bytes `blocks` of IN, with
capacity for the words. -/
structure DecodeStart (s d : State) (n : Nat) (blocks more : List Byte) : Prop where
  step : InStep s d
  context : d.init = true ∧ d.fault = false ∧ d.mode = .dec
  stable : d.inChanged = false
  remain : d.decRemain.toNat = n
  stream : d.remaining = blocks ++ more
  position : d.inPos.toNat + blocks.length < 2 ^ 64
  room : n * wordBytes s.wsel ≤ d.outAvail.toNat

/-- The decoder has gone from `d` to `t`: the words are in OUT, and only the tail is left to copy. -/
structure DecodeEnd (s d t : State) (ws : List Word) (more : List Byte) : Prop where
  out : t.out = d.out ++ ws.flatMap (wordLe s.wsel)
  context : t.init = true ∧ t.fault = false ∧ t.mode = .dec
  stable : t.inChanged = false
  remain : t.decRemain = 0
  stream : t.remaining = more
  tail : t.tailRem = d.tailRem ∧ t.tailDone = d.tailDone
  room : t.outAvail.toNat = d.outAvail.toNat - ws.length * wordBytes s.wsel

/-- R93, R221: `dec.all` turns the bytes into the words, from wherever the encoder `s` stood. -/
def Decodes (s : State) (blocks : List Byte) (ws : List Word) : Prop :=
  ∀ d more, DecodeStart s d ws.length blocks more →
    ∃ t, d.decodeBlocks d.blocksLeft = (t, .ok) ∧ DecodeEnd s d t ws more

theorem decodes_nil (s : State) : Decodes s [] [] := by
  rintro d more ⟨-, context, stable, remain, stream, -, -⟩
  have hzero : d.decRemain = 0 := BitVec.eq_of_toNat_eq remain
  have hblocks : d.blocksLeft = 0 := by rw [State.blocksLeft, remain]; rfl
  exact ⟨d, by rw [hblocks]; rfl, by simp, context, stable, hzero, stream, ⟨rfl, rfl⟩, by simp⟩

/-- R37, R296: where IN was not changed, what is left of it. -/
theorem State.remaining_of_stable (h : d.inChanged = false) : d.remaining = d.input.drop d.inPos.toNat := by
  rw [State.remaining, State.inputView, h]
  rfl

theorem State.later_remaining (h : d.inChanged = false) (n : Nat) (r : Response) :
    (d.later n r).remaining = d.remaining :=
  (State.remaining_of_stable (d := d.later n r) h).trans (State.remaining_of_stable h).symm

theorem State.blocksLeft_eq (d : State) : d.blocksLeft = (d.decRemain.toNat + 4095) / 4096 := rfl

/-- R93: one round of `dec.all`. -/
theorem decodeBlocks_succ (hremain : d.decRemain ≠ 0) (hissue : d.issue .decBlock = t) (hok : t.resp.status = .ok)
    (n : Nat) : d.decodeBlocks (n + 1) = t.decodeBlocks n := by
  rw [State.decodeBlocks, if_neg hremain, hissue, if_pos hok]

/-- R210, R221: one block of the stream. -/
theorem DecodeStart.decBlock (h : Feedable s) (empty : BlockStart s) (hws : ∀ w ∈ block, w.toNat < 2 ^ wordBits s.wsel)
    (hne : block ≠ []) (hlen : block.length ≤ 4096) (hfull : block.length = 4096 ∨ rest = [])
    (start : DecodeStart s d (block ++ rest).length ((s.feed block).serializeBlock ++ blocks) more) :
    ∃ t, d.issue .decBlock = t ∧ t.resp.status = .ok ∧ t.out = d.out ++ block.flatMap (wordLe s.wsel) ∧
      t.tailRem = d.tailRem ∧ t.tailDone = d.tailDone ∧
      t.outAvail.toNat = d.outAvail.toNat - block.length * wordBytes s.wsel ∧
      DecodeStart (s.feed block) t rest.length blocks more := by
  obtain ⟨⟨hbuild, hwsel, hhbits, hdict, hlastb⟩, ⟨hi, hf, hm⟩, stable, remain, stream, position, room⟩ := start
  have hpos := List.length_pos_iff.2 hne
  rw [List.length_append] at remain room position
  rw [Nat.add_mul] at room
  rw [List.append_assoc] at stream
  have hexp : d.expectedCount = block.length := by
    rw [State.expectedCount, remain]
    obtain hfull | rfl := hfull
    · rw [hfull]; exact Nat.min_eq_left (Nat.le_add_right _ _)
    · exact Nat.min_eq_right hlen
  have hready : DecReady d := ⟨hi, hf, hm, ne_zero_of_toNat_pos (by omega)⟩
  obtain ⟨t, hexec, ht⟩ := exec_decBlock_of_feed (d := d.later (d.tick + 1) d.resp) h empty hws hlen { hready with }
    ⟨hbuild, hwsel, hhbits, hdict, hlastb⟩ hexp (Nat.le_trans (Nat.le_add_right _ _) room)
    ((State.later_remaining stable _ _).trans stream)
  have hinPos : t.inPos.toNat = d.inPos.toNat + (s.feed block).serializeBlock.length := by
    rw [ht]
    dsimp only [State.later]
    exact satAdd_toNat_of_lt _ _ (by omega)
  have houtAvail : t.outAvail.toNat = d.outAvail.toNat - block.length * wordBytes s.wsel := by
    rw [ht]
    exact sub_ofNat_toNat (x := d.outAvail) (by omega)
  have hdecRemain : t.decRemain.toNat = rest.length := by
    rw [ht]
    exact (sub_ofNat_toNat (x := d.decRemain) (by omega)).trans (by omega)
  have hinput : t.input = d.input := by rw [ht]; rfl
  have hstable : t.inChanged = false := by rw [ht]; exact stable
  refine ⟨t, issue_of_exec hexec, by rw [ht], by rw [ht]; rfl, by rw [ht]; rfl, by rw [ht]; rfl, houtAvail, ?_⟩
  constructor
  case step =>
    rw [ht]
    exact ⟨hbuild.trans (feed_build s block).symm, hwsel.trans (feed_wsel s block).symm,
      hhbits.trans (feed_hbits s block).symm, rfl, rfl⟩
  case context => rw [ht]; exact ⟨hi, hf, hm⟩
  case stable => exact hstable
  case remain => exact hdecRemain
  case stream =>
    rw [State.remaining_of_stable hstable, hinput, hinPos, ← List.drop_drop, ← State.remaining_of_stable stable,
      stream, List.drop_left]
  case position => omega
  case room => rw [houtAvail, feed_wsel]; omega

/-- R221, block by block: every block but the last is full. -/
theorem decodes_append (h : Feedable s) (empty : BlockStart s) (hws : ∀ w ∈ block, w.toNat < 2 ^ wordBits s.wsel)
    (hne : block ≠ []) (hlen : block.length ≤ 4096) (hfull : block.length = 4096 ∨ rest = [])
    (hrest : Decodes (s.feed block) blocks rest) :
    Decodes s ((s.feed block).serializeBlock ++ blocks) (block ++ rest) := by
  intro d more start
  have hremain := start.remain
  rw [List.length_append] at hremain
  have hpos := List.length_pos_iff.2 hne
  obtain ⟨t, hissue, hok, hout, htailRem, htailDone, houtAvail, start'⟩ := start.decBlock h empty hws hne hlen hfull
  obtain ⟨v, hall, ⟨hout', context, stable, remain, stream, htail', hroom'⟩⟩ := hrest t more start'
  have hblocks : d.blocksLeft = t.blocksLeft + 1 := by
    rw [State.blocksLeft_eq, State.blocksLeft_eq, hremain, start'.remain]
    obtain hfull | rfl := hfull
    · omega
    · simp only [List.length_nil]
      omega
  have hne0 : d.decRemain ≠ 0 := ne_zero_of_toNat_pos (by omega)
  refine ⟨v, by rw [hblocks, decodeBlocks_succ hne0 hissue hok, hall], ?_, context, stable, remain, stream, ?_, ?_⟩
  · rw [hout', hout, feed_wsel, List.append_assoc, List.flatMap_append]
  · rwa [htailRem, htailDone] at htail'
  · rw [hroom', houtAvail, feed_wsel, List.length_append, Nat.add_mul]
    omega

/-! ### Encoding blocks -/

/-- The encoder accepts words and has entered none into its block. -/
structure BlockReady (s : State) : Prop where
  ready : EncReady s
  empty : EmptyBlock s
  feedable : Feedable s

theorem BlockReady.start (h : BlockReady s) : BlockStart s := ⟨h.empty.sigCount, h.empty.buffers⟩

theorem BlockReady.blockInv (h : BlockReady s) : BlockInv s :=
  h.empty.blockInv h.feedable.legal fun hd => not_dec_of_enc h.ready.mode hd

theorem BlockReady.flushBlock (h : BlockReady s) (hws : ∀ w ∈ ws, w.toNat < 2 ^ wordBits s.wsel) (n : Nat)
    (r : Response) : BlockReady ((s.feed ws).flushBlock.later n r) where
  ready := { h.ready.feed ws with pending := rfl }
  empty := ⟨rfl, rfl, rfl, ⟨rfl, rfl, rfl⟩, rfl, rfl, rfl, rfl, rfl⟩
  feedable := { h.feedable.feed hws with }

theorem BlockReady.serializeBlock_length_le (h : BlockReady s) (hne : ws ≠ []) (hlen : ws.length ≤ 4096) :
    (s.feed ws).serializeBlock.length ≤ 18 * ws.length :=
  feed_serializeBlock_length_le h.blockInv h.ready h.start.sigCount h.feedable.hbits hne hlen

@[simp] theorem flushBlock_wsel (s : State) : s.flushBlock.wsel = s.wsel := rfl

/-- R170, R66: what a flush leaves of the capacity. -/
theorem flushBlock_outAvail_toNat (h : s.serializeBlock.length ≤ s.outAvail.toNat) :
    s.flushBlock.outAvail.toNat = s.outAvail.toNat - s.serializeBlock.length := sub_ofNat_toNat h

/-- The encoder has gone from `s` to `t`, the end of its input declared: the blocks are in OUT, and the tail may follow. -/
structure EncodeEnd (s t : State) (n : Nat) (blocks : List Byte) : Prop where
  out : t.out = s.out ++ blocks
  length : blocks.length ≤ 18 * n
  context : t.init = true ∧ t.fault = false ∧ t.mode = .enc ∧ t.finished = true ∧ t.flushPending = false
  tail : t.tailDone = s.tailDone
  wsel : t.wsel = s.wsel
  room : s.outAvail.toNat ≤ t.outAvail.toNat + 18 * n

/-- R93, R175, R221: the words of the last block, which they do not fill, and ENC_FINISH. -/
theorem encode_last (h : BlockReady s) (hws : ∀ w ∈ ws, w.toNat < 2 ^ wordBits s.wsel) (hlen : ws.length < 4096)
    (room : 18 * ws.length ≤ s.outAvail.toNat) : ∃ blocks t,
    s.issueAll (encWords ws ++ [.encFinish]) = (t, .ok) ∧ EncodeEnd s t ws.length blocks ∧ Decodes s blocks ws := by
  have hzero : s.sigCount.toNat = 0 := by rw [h.start.sigCount]; rfl
  have hcount := feed_sigCount_of_empty h.start.sigCount hlen.le
  obtain ⟨n, r, hwords⟩ := issueAll_encWords_of_room h.ready hws (by omega)
  obtain ⟨hi, hf, hm, -, hp⟩ := h.ready.feed ws
  by_cases hne : ws = []
  · subst hne
    obtain ⟨n', r', hr, hfinish⟩ := issue_encFinish (h.ready.later n r) fun hc => absurd h.start.sigCount hc
    rw [State.later_sigCount, if_pos h.start.sigCount] at hfinish
    have hall := (issueAll_append_of_ok hwords [.encFinish]).trans (issueAll_singleton_of_ok hfinish hr)
    exact ⟨[], _, hall, ⟨(List.append_nil _).symm, Nat.zero_le _, ⟨hi, hf, hm, rfl, hp⟩, rfl, rfl, Nat.le_add_right _ _⟩,
      decodes_nil s⟩
  · have hsize := h.serializeBlock_length_le hne hlen.le
    have hfits : (s.feed ws).serializeBlock.length ≤ (s.feed ws).outAvail.toNat := by rw [feed_outAvail]; omega
    have hpos := List.length_pos_iff.2 hne
    have hc : ((s.feed ws).later n r).sigCount ≠ 0 := ne_zero_of_toNat_pos (by rw [State.later_sigCount]; omega)
    obtain ⟨n', r', hr, hfinish⟩ := issue_encFinish ((h.ready.feed ws).later n r) fun _ => hfits
    rw [if_neg hc] at hfinish
    have hall := (issueAll_append_of_ok hwords [.encFinish]).trans (issueAll_singleton_of_ok hfinish hr)
    refine ⟨(s.feed ws).serializeBlock, _, hall, ?_, ?_⟩
    · have havail := flushBlock_outAvail_toNat hfits
      rw [feed_outAvail] at havail
      refine ⟨congrArg (· ++ _) (feed_out s ws), hsize, ⟨hi, hf, hm, rfl, rfl⟩, feed_tailDone s ws, feed_wsel s ws, ?_⟩
      change s.outAvail.toNat ≤ (s.feed ws).flushBlock.outAvail.toNat + 18 * ws.length
      omega
    · have hdec := decodes_append h.feedable h.start hws hne hlen.le (.inr rfl) (decodes_nil (s.feed ws))
      rwa [List.append_nil, List.append_nil] at hdec

/-- The decoder knows of the encoder only what `InStep` compares. -/
theorem Decodes.of_inStep (h : Decodes t blocks ws) (step : InStep t s) : Decodes s blocks ws := by
  obtain ⟨hbuild, hwsel, hhbits, hdict, hlastb⟩ := step
  rintro d more ⟨⟨hb, hw, hh, hd, hl⟩, context, stable, remain, stream, position, room⟩
  obtain ⟨v, hall, hend⟩ := h d more ⟨⟨hb.trans hbuild, hw.trans hwsel, hh.trans hhbits, hd.trans hdict, hl.trans hlastb⟩,
    context, stable, remain, stream, position, hwsel ▸ room⟩
  exact ⟨v, hall, { hend with out := hwsel ▸ hend.out, room := hwsel ▸ hend.room }⟩

/-- R93, R221: the words of a buffer, block by block, and ENC_FINISH. -/
theorem encode_words (h : BlockReady s) (hws : ∀ w ∈ ws, w.toNat < 2 ^ wordBits s.wsel)
    (room : 18 * ws.length ≤ s.outAvail.toNat) : ∃ blocks t,
    s.issueAll (encWords ws ++ [.encFinish]) = (t, .ok) ∧ EncodeEnd s t ws.length blocks ∧ Decodes s blocks ws := by
  induction hn : ws.length using Nat.strong_induction_on generalizing s ws with
  | h k ih =>
  subst hn
  by_cases hlen : ws.length < 4096
  · exact encode_last h hws hlen room
  obtain ⟨block, rest, hfull, rfl⟩ : ∃ block rest, block.length = 4096 ∧ ws = block ++ rest :=
    ⟨ws.take 4096, ws.drop 4096, by rw [List.length_take]; omega, (List.take_append_drop _ _).symm⟩
  rw [List.length_append] at room
  obtain ⟨hblock, hrest⟩ := List.forall_mem_append.1 hws
  have hne : block ≠ [] := List.ne_nil_of_length_pos (by omega)
  have hsize := h.serializeBlock_length_le hne hfull.le
  have hfits : (s.feed block).serializeBlock.length ≤ (s.feed block).outAvail.toNat := by rw [feed_outAvail]; omega
  have havail := flushBlock_outAvail_toNat hfits
  rw [feed_outAvail] at havail hfits
  obtain ⟨n, r, hwords⟩ := issueAll_encWords_of_full h.ready hblock h.start.sigCount hfull hfits
  have hnext := h.flushBlock hblock n r
  have hroom : 18 * rest.length ≤ ((s.feed block).flushBlock.later n r).outAvail.toNat := by
    rw [State.later_outAvail]
    omega
  obtain ⟨blocks, t, hall, ⟨hout, hlength, context, htail, hwsel, havail'⟩, hdec⟩ :=
    ih rest.length (by rw [List.length_append]; omega) hnext (by simpa using hrest) hroom rfl
  rw [State.later_outAvail] at havail'
  refine ⟨(s.feed block).serializeBlock ++ blocks, t, ?_, ⟨?_, ?_, context, ?_, ?_, ?_⟩, ?_⟩
  · rw [encWords_append, List.append_assoc, issueAll_append_of_ok hwords, hall]
  · have hflushed : ((s.feed block).flushBlock.later n r).out = s.out ++ (s.feed block).serializeBlock :=
      congrArg (· ++ _) (feed_out s block)
    rw [hout, hflushed, List.append_assoc]
  · rw [List.length_append, List.length_append]
    omega
  · exact htail.trans (feed_tailDone s block)
  · exact hwsel.trans (feed_wsel s block)
  · rw [List.length_append]
    omega
  · exact decodes_append h.feedable h.start hblock hne hfull.le (.inl hfull) (hdec.of_inStep ⟨rfl, rfl, rfl, rfl, rfl⟩)

end Sys2Proof.Machine
end

section
/-! SUPPORT. The two sequences of the library surface (00_scope.md R13): the words and the tail of a buffer, the contexts that
CTX_INIT and OUT_GRANT leave just out of reset, the tail, and the round-trip law (45_decoder.md R221). -/

namespace Sys2Proof.Machine

variable {s t d : State} {ws : List Word} {blocks more bytes : List Byte}

/-! ### A buffer as words and a tail -/

/-- The whole words of a buffer. -/
def bufferWords (w : WordSel) (bytes : List Byte) : List Word :=
  (splitWords (wordBytes w) (bytes.length / wordBytes w) bytes).1.map (BitVec.ofNat 64)

/-- The bytes of a buffer behind its whole words. -/
def bufferTail (w : WordSel) (bytes : List Byte) : List Byte :=
  (splitWords (wordBytes w) (bytes.length / wordBytes w) bytes).2

theorem pow_wordBytes_le (w : WordSel) : 256 ^ wordBytes w ≤ 2 ^ 64 := by cases w <;> decide

/-- R62, R83: bytes of a word's number are the word's bytes, and its value fits the word width. -/
theorem wordLe_ofNat_leValue {w : WordSel} (h : bytes.length = wordBytes w) :
    wordLe w (BitVec.ofNat 64 (leValue bytes)) = bytes ∧
    (BitVec.ofNat 64 (leValue bytes)).toNat < 2 ^ wordBits w := by
  have hlt := leValue_lt bytes
  have hpow := pow_wordBytes_le w
  rw [h] at hlt
  have hvalue : (BitVec.ofNat 64 (leValue bytes)).toNat = leValue bytes := by
    rw [BitVec.toNat_ofNat, Nat.mod_eq_of_lt (by omega)]
  rw [wordLe, hvalue, wordBits_eq]
  exact ⟨h ▸ leBytes_leValue bytes, hlt⟩

/-- R13, R93: n whole words and what follows them are the bytes. -/
theorem splitWords_spec (w : WordSel) (n : Nat) (bytes : List Byte) (h : n * wordBytes w ≤ bytes.length) :
    (splitWords (wordBytes w) n bytes).1.length = n ∧
    (∀ x ∈ (splitWords (wordBytes w) n bytes).1.map (BitVec.ofNat 64), x.toNat < 2 ^ wordBits w) ∧
    ((splitWords (wordBytes w) n bytes).1.map (BitVec.ofNat 64)).flatMap (wordLe w) ++
      (splitWords (wordBytes w) n bytes).2 = bytes := by
  induction n generalizing bytes with
  | zero => simp [splitWords]
  | succ n ih =>
    rw [Nat.succ_mul] at h
    obtain ⟨hlen, hlt, hbytes⟩ := ih (bytes.drop (wordBytes w)) (by rw [List.length_drop]; omega)
    obtain ⟨hword, hwordLt⟩ := wordLe_ofNat_leValue (w := w) (bytes := bytes.take (wordBytes w))
      (by rw [List.length_take]; omega)
    refine ⟨by simp [splitWords, hlen], ?_, ?_⟩
    · simp only [splitWords, List.map_cons, List.forall_mem_cons]
      exact ⟨hwordLt, hlt⟩
    · simp only [splitWords, List.map_cons, List.flatMap_cons, hword, List.append_assoc, hbytes, List.take_append_drop]

theorem bufferWords_length (w : WordSel) (bytes : List Byte) :
    (bufferWords w bytes).length = bytes.length / wordBytes w := by
  rw [bufferWords, List.length_map]
  exact (splitWords_spec w _ bytes (Nat.div_mul_le_self _ _)).1

theorem bufferWords_lt (w : WordSel) (bytes : List Byte) : ∀ x ∈ bufferWords w bytes, x.toNat < 2 ^ wordBits w :=
  (splitWords_spec w _ bytes (Nat.div_mul_le_self _ _)).2.1

theorem bufferWords_append_tail (w : WordSel) (bytes : List Byte) :
    (bufferWords w bytes).flatMap (wordLe w) ++ bufferTail w bytes = bytes :=
  (splitWords_spec w _ bytes (Nat.div_mul_le_self _ _)).2.2

theorem bufferTail_length (w : WordSel) (bytes : List Byte) : (bufferTail w bytes).length = bytes.length % wordBytes w := by
  have hall := congrArg List.length (bufferWords_append_tail w bytes)
  rw [List.length_append, flatMap_wordLe_length, bufferWords_length] at hall
  have := Nat.div_add_mod bytes.length (wordBytes w)
  rw [Nat.mul_comm] at this
  omega

/-- R93: `enc.bytes` enters the words, declares the end and sends the tail, if there is one. -/
theorem encBytes_eq (w : WordSel) (bytes : List Byte) : encBytes w bytes =
    encWords (bufferWords w bytes) ++ [.encFinish] ++ (if bufferTail w bytes = [] then [] else
      [.encTail (BitVec.ofNat 3 (bufferTail w bytes).length) (BitVec.ofNat 64 (leValue (bufferTail w bytes)))]) := by
  rw [encWords, bufferWords, List.map_map]
  rfl

/-! ### A context of the library surface -/

theorem issue_ctxInit {m : Mode} {w : WordSel} {h : BitVec 5} (low : 1 ≤ h.toNat)
    (high : h.toNat ≤ s.build.maxHashBits.toNat) (size : BitVec 64) :
    ∃ n r, r.status = .ok ∧ s.issue (.ctxInit m w h size) = (s.newContext m w h size).later n r := by
  obtain ⟨hbad, -⟩ | ⟨-, -, e⟩ := execCtxInit_cases m w h size (s.later (s.tick + 1) s.resp)
  · obtain rfl | hover := hbad
    · exact absurd low (by decide)
    · exact absurd high (Nat.not_le.2 hover)
  · exact ⟨_, _, rfl, issue_of_exec e⟩

theorem issue_outGrant (hi : s.init = true) (n : BitVec 64) :
    ∃ k r, r.status = .ok ∧ s.issue (.outGrant n) = (s.grant n).later k r := by
  obtain ⟨hno, -⟩ | ⟨-, e⟩ := execOutGrant_cases n (s.later (s.tick + 1) s.resp)
  · exact nomatch hi.symm.trans hno
  · exact ⟨_, _, rfl, issue_of_exec e⟩

/-- R13, R240, R242: a context with the largest grant. -/
def State.granted (s : State) (m : Mode) (w : WordSel) (h : BitVec 5) (size : BitVec 64) : State :=
  (s.newContext m w h size).grant (BitVec.allOnes 64)

theorem granted_outAvail_toNat (s : State) (m : Mode) (w : WordSel) (h : BitVec 5) (size : BitVec 64) :
    (s.granted m w h size).outAvail.toNat = 2 ^ 64 - 1 := by
  rw [State.granted, State.grant_outAvail, satAdd_toNat, BitVec.toNat_allOnes]
  exact Nat.min_eq_right (Nat.le_add_left _ _)

theorem issueAll_context {m : Mode} {w : WordSel} {h : BitVec 5} (low : 1 ≤ h.toNat)
    (high : h.toNat ≤ s.build.maxHashBits.toNat) (size : BitVec 64) : ∃ n r, ∀ is,
    s.issueAll (.ctxInit m w h size :: .outGrant (BitVec.allOnes 64) :: is) =
      ((s.granted m w h size).later n r).issueAll is := by
  obtain ⟨n, r, hr, hinit⟩ := issue_ctxInit (m := m) (w := w) low high size
  obtain ⟨n', r', hr', hgrant⟩ :=
    issue_outGrant (s := (s.newContext m w h size).later n r) rfl (BitVec.allOnes 64)
  exact ⟨n', r', fun is => (issueAll_cons_of_ok hinit hr _).trans (issueAll_cons_of_ok hgrant hr' is)⟩

theorem blockReady_granted (legal : BuildLegal s.build) {w : WordSel} {h : BitVec 5}
    (high : h.toNat ≤ s.build.maxHashBits.toNat) (size : BitVec 64) (n : Nat) (r : Response) :
    BlockReady ((s.granted .enc w h size).later n r) where
  ready := ⟨rfl, rfl, rfl, rfl, rfl⟩
  empty := ⟨rfl, rfl, rfl, ⟨rfl, rfl, rfl⟩, rfl, rfl, rfl, rfl, rfl⟩
  feedable := ⟨legal, high.trans legal.hashBits.2, Memory.sound_empty⟩

/-! ### The tail at the encoder -/

/-- R93, R176: the tail, if there is one, goes to OUT behind the blocks. -/
theorem issueAll_encTail {n : Nat} {tail : List Byte} (hend : EncodeEnd s t n blocks) (htail : s.tailDone = false)
    (hlen : tail.length < wordBytes s.wsel) (hroom : tail.length ≤ t.outAvail.toNat) : ∃ v,
    t.issueAll (if tail = [] then [] else [.encTail (BitVec.ofNat 3 tail.length) (BitVec.ofNat 64 (leValue tail))]) =
      (v, .ok) ∧ v.out = t.out ++ tail := by
  obtain ⟨-, -, ⟨hi, hf, hm, hfin, hp⟩, hdone, hwsel, -⟩ := hend
  by_cases hne : tail = []
  · rw [if_pos hne, hne]
    exact ⟨t, rfl, (List.append_nil _).symm⟩
  · have hpos := List.length_pos_iff.2 hne
    have height := wordBytes_le_eight s.wsel
    have hcount : (BitVec.ofNat 3 tail.length).toNat = tail.length := by
      rw [BitVec.toNat_ofNat, Nat.mod_eq_of_lt (by omega)]
    have hvalue : (BitVec.ofNat 64 (leValue tail)).toNat = leValue tail := by
      have hlt := leValue_lt tail
      have hpow : 256 ^ tail.length ≤ 256 ^ 8 := Nat.pow_le_pow_right (by decide) (by omega)
      rw [BitVec.toNat_ofNat, Nat.mod_eq_of_lt (by omega)]
    have hoperand : tailOperand (BitVec.ofNat 3 tail.length) (BitVec.ofNat 64 (leValue tail)) = tail := by
      rw [tailOperand, hcount, hvalue, leBytes_leValue]
    have hn : BitVec.ofNat 3 tail.length ≠ 0 := ne_zero_of_toNat_pos (by omega)
    have hexec := exec_encTail_of_finished (s := t.later (t.tick + 1) t.resp) hn
      (by rw [hcount, State.later_wsel, hwsel]; exact hlen) hi hf hm hfin (hdone.trans htail)
      (BitVec.ofNat 64 (leValue tail))
    have hfits : ((t.later (t.tick + 1) t.resp).flushPending ||
        !(t.later (t.tick + 1) t.resp).fits (BitVec.ofNat 3 tail.length).toNat) = false := by
      rw [hcount, Bool.or_eq_false_iff]
      exact ⟨hp, by simp [State.fits, hroom]⟩
    rw [hfits, if_neg (by decide), hoperand] at hexec
    rw [if_neg hne]
    exact ⟨_, issueAll_singleton_of_ok (issue_of_exec hexec) rfl, rfl⟩

/-! ### The tail at the decoder -/

/-- R93, R222: behind the blocks `dec.all` copies the tail, if there is one. -/
theorem decodeAll_of_decodes {tail : List Byte} (hdec : Decodes s blocks ws)
    (start : DecodeStart s d ws.length blocks tail) (hlen : d.tailRem.toNat = tail.length) (hdone : d.tailDone = false)
    (hroom : ws.length * wordBytes s.wsel + tail.length ≤ d.outAvail.toNat) : ∃ t,
    d.decodeAll = (t, .ok) ∧ t.out = d.out ++ ws.flatMap (wordLe s.wsel) ++ tail := by
  obtain ⟨t, hblocks, ⟨hout, ⟨hi, hf, hm⟩, stable, remain, stream, ⟨htailRem, htailDone⟩, room⟩⟩ := hdec d tail start
  rw [← htailRem] at hlen
  rw [State.decodeAll, hblocks]
  dsimp only
  by_cases hzero : t.tailRem = 0
  · have hnil : tail = [] := List.length_eq_zero_iff.1 (by rw [← hlen, hzero]; rfl)
    exact ⟨t, if_pos hzero, by rw [hnil, List.append_nil, hout]⟩
  · have ready : TailReady (t.later (t.tick + 1) t.resp) := ⟨hi, hf, hm, remain, hzero, htailDone.trans hdone⟩
    have hrest : (t.later (t.tick + 1) t.resp).cursor.rest = tail := (State.later_remaining stable _ _).trans stream
    have hexec := exec_decTail_of_ready ready
    rw [hrest, State.later_tailRem, State.later_outAvail, hlen, if_neg (Nat.lt_irrefl _), if_pos (by omega),
      List.take_length] at hexec
    rw [if_neg hzero, issue_of_exec hexec]
    exact ⟨_, rfl, congrArg (· ++ tail) hout⟩

/-! ### The law -/

/-- R13, R221: what `compress` writes, and what it is to a decoder. -/
theorem compress_eq {b : Build} {w : WordSel} {h : BitVec 5} (legal : BuildLegal b) (low : 1 ≤ h.toNat)
    (high : h.toNat ≤ b.maxHashBits.toNat) (hbytes : bytes.length < 2 ^ 60) : ∃ blocks,
    compress b w h (BitVec.allOnes 64) bytes = (blocks ++ bufferTail w bytes, .ok) ∧
    blocks.length ≤ 18 * (bytes.length / wordBytes w) ∧
    Decodes ((State.resetOf b).granted .enc w h 0) blocks (bufferWords w bytes) := by
  have hwords : bytes.length / wordBytes w ≤ bytes.length / 4 := Nat.div_le_div_left (four_le_wordBytes w) (by decide)
  have htail : (bufferTail w bytes).length < wordBytes w := by
    rw [bufferTail_length]
    exact Nat.mod_lt _ (wordBytes_pos w)
  have height := wordBytes_le_eight w
  obtain ⟨n, r, hcontext⟩ := issueAll_context (s := State.resetOf b) (m := .enc) (w := w) low high 0
  have havail : (((State.resetOf b).granted .enc w h 0).later n r).outAvail.toNat = 2 ^ 64 - 1 := by
    rw [State.later_outAvail, granted_outAvail_toNat]
  obtain ⟨blocks, t, hall, hend, hdec⟩ := encode_words (blockReady_granted (w := w) legal high 0 n r) (bufferWords_lt w bytes)
    (by rw [havail, bufferWords_length]; omega)
  have hroom := hend.room
  have hout := hend.out
  have hlength := hend.length
  rw [havail, bufferWords_length] at hroom
  rw [bufferWords_length] at hlength
  obtain ⟨v, htailAll, hvout⟩ := issueAll_encTail (tail := bufferTail w bytes) hend rfl htail (by omega)
  refine ⟨blocks, ?_, hlength, hdec.of_inStep ⟨rfl, rfl, rfl, rfl, rfl⟩⟩
  rw [compress, hcontext, encBytes_eq, issueAll_append_of_ok hall, htailAll]
  simp only [hvout, hout]
  rfl

/-- R294, R13: IN is presented before the context is opened, so that nothing is changed under the decoder. -/
theorem act_present (b : Build) (bytes : List Byte) : (State.resetOf b).act (.present bytes) =
    ((State.resetOf b).later 1 (State.resetOf b).resp).presentInput bytes := act_of_runAction rfl

/-- R241: the whole words and the tail that the expected size gives. -/
theorem granted_dec_counts (s : State) (w : WordSel) (h : BitVec 5) {n : Nat} (hn : n < 2 ^ 60) :
    (s.granted .dec w h (BitVec.ofNat 64 n)).decRemain.toNat = n / wordBytes w ∧
    (s.granted .dec w h (BitVec.ofNat 64 n)).tailRem.toNat = n % wordBytes w := by
  have hsize : (BitVec.ofNat 64 n).toNat = n := by rw [BitVec.toNat_ofNat, Nat.mod_eq_of_lt (by omega)]
  have hdiv := Nat.div_le_self n (wordBytes w)
  have hmod := Nat.mod_lt n (wordBytes_pos w)
  have height := wordBytes_le_eight w
  constructor
  · change (BitVec.ofNat 64 ((BitVec.ofNat 64 n).toNat / wordBytes w)).toNat = _
    rw [hsize, BitVec.toNat_ofNat, Nat.mod_eq_of_lt (by omega)]
  · change (BitVec.ofNat 3 ((BitVec.ofNat 64 n).toNat % wordBytes w)).toNat = _
    rw [hsize, BitVec.toNat_ofNat, Nat.mod_eq_of_lt (by omega)]

/-- R240, R241: a decoder just opened over the blocks and the tail of a buffer is in step with an encoder just opened. -/
theorem decodeStart_granted {w : WordSel} (h : BitVec 5) (hbuild : d.build = s.build)
    (hinput : d.input = blocks ++ bufferTail w bytes) (hbytes : bytes.length < 2 ^ 60)
    (hlength : blocks.length ≤ 18 * (bytes.length / wordBytes w)) (n : Nat) (r : Response) :
    DecodeStart (s.granted .enc w h 0) ((d.granted .dec w h (BitVec.ofNat 64 bytes.length)).later n r)
      (bufferWords w bytes).length blocks (bufferTail w bytes) := by
  have hwords : bytes.length / wordBytes w ≤ bytes.length / 4 := Nat.div_le_div_left (four_le_wordBytes w) (by decide)
  have hwhole := Nat.div_mul_le_self bytes.length (wordBytes w)
  obtain ⟨hremain, -⟩ := granted_dec_counts d w h hbytes
  constructor
  case step => exact ⟨hbuild, rfl, rfl, rfl, rfl⟩
  case context => exact ⟨rfl, rfl, rfl⟩
  case stable => rfl
  case remain => exact hremain.trans (bufferWords_length w bytes).symm
  case stream => exact hinput
  case position =>
    change 0 + blocks.length < 2 ^ 64
    omega
  case room =>
    rw [State.later_outAvail, granted_outAvail_toNat, bufferWords_length]
    change bytes.length / wordBytes w * wordBytes w ≤ _
    omega

/-- R13, R221: what `decompress` writes for the bytes that a decoder turns into the buffer's words, and the tail. -/
theorem decompress_eq {b : Build} {w : WordSel} {h : BitVec 5} (low : 1 ≤ h.toNat)
    (high : h.toNat ≤ b.maxHashBits.toNat) (hbytes : bytes.length < 2 ^ 60)
    (hlength : blocks.length ≤ 18 * (bytes.length / wordBytes w))
    (hdec : Decodes ((State.resetOf b).granted .enc w h 0) blocks (bufferWords w bytes)) :
    decompress b w h (BitVec.allOnes 64) (blocks ++ bufferTail w bytes) (BitVec.ofNat 64 bytes.length) = (bytes, .ok) := by
  obtain ⟨d, hd⟩ : ∃ d, (State.resetOf b).act (.present (blocks ++ bufferTail w bytes)) = d := ⟨_, rfl⟩
  have hbuild : d.build = b := by rw [← hd, act_present]; rfl
  have hinput : d.input = blocks ++ bufferTail w bytes := by rw [← hd, act_present]; rfl
  have hempty : d.out = [] := by rw [← hd, act_present]; rfl
  have hall := Nat.div_add_mod bytes.length (wordBytes w)
  rw [Nat.mul_comm] at hall
  obtain ⟨n, r, hcontext⟩ := issueAll_context (s := d) (m := .dec) (w := w) low (by rwa [hbuild])
    (BitVec.ofNat 64 bytes.length)
  have start := decodeStart_granted (s := State.resetOf b) h hbuild hinput hbytes hlength n r
  have htailRem := (granted_dec_counts d w h hbytes).2.trans (bufferTail_length w bytes).symm
  have hroom : (bufferWords w bytes).length * wordBytes w + (bufferTail w bytes).length ≤
      ((d.granted .dec w h (BitVec.ofNat 64 bytes.length)).later n r).outAvail.toNat := by
    rw [State.later_outAvail, granted_outAvail_toNat, bufferWords_length, bufferTail_length]
    omega
  obtain ⟨t, hdecode, hout⟩ := decodeAll_of_decodes hdec start htailRem rfl hroom
  have hbuffer : t.out = bytes := by
    rw [hout, List.append_assoc]
    exact (congrArg (· ++ _) hempty).trans (bufferWords_append_tail w bytes)
  rw [decompress, hd, hcontext, State.issueAll]
  simp only [hdecode, hbuffer]
  rfl

/-- Settles O46: the blocks that `compress` writes are what the decoder turns into the words, and the tail is copied. -/
theorem roundTripLaw : Obligations.RoundTripLaw := by
  intro b w h bytes legal low high hbytes
  obtain ⟨blocks, hcompress, hlength, hdec⟩ := compress_eq legal low high hbytes
  rw [hcompress]
  exact ⟨rfl, decompress_eq low high hbytes hlength hdec⟩

end Sys2Proof.Machine
end

section
/-! SUPPORT. The control commands (46_control.md): what NOP, CTX_INIT, OUT_GRANT and READ_REG answer and write (R240 to R244,
with the register map of 10_state.md R38). -/

namespace Sys2Proof.Machine

variable {s : State}

/-! ### NOP -/

/-- Settles O11: NOP has no checks, and its answer writes only the response. -/
theorem nopOnlyResponds : Obligations.NopOnlyResponds := execNop_eq

/-! ### CTX_INIT -/

/-- R241: DEC_REMAIN at CTX_INIT, as the spec writes it for the two modes and the two word widths. -/
theorem initialRemain_eq (m : Mode) (w : WordSel) (d : BitVec 64) :
    initialRemain m w d = if m = .dec then BitVec.ofNat 64 (d.toNat / (if w = .w4 then 4 else 8)) else 0 := by
  cases m with
  | enc => rfl
  | dec => cases w <;> rfl

/-- R241: TAILREM at CTX_INIT, as the spec writes it for the two modes and the two word widths. -/
theorem initialTail_eq (m : Mode) (w : WordSel) (d : BitVec 64) :
    initialTail m w d = if m = .dec then BitVec.ofNat 3 (d.toNat % (if w = .w4 then 4 else 8)) else 0 := by
  cases m with
  | enc => rfl
  | dec => cases w <;> rfl

theorem exec_ctxInit_of_legal {h : BitVec 5} (low : 1 ≤ h.toNat) (high : h.toNat ≤ s.build.maxHashBits.toNat)
    (m : Mode) (w : WordSel) (d : BitVec 64) :
    exec (.ctxInit m w h d) s = .next ((s.newContext m w h d).respond .ok false 0) := by
  obtain ⟨rfl | hover, -⟩ | ⟨-, -, hanswer⟩ := execCtxInit_cases m w h d s
  · exact absurd low (by decide)
  · exact absurd high (Nat.not_le.2 hover)
  · exact hanswer

theorem exec_ctxInit_of_illegal {h : BitVec 5} (hbad : h = 0 ∨ s.build.maxHashBits.toNat < h.toNat)
    (m : Mode) (w : WordSel) (d : BitVec 64) : exec (.ctxInit m w h d) s = .next (s.raise .illegalCommand) := by
  obtain ⟨-, hanswer⟩ | ⟨hne, hle, -⟩ := execCtxInit_cases m w h d s
  · exact hanswer
  · exact absurd hbad (not_or.2 ⟨hne, Nat.not_lt.2 hle⟩)

/-- Settles O12: the fields are those of `newContext`, the two counts of the expected size in the form of R241. -/
theorem ctxInitCreatesContext : Obligations.CtxInitCreatesContext := by
  intro s m w h d
  refine ⟨fun low high => ?legal, fun hbad => exec_ctxInit_of_illegal hbad m w d⟩
  case legal =>
    rw [← initialRemain_eq, ← initialTail_eq]
    exact exec_ctxInit_of_legal low high m w d

/-! ### OUT_GRANT -/

/-- R29: a saturating sum as a minimum, the form in which R242 writes it. -/
theorem satAdd_eq_ofNat_min {n : Nat} (x : BitVec n) (k : Nat) :
    satAdd x k = BitVec.ofNat n (min (x.toNat + k) (2 ^ n - 1)) := by
  rw [← satAdd_toNat, BitVec.ofNat_toNat, BitVec.setWidth_eq]

theorem exec_outGrant_of_init (hi : s.init = true) (d : BitVec 64) :
    exec (.outGrant d) s = .next ((s.grant d).respond .ok true (s.grant d).outAvail) := by
  obtain ⟨hno, -⟩ | ⟨-, hanswer⟩ := execOutGrant_cases d s
  · exact nomatch hi.symm.trans hno
  · exact hanswer

theorem exec_outGrant_of_not_init (hi : s.init = false) (d : BitVec 64) :
    exec (.outGrant d) s = .next (s.raise .wrongState) := by
  obtain ⟨-, hanswer⟩ | ⟨hyes, -⟩ := execOutGrant_cases d s
  · exact hanswer
  · exact nomatch hi.symm.trans hyes

/-- Settles O13: the grant writes OUT_AVAIL alone, with the saturating sum that is also the RESULT. -/
theorem outGrantAddsCapacity : Obligations.OutGrantAddsCapacity := by
  intro s d
  refine ⟨fun hi => ?granted, fun hi => exec_outGrant_of_not_init hi d⟩
  case granted =>
    rw [← satAdd_eq_ofNat_min]
    exact exec_outGrant_of_init hi d

/-! ### READ_REG -/

/-- R38, number 0x0B, with PRODBITS as R34 counts it. -/
theorem prodBitsReg_eq (s : State) :
    prodBitsReg s = if s.init = true ∧ s.mode = .enc then
      BitVec.ofNat 64 (16 + s.sigBuf.length + s.predBuf.length + s.rankBuf.length + s.dictBuf.length +
        8 * s.encBuf.length) else 0 := by
  simp only [prodBitsReg, State.prodBits, Bool.and_eq_true, decide_eq_true_eq]

/-- R38: a table whose value column is what `regValue` gives on its number column is a table of registers. -/
theorem regValue_of_mem {n : BitVec 8} {v : BitVec 64} {table : List (BitVec 8 × BitVec 64)} (hmem : (n, v) ∈ table)
    (hcolumns : table.map (regValue s ∘ Prod.fst) = table.map (some ∘ Prod.snd)) : regValue s n = some v :=
  List.map_inj_left.1 hcolumns (n, v) hmem

theorem exec_readReg_of_some {n : BitVec 8} {v : BitVec 64} (hv : regValue s n = some v) :
    exec (.readReg n) s = .next (s.respond .ok true v) := by
  obtain ⟨hnone, -⟩ | ⟨v', hv', hanswer⟩ := execReadReg_cases n s
  · exact nomatch hv.symm.trans hnone
  · obtain rfl : v' = v := Option.some.inj (hv'.symm.trans hv)
    exact hanswer

/-- R86 (c): a number above 0x0E is a REGNO out of its range. -/
theorem exec_readReg_of_lt {n : BitVec 8} (h : 0x0E < n.toNat) (s : State) :
    exec (.readReg n) s = .next (s.raise .illegalCommand) :=
  exec_of_not_wellFormed (decide_eq_false (Nat.not_le.2 h))

/-- Settles O14: the listed values are those of `regValue`, entry by entry, PRODBITS in the form of R34. -/
theorem readRegReturnsTheRegister : Obligations.ReadRegReturnsTheRegister := by
  intro s
  refine ⟨fun n v hmem => ?listed, fun n h => exec_readReg_of_lt h s⟩
  case listed =>
    rw [← prodBitsReg_eq] at hmem
    exact exec_readReg_of_some (regValue_of_mem hmem rfl)

end Sys2Proof.Machine
end

section
/-! SUPPORT. The errors of a command (60_exceptions.md): which refusal the acceptance matrix gives and in what order (R263 to
R265), and what a command that answers anything but OK leaves behind (R261, R262, R266). -/

namespace Sys2Proof

open Sys2Proof.Machine

/-- R263 (c): the command comes at the wrong point of the context's sequence. -/
def Instr.outOfSequence (i : Instr) (s : State) : Prop :=
  match i with
  | .encWord _ => s.finished = true
  | .encFinish => s.finished = true
  | .encTail _ _ => s.finished = false ∨ s.tailDone = true
  | .decBlock => s.decRemain = 0
  | .decTail => s.decRemain ≠ 0 ∨ s.tailRem = 0 ∨ s.tailDone = true
  | _ => False

end Sys2Proof

namespace Sys2Proof.Machine

variable {s t : State} {i : Instr}

/-! ### Steps 2, 4 and 5 of the precedence -/

/-- R265 step 2: after the command word alone, the context is asked for. -/
theorem exec_of_not_init (hi : s.init = false) (hneeds : i.needsInit = true) (hwf : i.wellFormed s.build = true) :
    exec i s = .next (s.raise .wrongState) := by
  cases i with
  | outGrant d => exact exec_outGrant_of_not_init hi d
  | hash d => exact exec_hash_of_not_init hi d
  | dictRead b r => exact exec_dictRead_of_not_init hi b r
  | encWord d => simp [exec, execEncWord, hi]
  | encFlush => exact exec_encFlush_of_not_init hi
  | encFinish => simp [exec, execEncFinish, hi]
  | encTail n d =>
    have hn : n ≠ 0#3 := of_decide_eq_true hwf
    simp [exec, execEncTail, hn, hi]
  | decBlock => simp [exec, execDecBlock, hi]
  | decTail => simp [exec, execDecTail, hi]
  | nop | ctxInit | readReg | rankEnc | rankDec => exact nomatch hneeds

section
variable (hi : s.init = true) (hwf : i.wellFormed s.build = true) (hctx : i.outOfContext s = false)
include hi hwf hctx

/-- R265 step 4: the fault is asked for before the mode and the sequence, so in either mode. -/
theorem exec_of_fault (hf : s.fault = true) (hneeds : i.needsMode ≠ none) : exec i s = .next (s.raise .faulted) := by
  cases i with
  | encWord d => simp [exec, execEncWord, hi, hf]
  | encFlush => exact exec_encFlush_of_fault hi hf
  | encFinish => simp [exec, execEncFinish, hi, hf]
  | encTail n d =>
    have hn : n ≠ 0#3 := of_decide_eq_true hwf
    have hwb : ¬wordBytes s.wsel ≤ n.toNat := of_decide_eq_false hctx
    simp [exec, execEncTail, hn, hwb, hi, hf]
  | decBlock => simp [exec, execDecBlock, hi, hf]
  | decTail => simp [exec, execDecTail, hi, hf]
  | nop | ctxInit | outGrant | readReg | hash | dictRead | rankEnc | rankDec => exact absurd rfl hneeds

/-- R263 (b), R265 step 5. -/
theorem exec_of_wrongMode (hf : s.fault = false) {m : Mode} (hneeds : i.needsMode = some m) (hm : s.mode ≠ m) :
    exec i s = .next (s.raise .wrongState) := by
  cases i with
  | encWord d => cases hneeds; simp [exec, execEncWord, hi, hf, hm]
  | encFlush => cases hneeds; simp [exec, execEncFlush, hi, hf, hm]
  | encFinish => cases hneeds; simp [exec, execEncFinish, hi, hf, hm]
  | encTail n d =>
    cases hneeds
    have hn : n ≠ 0#3 := of_decide_eq_true hwf
    have hwb : ¬wordBytes s.wsel ≤ n.toNat := of_decide_eq_false hctx
    simp [exec, execEncTail, hn, hwb, hi, hf, hm]
  | decBlock => cases hneeds; simp [exec, execDecBlock, hi, hf, hm]
  | decTail => cases hneeds; simp [exec, execDecTail, hi, hf, hm]
  | nop | ctxInit | outGrant | readReg | hash | dictRead | rankEnc | rankDec => exact nomatch hneeds

/-- R263 (c), R265 step 5. -/
theorem exec_of_outOfSequence (hf : s.fault = false) (hseq : i.outOfSequence s) :
    exec i s = .next (s.raise .wrongState) := by
  cases i with
  | encWord d =>
    have hfin : s.finished = true := hseq
    simp [exec, execEncWord, hi, hf, hfin]
  | encFinish =>
    have hfin : s.finished = true := hseq
    simp [exec, execEncFinish, hi, hf, hfin]
  | encTail n d =>
    have hn : n ≠ 0#3 := of_decide_eq_true hwf
    have hwb : ¬wordBytes s.wsel ≤ n.toNat := of_decide_eq_false hctx
    obtain hfin | htail := hseq
    · simp [exec, execEncTail, hn, hwb, hi, hf, hfin]
    · simp [exec, execEncTail, hn, hwb, hi, hf, htail]
  | decBlock =>
    have hremain : s.decRemain = 0#64 := hseq
    simp [exec, execDecBlock, hi, hf, hremain]
  | decTail =>
    obtain hremain | htail | hdone := hseq
    · have hremain : s.decRemain ≠ 0#64 := hremain
      simp [exec, execDecTail, hi, hf, hremain]
    · have htail : s.tailRem = 0#3 := htail
      simp [exec, execDecTail, hi, hf, htail]
    · simp [exec, execDecTail, hi, hf, hdone]
  | nop | ctxInit | outGrant | readReg | hash | dictRead | rankEnc | rankDec | encFlush => exact nomatch hseq

end

/-! ### What a command that fails has done -/

/-- R260 to R266: everything a command can have done that answers anything but OK. -/
inductive Failure (s : State) : Instr → State → Prop
  /-- R269. -/
  | illegal (i : Instr) : Failure s i (s.raise .illegalCommand)
  /-- R263. -/
  | wrongState (i : Instr) (needs : i.needsInit = true) : Failure s i (s.raise .wrongState)
  /-- R264. -/
  | faulted (i : Instr) (needs : i.needsMode ≠ none) : Failure s i (s.raise .faulted)
  /-- R262, where nothing is accepted: a flush is pending on entry, or the bytes do not fit. -/
  | overflow (i : Instr) (needs : i.needsMode ≠ none) (other : i ≠ .encFlush) : Failure s i (s.raise .outputOverflow)
  /-- R262, ENC_FLUSH: RESULT is the size of the pending block. -/
  | flushOverflow (pending : s.flushPending = true) :
      Failure s .encFlush (s.respond .outputOverflow false (BitVec.ofNat 64 s.serializeBlock.length))
  /-- R262, R175: the end of the input is declared and the partial block is pended. -/
  | finishPended : Failure s .encFinish ({ s.declareEnd with flushPending := true }.respond .outputOverflow true 3)
  /-- R262, R161: the word is accepted and fills the block, which is pended. -/
  | wordPended (d : BitVec 64) (u : State) (signed : u = s.signWord (wordOperand s.wsel d))
      (full : u.sigCount.toNat = Config.blockSigs) :
      Failure s (.encWord d) ({ u with flushPending := true }.respond .outputOverflow true
        (resultWord (s.routeWord (wordOperand s.wsel d)).2 false false))
  /-- R147, which R266 sets apart. -/
  | windowCorrupt (d : BitVec 64) : Failure s (.rankDec d) (s.raise .corruptStream)
  /-- R266, R267. -/
  | decodeCorrupt (i : Instr) (decodes : i = .decBlock ∨ i = .decTail) :
      Failure s i (s.decodeFault .corruptStream .corruptStream)
  /-- R266, R268. -/
  | decodeInvalid : Failure s .decBlock (s.decodeFault .invalidCode .invalidCode)

theorem needsInit_of_needsMode (h : i.needsMode ≠ none) : i.needsInit = true := by
  cases i with
  | nop | ctxInit | outGrant | readReg | hash | dictRead | rankEnc | rankDec => exact absurd rfl h
  | _ => rfl

/-- R262 to R264: the refusals of the commands that need a mode and write to OUT or to the current block. -/
theorem Failure.of_raise {e : Status} (hneeds : i.needsMode ≠ none) (hother : i ≠ .encFlush)
    (he : e ∈ [Status.illegalCommand, .wrongState, .faulted, .outputOverflow]) : Failure s i (s.raise e) := by
  simp only [List.mem_cons, List.not_mem_nil, or_false] at he
  obtain rfl | rfl | rfl | rfl := he
  · exact .illegal i
  · exact .wrongState i (needsInit_of_needsMode hneeds)
  · exact .faulted i hneeds
  · exact .overflow i hneeds hother

/-- R164: a window check that leaves the block full has done nothing. -/
theorem windowCheck_of_full_after (h : s.windowCheck.1.sigCount.toNat = Config.blockSigs) : s.windowCheck = (s, false) := by
  obtain ⟨hdue, -, e⟩ | ⟨-, e⟩ := windowCheck_cases s
  · obtain ⟨-, -, hlt⟩ := (windowDue_iff s).1 hdue
    rw [e] at h
    exact absurd h hlt.ne
  · exact e

/-- R161, R168, R172: an accepted word is answered with OK unless it fills a block that does not fit. -/
theorem acceptWord_ok_or_failure (d : BitVec 64) : (s.acceptWord (wordOperand s.wsel d)).resp.status = .ok ∨
    Failure s (.encWord d) (s.acceptWord (wordOperand s.wsel d)) := by
  rw [acceptWord_eq, enterWord_eq_signWord, ← State.signWord]
  obtain ⟨-, e⟩ | ⟨-, -, e⟩ | ⟨hfull, -, e⟩ := closeWord_cases (s.signWord (wordOperand s.wsel d)).windowCheck.1
    (s.routeWord (wordOperand s.wsel d)).2 (s.signWord (wordOperand s.wsel d)).windowCheck.2
  · exact .inl (e ▸ rfl)
  · exact .inl (e ▸ rfl)
  · have hchecked := windowCheck_of_full_after hfull
    rw [e, hchecked]
    exact .inr (.wordPended d _ rfl (by simpa only [hchecked] using hfull))

/-- Every command answers OK, or has failed in one of the ways listed. -/
theorem exec_ok_or_failure (i : Instr) (s : State) : ∃ t, exec i s = .next t ∧ (t.resp.status = .ok ∨ Failure s i t) := by
  cases i with
  | nop => exact ⟨_, execNop_eq s, .inl rfl⟩
  | ctxInit m w h d =>
    obtain ⟨-, e⟩ | ⟨-, -, e⟩ := execCtxInit_cases m w h d s
    · exact ⟨_, e, .inr (.illegal _)⟩
    · exact ⟨_, e, .inl rfl⟩
  | outGrant d =>
    obtain ⟨-, e⟩ | ⟨-, e⟩ := execOutGrant_cases d s
    · exact ⟨_, e, .inr (.wrongState _ rfl)⟩
    · exact ⟨_, e, .inl rfl⟩
  | readReg n =>
    obtain ⟨-, e⟩ | ⟨_, -, e⟩ := execReadReg_cases n s
    · exact ⟨_, e, .inr (.illegal _)⟩
    · exact ⟨_, e, .inl rfl⟩
  | hash d =>
    obtain ⟨-, e⟩ | ⟨-, e⟩ := execHash_cases d s
    · exact ⟨_, e, .inr (.wrongState _ rfl)⟩
    · exact ⟨_, e, .inl rfl⟩
  | dictRead b r =>
    obtain ⟨st, hst, e⟩ | ⟨-, -, -, ⟨_, -, e⟩ | ⟨-, e⟩⟩ := execDictRead_cases b r s
    · simp only [List.mem_cons, List.not_mem_nil, or_false] at hst
      obtain rfl | rfl := hst
      · exact ⟨_, e, .inr (.wrongState _ rfl)⟩
      · exact ⟨_, e, .inr (.illegal _)⟩
    · exact ⟨_, e, .inl rfl⟩
    · exact ⟨_, e, .inl rfl⟩
  | rankEnc r => exact ⟨_, execRankEnc_eq r s, .inl rfl⟩
  | rankDec d =>
    obtain ⟨-, e⟩ | ⟨_, -, e⟩ := execRankDec_cases d s
    · exact ⟨_, e, .inr (.windowCorrupt d)⟩
    · exact ⟨_, e, .inl rfl⟩
  | encWord d =>
    obtain ⟨st, hst, e⟩ | ⟨-, -, -, -, -, e⟩ := execEncWord_cases d s
    · exact ⟨_, e, .inr (.of_raise nofun nofun (List.mem_cons_of_mem _ hst))⟩
    · exact ⟨_, e, acceptWord_ok_or_failure d⟩
  | encFlush =>
    obtain ⟨st, hst, e⟩ | ⟨-, -, -, ⟨-, e⟩ | ⟨-, -, e⟩ | ⟨hp, -, e⟩⟩ := execEncFlush_cases s
    · simp only [List.mem_cons, List.not_mem_nil, or_false] at hst
      obtain rfl | rfl := hst
      · exact ⟨_, e, .inr (.wrongState _ rfl)⟩
      · exact ⟨_, e, .inr (.faulted _ nofun)⟩
    · exact ⟨_, e, .inl rfl⟩
    · exact ⟨_, e, .inl rfl⟩
    · exact ⟨_, e, .inr (.flushOverflow hp)⟩
  | encFinish =>
    obtain ⟨st, hst, e⟩ | ⟨-, -, -, -, -, ⟨-, e⟩ | ⟨-, -, e⟩ | ⟨-, -, e⟩⟩ := execEncFinish_cases s
    · exact ⟨_, e, .inr (.of_raise nofun nofun (List.mem_cons_of_mem _ hst))⟩
    · exact ⟨_, e, .inl rfl⟩
    · exact ⟨_, e, .inl rfl⟩
    · exact ⟨_, e, .inr .finishPended⟩
  | encTail n d =>
    obtain ⟨st, hst, e⟩ | ⟨-, -, -, -, -, -, -, -, -, e⟩ := execEncTail_cases n d s
    · exact ⟨_, e, .inr (.of_raise nofun nofun hst)⟩
    · exact ⟨_, e, .inl rfl⟩
  | decBlock =>
    obtain ⟨st, hst, e⟩ | ⟨-, -, -, -, ⟨-, e⟩ | ⟨_, -, -, e⟩ | ⟨_, _, -, -, -, e⟩⟩ := execDecBlock_cases s
    · exact ⟨_, e, .inr (.of_raise nofun nofun (List.mem_cons_of_mem _ hst))⟩
    · exact ⟨_, e, .inr (.decodeCorrupt _ (.inl rfl))⟩
    · exact ⟨_, e, .inr .decodeInvalid⟩
    · exact ⟨_, e, .inl rfl⟩
  | decTail =>
    obtain ⟨st, hst, e⟩ | ⟨-, -, -, -, -, -, ⟨-, e⟩ | ⟨-, -, e⟩⟩ := execDecTail_cases s
    · exact ⟨_, e, .inr (.of_raise nofun nofun (List.mem_cons_of_mem _ hst))⟩
    · exact ⟨_, e, .inr (.decodeCorrupt _ (.inr rfl))⟩
    · exact ⟨_, e, .inl rfl⟩

/-- The inversion lemma of exec for a status other than OK. -/
theorem exec_failure (h : exec i s = .next t) (hstatus : t.resp.status ≠ .ok) : Failure s i t := by
  obtain ⟨u, e, hcase⟩ := exec_ok_or_failure i s
  obtain rfl : u = t := Host.Outcome.next.inj (e.symm.trans h)
  exact hcase.resolve_left hstatus

theorem Failure.needsInit (h : Failure s i t) (hstatus : t.resp.status = .wrongState) : i.needsInit = true := by
  cases h with
  | wrongState _ needs => exact needs
  | _ => exact nomatch hstatus

theorem Failure.needsMode (h : Failure s i t) (hstatus : t.resp.status = .faulted) : i.needsMode ≠ none := by
  cases h with
  | faulted _ needs => exact needs
  | _ => exact nomatch hstatus

/-! ### The acceptance matrix -/

/-- Settles O48: step 2 of R265, and that only a command that needs a context raises WRONG_STATE. -/
theorem noContextIsWrongState : Obligations.NoContextIsWrongState := by
  refine fun i s hi => ⟨exec_of_not_init hi, fun hneeds t h hstatus => ?_⟩
  have hfail := exec_failure h (by rw [hstatus]; decide)
  exact nomatch hneeds.symm.trans (hfail.needsInit hstatus)

/-- Settles O49: step 4 of R265, and that only a command that needs a mode raises FAULTED. -/
theorem faultedContextRefuses : Obligations.FaultedContextRefuses := by
  refine fun i s hi hf => ⟨fun hneeds hwf hctx => exec_of_fault hi hwf hctx hf hneeds, fun hneeds t h hstatus => ?_⟩
  have hfail := exec_failure h (by rw [hstatus]; decide)
  exact hfail.needsMode hstatus hneeds

/-- Settles O50: step 5 of R265, the mode first and then the sequencing rules one by one. -/
theorem wrongModeOrSequence : Obligations.WrongModeOrSequence := by
  intro i s hi hf hwf hctx hwrong
  obtain ⟨m, hneeds, hm⟩ | hseq := hwrong
  · exact exec_of_wrongMode hi hwf hctx hf hneeds hm.symm
  · refine exec_of_outOfSequence hi hwf hctx hf ?_
    obtain ⟨d, rfl, h⟩ | ⟨rfl, h⟩ | ⟨n, d, rfl, h⟩ | ⟨rfl, h⟩ | ⟨rfl, h⟩ := hseq <;> exact h

/-! ### Errors are precise -/

@[simp] theorem signWord_inPos (s : State) (w : Word) : (s.signWord w).inPos = s.inPos := by
  rw [State.signWord, routeWord_eq]; rfl

/-- R264, R262: of the commands that need a mode all but ENC_FLUSH write to OUT or to the current block. -/
theorem eq_of_needsMode_ne_encFlush (hneeds : i.needsMode ≠ none) (hother : i ≠ .encFlush) :
    (∃ d, i = .encWord d) ∨ i = .encFinish ∨ (∃ n d, i = .encTail n d) ∨ i = .decBlock ∨ i = .decTail := by
  cases i with
  | nop | ctxInit | outGrant | readReg | hash | dictRead | rankEnc | rankDec => exact absurd rfl hneeds
  | encFlush => exact absurd rfl hother
  | encWord | encFinish | encTail | decBlock | decTail => simp

/-- R261: no failure moves IN_POS or writes to OUT. -/
theorem Failure.io (h : Failure s i t) : t.inPos = s.inPos ∧ t.out = s.out := by
  cases h with
  | wordPended d u signed => exact signed ▸ ⟨signWord_inPos s _, signWord_out s _⟩
  | _ => exact ⟨rfl, rfl⟩

/-- Settles O51: failure by failure, each of which has one status and so falls under one clause. -/
theorem errorsArePrecise : Obligations.ErrorsArePrecise := by
  intro i s t h hstatus
  have hfail := exec_failure h hstatus
  obtain ⟨hpos, hout⟩ := hfail.io
  refine ⟨hpos, hout, ?_⟩
  cases hfail with
  | illegal | wrongState | faulted => exact ⟨fun _ => rfl, nofun, nofun, nofun⟩
  | windowCorrupt d => exact ⟨nofun, fun _ => .inr ⟨⟨d, rfl⟩, rfl⟩, nofun, nofun⟩
  | decodeCorrupt _ decodes => exact ⟨nofun, fun _ => .inl ⟨decodes, rfl⟩, nofun, nofun⟩
  | decodeInvalid => exact ⟨nofun, nofun, fun _ => ⟨rfl, rfl⟩, nofun⟩
  | overflow _ needs other =>
    exact ⟨nofun, nofun, nofun, fun _ => .inl ⟨eq_of_needsMode_ne_encFlush needs other, rfl⟩⟩
  | flushOverflow pending => exact ⟨nofun, nofun, nofun, fun _ => .inr (.inl ⟨rfl, pending, rfl⟩)⟩
  | finishPended => exact ⟨nofun, nofun, nofun, fun _ => .inr (.inr (.inl ⟨rfl, rfl⟩))⟩
  | wordPended d u signed full =>
    exact ⟨nofun, nofun, nofun, fun _ => .inr (.inr (.inr ⟨d, u, rfl, signed, full, rfl⟩))⟩

end Sys2Proof.Machine
end

section
/-! SUPPORT. Hardware reset (70_reset_and_hazards.md): the state a reset leaves (R290, R292), and the invariants it meets in
every legal build (10_state.md R22 to R33). -/

namespace Sys2Proof.Machine

variable {b : Build}

/-- Settles O8: the reset is taken with the action gone from the port and counted, and leaves `State.hardReset`, in which
the model's dictionary RAM is the empty one. -/
theorem hardwareResetValues : Obligations.HardwareResetValues :=
  fun _ _ hp => ⟨Memory.empty, step_of_port hp⟩

/-- R290: a block just reset is not changed by a reset. -/
theorem hardReset_resetOf (b : Build) : (State.resetOf b).hardReset = State.resetOf b := rfl

theorem resetOf_emptyBlock (b : Build) : EmptyBlock (State.resetOf b) :=
  hardReset_resetOf b ▸ hardReset_emptyBlock (State.resetOf b)

theorem RegInv.resetOf (legal : BuildLegal b) : RegInv (State.resetOf b) where
  legal := legal
  hbits := nofun
  noContext _ := ⟨rfl, rfl⟩
  lastb := Nat.one_pos
  faultCode := ⟨nofun, fun h => absurd rfl h⟩
  faultMode := nofun
  tailRem := wordBytes_pos .w4
  encMode _ := ⟨rfl, rfl, rfl⟩
  decMode := nofun
  tailDone := nofun
  outPos := Nat.le_refl 0

theorem BlockInv.resetOf (legal : BuildLegal b) : BlockInv (State.resetOf b) :=
  (resetOf_emptyBlock b).blockInv legal nofun

theorem DictInv.resetOf (legal : BuildLegal b) : DictInv (State.resetOf b) :=
  .of_sound legal Memory.sound_empty fun _ _ => List.nodup_nil

/-- Settles O10: the reference build is one of the legal builds. -/
theorem resetMeetsTheInvariants : Obligations.ResetMeetsTheInvariants := by
  have every (b : Build) (legal : BuildLegal b) :
      RegInv (State.resetOf b) ∧ BlockInv (State.resetOf b) ∧ DictInv (State.resetOf b) :=
    ⟨.resetOf legal, .resetOf legal, .resetOf legal⟩
  exact ⟨every, every referenceBuild referenceBuild_legal⟩

end Sys2Proof.Machine
end

section
/-! SUPPORT. The two rejections of the decoder told apart by the OPCODE (30_encoding.md R86 (a), (b)), and command words written
out (95_test_vectors.md). -/

namespace Sys2Proof

/-- R86 (a): a word whose OPCODE no row has is rejected as an unknown opcode. -/
theorem decode_of_unknownOpcode {c : Command} (h : ∀ m : Mnemonic, opcodeOf c.cmd ≠ opcodeOf m.pattern) :
    decode c = .error .unknownOpcode := by
  rw [decode_of_matches_no_row fun m hm => h m (opcodeOf_of_matches hm), rejection, if_neg]
  intro hany
  obtain ⟨m, -, hm⟩ := List.any_eq_true.1 hany
  exact h m (of_decide_eq_true hm).symm

/-- R86 (b): a word that has the OPCODE of a row and does not match that row is rejected for a reserved ARG bit. -/
theorem decode_of_reservedArgBit {c : Command} (m : Mnemonic) (hop : opcodeOf c.cmd = opcodeOf m.pattern)
    (hrow : c.cmd &&& m.mask ≠ m.pattern) : decode c = .error .reservedArgBit := by
  have hnone (m' : Mnemonic) : c.cmd &&& m'.mask ≠ m'.pattern := fun hm' => by
    obtain rfl : m' = m := Mnemonic.eq_of_opcode_eq ((opcodeOf_of_matches hm').symm.trans hop)
    exact hrow hm'
  rw [decode_of_matches_no_row hnone, rejection, if_pos]
  exact List.any_eq_true.2 ⟨m, m.mem_all, decide_eq_true hop.symm⟩

/-- Settles O5: each word matches the row of its command and carries the operands in the fields of that row's format; of the
two others, 0x04 is the OPCODE of no row and ARG[5] is reserved in CTX_INIT. -/
theorem spelledOutWordsDecode : Obligations.SpelledOutWordsDecode := by
  refine ⟨?nop, ?ctxInit, ?readReg, ?hash, ?dictRead, ?rankEnc, ?encTail, ?decBlock, ?unknown, ?reserved⟩
  case nop | ctxInit | readReg | hash | dictRead | rankEnc | encTail | decBlock =>
    exact decode_eq_ok_iff.2 ⟨by decide, by decide⟩
  case unknown => exact decode_of_unknownOpcode fun m => by cases m <;> decide
  case reserved => exact decode_of_reservedArgBit .ctxInit (by decide) (by decide)

end Sys2Proof
end
